-- ==== Sys2Proof/Word.lean ====
section
/-! DEFINITION. The bit-vector types of the block (spec 00_scope.md R5, R7, R8). -/

namespace Sys2Proof

/-- A byte (R8). -/
abbrev Byte := BitVec 8

/-- A rectangle coordinate, COORD_BITS = 16 (R5). -/
abbrev Coord := BitVec 16

/-- A pixel-buffer dimension, DIM_BITS = 16 (R5). -/
abbrev Dim := BitVec 16

/-- A pixel index or a pixel count, PIXIDX_BITS = 32 (R5). -/
abbrev PixIdx := BitVec 32

/-- A command descriptor `CMD[79:0]` (30_encoding.md R70). -/
abbrev Descriptor := BitVec 80

end Sys2Proof
end

