-- ==== Sys2Proof/Config.lean ====
section
/-! DEFINITION. The implementation parameters of the block (spec 00_scope.md R5), as named constants of one record, and
what a PIX component reads as before the host has filled it. -/

namespace Sys2Proof

/-- The parameters of R5's table. -/
structure Params where
  panelW : Nat
  panelH : Nat
  chunkRows : Nat
  coordBits : Nat
  regionFrameLen : Nat
  orientFrameLen : Nat
  bytesPerPixel : Nat
  orientBase : Nat
  orientTrailer : List Byte
  dimBits : Nat
  pixIdxBits : Nat
  levelBits : Nat
  orientBits : Nat
  opselBits : Nat
  selBits : Nat
  deriving DecidableEq, Repr

/-- The values this hardware takes (R5). The widths are the widths of the types of Word.lean and of the fields of State. -/
abbrev params : Params where
  panelW := 320
  panelH := 480
  chunkRows := 8
  coordBits := 16
  regionFrameLen := 6
  orientFrameLen := 11
  bytesPerPixel := 2
  orientBase := 100
  orientTrailer := [3, 200, 4, 0]
  dimBits := 16
  pixIdxBits := 32
  levelBits := 8
  orientBits := 2
  opselBits := 3
  selBits := 3

/-- What a component of a pixel that the host has not filled reads as. DESIGN CHOICE, unsafe (log 1): R195 makes the host
fill every pixel before a DRAW, and R41 says that a read cannot fail. -/
def unfilledComponent : Byte := 0#8

end Sys2Proof
end

