-- ==== Sys2Proof/Syntax.lean ====
section
/-! DEFINITION. The instructions: one constructor for each row of the opcode table. The eight commands (spec
30_encoding.md R72), the nine wire frames (R61, R63) and the pixel (R64). -/

namespace Sys2Proof

/-- The closed set of opcodes, in the order of their tags (R66, R67). -/
inductive Opcode where
  | reset | clear | toBlack | screenOff | screenOn | setBrightness | setOrientation | displayBitmap
  deriving DecidableEq, Repr

/-- The four orientations, in the order of their codes (R68). -/
inductive Orientation where
  | portrait | reversePortrait | landscape | reverseLandscape
  deriving DecidableEq, Repr

/-- An instruction. The first eight are what the host issues on CMD. The wire rows are what the sequencer executes inside a
command: a frame row is the stage SEND_FRAME with that frame, the pixel row is the stage FILL for one pixel (log 4). -/
inductive Instr where
  /-- REGION x, y, ex, ey, opcode (R95). -/
  | region (op : Opcode) (x y ex ey : Coord)
  /-- CLEAR (R141). -/
  | clear
  /-- TO_BLACK (R142). -/
  | toBlack
  /-- SCREEN_OFF (R143). -/
  | screenOff
  /-- SCREEN_ON (R144). -/
  | screenOn
  /-- SET_BRIGHTNESS level (R145). -/
  | setBrightness (level : Byte)
  /-- SET_ORIENTATION orientation (R146). -/
  | setOrientation (o : Orientation)
  /-- DRAW w, h (R121). -/
  | draw (w h : Dim)
  /-- The 6-byte frame with opcode 101 (R61). -/
  | frameReset (x y ex ey : Coord)
  /-- The 6-byte frame with opcode 102 (R61). -/
  | frameClear (x y ex ey : Coord)
  /-- The 6-byte frame with opcode 103 (R61). -/
  | frameToBlack (x y ex ey : Coord)
  /-- The 6-byte frame with opcode 108 (R61). -/
  | frameScreenOff (x y ex ey : Coord)
  /-- The 6-byte frame with opcode 109 (R61). -/
  | frameScreenOn (x y ex ey : Coord)
  /-- The 6-byte frame with opcode 110 (R61). -/
  | frameSetBrightness (x y ex ey : Coord)
  /-- The 6-byte frame with opcode 121 (R61, R69). -/
  | frameSetOrientation (x y ex ey : Coord)
  /-- The 6-byte frame with opcode 197 (R61). -/
  | frameDisplayBitmap (x y ex ey : Coord)
  /-- The 11-byte orientation frame (R63). -/
  | frameOrient11 (o : Orientation)
  /-- The two wire bytes of one pixel (R64). -/
  | pixel (r5 : BitVec 5) (g6 : BitVec 6) (b5 : BitVec 5)
  deriving DecidableEq, Repr

/-- The four encodings of the opcode table (R60, R70, R78). -/
inductive Format where
  /-- The 80-bit command descriptor, ten bytes. -/
  | cmd80
  /-- The region frame, six bytes. -/
  | r6
  /-- The orientation frame, eleven bytes. -/
  | o11
  /-- A pixel on the wire, two bytes. -/
  | p2
  deriving DecidableEq, Repr

/-- A line of the assembler of R76, its numbers not yet held to a width. -/
inductive AsmLine where
  | region (x y ex ey : Nat) (op : Opcode)
  | clear | toBlack | screenOff | screenOn
  | setBrightness (level : Nat)
  | setOrientation (o : Orientation)
  | draw (w h : Nat)
  deriving DecidableEq, Repr

end Sys2Proof
end

