-- ==== Sys2Proof/WellFormed.lean ====
section
/-! DEFINITION. Which instructions are well formed: a frame row's clean layout needs an in-range rectangle (spec
30_encoding.md R61, 00_scope.md R11). Every command and every pixel is well formed (R73). And which lines the assembler accepts (R76). -/

namespace Sys2Proof

/-- A coordinate of an in-range rectangle is at most 1023 (R11). -/
def coordInRange (c : Coord) : Bool := decide (c.toNat ≤ 1023)

/-- An in-range rectangle (R11). -/
def rectInRange (x y ex ey : Coord) : Bool :=
  coordInRange x && coordInRange y && coordInRange ex && coordInRange ey

/-- The check of an instruction. -/
def Instr.wellFormed : Instr → Bool
  | .region _ _ _ _ _ => true
  | .clear => true
  | .toBlack => true
  | .screenOff => true
  | .screenOn => true
  | .setBrightness _ => true
  | .setOrientation _ => true
  | .draw _ _ => true
  | .frameReset x y ex ey => rectInRange x y ex ey
  | .frameClear x y ex ey => rectInRange x y ex ey
  | .frameToBlack x y ex ey => rectInRange x y ex ey
  | .frameScreenOff x y ex ey => rectInRange x y ex ey
  | .frameScreenOn x y ex ey => rectInRange x y ex ey
  | .frameSetBrightness x y ex ey => rectInRange x y ex ey
  | .frameSetOrientation x y ex ey => rectInRange x y ex ey
  | .frameDisplayBitmap x y ex ey => rectInRange x y ex ey
  | .frameOrient11 _ => true
  | .pixel _ _ _ => true

/-- The assembler's check: coordinates and dimensions fit 16 bits, the level 8 bits (R76). -/
def AsmLine.wellFormed : AsmLine → Bool
  | .region x y ex ey _ =>
    decide (x < 2 ^ 16) && decide (y < 2 ^ 16) && decide (ex < 2 ^ 16) && decide (ey < 2 ^ 16)
  | .clear => true
  | .toBlack => true
  | .screenOff => true
  | .screenOn => true
  | .setBrightness level => decide (level < 2 ^ 8)
  | .setOrientation _ => true
  | .draw w h => decide (w < 2 ^ 16) && decide (h < 2 ^ 16)

end Sys2Proof
end

