-- ==== Sys2Proof/Decode.lean ====
section
/-! DEFINITION. Decoder and encoder of the four formats of the opcode table (spec 30_encoding.md R61, R63, R64, R66 to R73, R78).
The encoder is written from the table's bit layouts; the machine's own frame functions (R90, R93) stand in
Machine/Operands.lean. -/

namespace Sys2Proof

/-- The wire value of an opcode, which is also the opcode ROM's content (R66, R67). -/
def Opcode.wire : Opcode → Byte
  | .reset => 101
  | .clear => 102
  | .toBlack => 103
  | .screenOff => 108
  | .screenOn => 109
  | .setBrightness => 110
  | .setOrientation => 121
  | .displayBitmap => 197

/-- The opcode of a wire value; the other 248 values are no opcode (R66, R69). -/
def Opcode.ofWire (b : Byte) : Option Opcode :=
  if b = 101 then some .reset
  else if b = 102 then some .clear
  else if b = 103 then some .toBlack
  else if b = 108 then some .screenOff
  else if b = 109 then some .screenOn
  else if b = 110 then some .setBrightness
  else if b = 121 then some .setOrientation
  else if b = 197 then some .displayBitmap
  else none

/-- The tag `opsel` of an opcode (R67). -/
def Opcode.tag : Opcode → BitVec 3
  | .reset => 0
  | .clear => 1
  | .toBlack => 2
  | .screenOff => 3
  | .screenOn => 4
  | .setBrightness => 5
  | .setOrientation => 6
  | .displayBitmap => 7

/-- The opcode a tag selects: all eight tags are assigned (R67, R73). -/
def Opcode.ofTag (t : BitVec 3) : Opcode :=
  if t = 0 then .reset
  else if t = 1 then .clear
  else if t = 2 then .toBlack
  else if t = 3 then .screenOff
  else if t = 4 then .screenOn
  else if t = 5 then .setBrightness
  else if t = 6 then .setOrientation
  else .displayBitmap

/-- The code of an orientation (R68). -/
def Orientation.code : Orientation → BitVec 2
  | .portrait => 0
  | .reversePortrait => 1
  | .landscape => 2
  | .reverseLandscape => 3

/-- The orientation of a code: all four are legal (R68). -/
def Orientation.ofCode (c : BitVec 2) : Orientation :=
  if c = 0 then .portrait
  else if c = 1 then .reversePortrait
  else if c = 2 then .landscape
  else .reverseLandscape

/-- Why bytes are no instruction of a format. -/
inductive DecodeError where
  /-- The bytes are not as many as the format has. -/
  | wrongLength
  /-- Byte 5 of a region frame is none of the eight opcodes (R69). -/
  | unknownOpcode
  /-- The eleven bytes do not match the orientation frame's template (R63). -/
  | notTheTemplate
  deriving DecidableEq, Repr

/-- What decoding answers. -/
inductive Decoded where
  | instr (i : Instr)
  | rejected (why : DecodeError)
  deriving DecidableEq, Repr

/-- The instruction of a decoding, if there is one. -/
def Decoded.toOption : Decoded → Option Instr
  | .instr i => some i
  | .rejected _ => none

/-! ## Command descriptors -/

/-- The eight fields of a descriptor (R70). -/
def descSel (d : Descriptor) : BitVec 3 := d.extractLsb' 77 3
def descOpsel (d : Descriptor) : BitVec 3 := d.extractLsb' 74 3
def descOrient (d : Descriptor) : BitVec 2 := d.extractLsb' 72 2
def descLevel (d : Descriptor) : BitVec 8 := d.extractLsb' 64 8
def descA (d : Descriptor) : BitVec 16 := d.extractLsb' 48 16
def descB (d : Descriptor) : BitVec 16 := d.extractLsb' 32 16
def descC (d : Descriptor) : BitVec 16 := d.extractLsb' 16 16
def descD (d : Descriptor) : BitVec 16 := d.extractLsb' 0 16

/-- The command of a descriptor: total, since no descriptor is illegal (R72, R73, R74). -/
def decodeCmd (d : Descriptor) : Instr :=
  let sel := descSel d
  if sel = 0 then .region (Opcode.ofTag (descOpsel d)) (descA d) (descB d) (descC d) (descD d)
  else if sel = 1 then .clear
  else if sel = 2 then .toBlack
  else if sel = 3 then .screenOff
  else if sel = 4 then .screenOn
  else if sel = 5 then .setBrightness (descLevel d)
  else if sel = 6 then .setOrientation (Orientation.ofCode (descOrient d))
  else .draw (descA d) (descB d)

/-- The descriptor with the eight fields given (R70). -/
def descOf (sel opsel : BitVec 3) (orient : BitVec 2) (level : BitVec 8) (a b c d : BitVec 16) : Descriptor :=
  sel ++ opsel ++ orient ++ level ++ a ++ b ++ c ++ d

/-- A descriptor as ten bytes, byte 0 being `CMD[79:72]` (R70). -/
def descBytes (d : Descriptor) : List Byte :=
  [d.extractLsb' 72 8, d.extractLsb' 64 8, d.extractLsb' 56 8, d.extractLsb' 48 8, d.extractLsb' 40 8,
   d.extractLsb' 32 8, d.extractLsb' 24 8, d.extractLsb' 16 8, d.extractLsb' 8 8, d.extractLsb' 0 8]

/-! ## Wire frames -/

/-- The frame row of an opcode. -/
def frameInstr (op : Opcode) (x y ex ey : Coord) : Instr :=
  match op with
  | .reset => .frameReset x y ex ey
  | .clear => .frameClear x y ex ey
  | .toBlack => .frameToBlack x y ex ey
  | .screenOff => .frameScreenOff x y ex ey
  | .screenOn => .frameScreenOn x y ex ey
  | .setBrightness => .frameSetBrightness x y ex ey
  | .setOrientation => .frameSetOrientation x y ex ey
  | .displayBitmap => .frameDisplayBitmap x y ex ey

/-- A region frame read as the 48-bit number of R8, by the fields of R61. -/
def decodeR6 (f : BitVec 48) : Decoded :=
  match Opcode.ofWire (f.extractLsb' 0 8) with
  | some op =>
    .instr (frameInstr op ((f.extractLsb' 38 10).setWidth 16) ((f.extractLsb' 28 10).setWidth 16)
      ((f.extractLsb' 18 10).setWidth 16) ((f.extractLsb' 8 10).setWidth 16))
  | none => .rejected .unknownOpcode

/-- The 48-bit number of an in-range rectangle's frame: `x[9:0]`, `y[9:0]`, `ex[9:0]`, `ey[9:0]`, opcode (R61). -/
def encodeR6 (op : Opcode) (x y ex ey : Coord) : BitVec 48 :=
  x.setWidth 10 ++ y.setWidth 10 ++ ex.setWidth 10 ++ ey.setWidth 10 ++ op.wire

/-- The six bytes of a 48-bit frame number, byte 0 most significant (R8). -/
def r6Bytes (f : BitVec 48) : List Byte :=
  [f.extractLsb' 40 8, f.extractLsb' 32 8, f.extractLsb' 24 8, f.extractLsb' 16 8, f.extractLsb' 8 8, f.extractLsb' 0 8]

/-- The eleven bytes of the orientation frame, by the table of R63: byte 6 is `011001rr`. -/
def o11Bytes (c : BitVec 2) : List Byte :=
  [0, 0, 0, 0, 0, 121, (25#6 ++ c : BitVec 8), 3, 200, 4, 0]

/-- The orientation frame read back: the fixed bits must match (R63, R78). -/
def decodeO11 (bs : List Byte) : Decoded :=
  match bs with
  | [_, _, _, _, _, _, b6, _, _, _, _] =>
    let c := b6.extractLsb' 0 2
    if bs = o11Bytes c then .instr (.frameOrient11 (Orientation.ofCode c)) else .rejected .notTheTemplate
  | _ => .rejected .wrongLength

/-- The two bytes of a pixel in wire order: `gggbbbbb`, `rrrrrggg` (R64). -/
def pixelWire (r5 : BitVec 5) (g6 : BitVec 6) (b5 : BitVec 5) : List Byte :=
  [(g6.extractLsb' 0 3 ++ b5 : BitVec 8), (r5 ++ g6.extractLsb' 3 3 : BitVec 8)]

/-- The pixel of two wire bytes (R64). -/
def decodeP2 (first second : Byte) : Instr :=
  .pixel (second.extractLsb' 3 5) (second.extractLsb' 0 3 ++ first.extractLsb' 5 3 : BitVec 6) (first.extractLsb' 0 5)

/-! ## All formats -/

/-- The decoder: total on any bytes. Which format applies is said by the place the bytes stand at (CMD, FB with FLEN 6 or 11,
the pixel stream), as the block has no prefix or mode bit (R65, R75). -/
def decode (f : Format) (bs : List Byte) : Decoded :=
  match f with
  | .cmd80 =>
    match bs with
    | [b0, b1, b2, b3, b4, b5, b6, b7, b8, b9] =>
      .instr (decodeCmd (b0 ++ b1 ++ b2 ++ b3 ++ b4 ++ b5 ++ b6 ++ b7 ++ b8 ++ b9))
    | _ => .rejected .wrongLength
  | .r6 =>
    match bs with
    | [b0, b1, b2, b3, b4, b5] => decodeR6 (b0 ++ b1 ++ b2 ++ b3 ++ b4 ++ b5)
    | _ => .rejected .wrongLength
  | .o11 => decodeO11 bs
  | .p2 =>
    match bs with
    | [b0, b1] => .instr (decodeP2 b0 b1)
    | _ => .rejected .wrongLength

/-- The format of an instruction's row in the opcode table. -/
def Instr.format : Instr → Format
  | .region _ _ _ _ _ => .cmd80
  | .clear => .cmd80
  | .toBlack => .cmd80
  | .screenOff => .cmd80
  | .screenOn => .cmd80
  | .setBrightness _ => .cmd80
  | .setOrientation _ => .cmd80
  | .draw _ _ => .cmd80
  | .frameReset _ _ _ _ => .r6
  | .frameClear _ _ _ _ => .r6
  | .frameToBlack _ _ _ _ => .r6
  | .frameScreenOff _ _ _ _ => .r6
  | .frameScreenOn _ _ _ _ => .r6
  | .frameSetBrightness _ _ _ _ => .r6
  | .frameSetOrientation _ _ _ _ => .r6
  | .frameDisplayBitmap _ _ _ _ => .r6
  | .frameOrient11 _ => .o11
  | .pixel _ _ _ => .p2

/-- How many bytes an encoding of a format has (R60, R70). -/
def Format.size : Format → Nat
  | .cmd80 => 10
  | .r6 => 6
  | .o11 => 11
  | .p2 => 2

/-- The encoder: the bytes of a well-formed instruction, by the opcode table. A command's descriptor is the canonical one, with
zeros in the fields it does not use (R71). -/
def encode (i : Instr) : List Byte :=
  match i with
  | .region op x y ex ey => descBytes (descOf 0 op.tag 0 0 x y ex ey)
  | .clear => descBytes (descOf 1 0 0 0 0 0 0 0)
  | .toBlack => descBytes (descOf 2 0 0 0 0 0 0 0)
  | .screenOff => descBytes (descOf 3 0 0 0 0 0 0 0)
  | .screenOn => descBytes (descOf 4 0 0 0 0 0 0 0)
  | .setBrightness level => descBytes (descOf 5 0 0 level 0 0 0 0)
  | .setOrientation o => descBytes (descOf 6 0 o.code 0 0 0 0 0)
  | .draw w h => descBytes (descOf 7 0 0 0 w h 0 0)
  | .frameReset x y ex ey => r6Bytes (encodeR6 .reset x y ex ey)
  | .frameClear x y ex ey => r6Bytes (encodeR6 .clear x y ex ey)
  | .frameToBlack x y ex ey => r6Bytes (encodeR6 .toBlack x y ex ey)
  | .frameScreenOff x y ex ey => r6Bytes (encodeR6 .screenOff x y ex ey)
  | .frameScreenOn x y ex ey => r6Bytes (encodeR6 .screenOn x y ex ey)
  | .frameSetBrightness x y ex ey => r6Bytes (encodeR6 .setBrightness x y ex ey)
  | .frameSetOrientation x y ex ey => r6Bytes (encodeR6 .setOrientation x y ex ey)
  | .frameDisplayBitmap x y ex ey => r6Bytes (encodeR6 .displayBitmap x y ex ey)
  | .frameOrient11 o => o11Bytes o.code
  | .pixel r5 g6 b5 => pixelWire r5 g6 b5

/-! ## The opcode table's words -/

/-- The `n` bytes of a number, most significant first: how the table's one number becomes the bytes in their order (R8, R70). -/
def bytesOfNat : Nat → Nat → List Byte
  | 0, _ => []
  | n + 1, w => BitVec.ofNat 8 (w / 256 ^ n) :: bytesOfNat n w

/-- The format of a table row by the number of its bits (log 15): 80 a descriptor, 88 the orientation frame, 16 a pixel, 48 a region
frame. A shorter count, where the table gives the leading bits no value, is a region frame, but 9 to 16 bits or none are a pixel. -/
def tableFormat (nbits : Nat) : Format :=
  if 80 < nbits then .o11
  else if 48 < nbits then .cmd80
  else if 16 < nbits then .r6
  else if 8 < nbits then .p2
  else if nbits = 0 then .p2
  else .r6

/-- The bytes of a table word, in the order they stand in. -/
def tableBytes (nbits w : Nat) : List Byte := bytesOfNat (tableFormat nbits).size w

/-- The instruction the decoder reads from a table row's word. -/
def decodeTableWord (nbits w : Nat) : Option Instr := (decode (tableFormat nbits) (tableBytes nbits w)).toOption

/-! ## The assembler's lines as commands -/

/-- The command a line assembles to; a number that does not fit rejects the line (R76). -/
def assemble (l : AsmLine) : Option Instr :=
  if l.wellFormed then
    match l with
    | .region x y ex ey op =>
      some (.region op (BitVec.ofNat 16 x) (BitVec.ofNat 16 y) (BitVec.ofNat 16 ex) (BitVec.ofNat 16 ey))
    | .clear => some .clear
    | .toBlack => some .toBlack
    | .screenOff => some .screenOff
    | .screenOn => some .screenOn
    | .setBrightness level => some (.setBrightness (BitVec.ofNat 8 level))
    | .setOrientation o => some (.setOrientation o)
    | .draw w h => some (.draw (BitVec.ofNat 16 w) (BitVec.ofNat 16 h))
  else none

end Sys2Proof
end

