-- ==== Sys2Proof/Machine/State.lean ====
section
/-! DEFINITION. The state of the block (spec 10_state.md R21), with its pixel buffer, its inputs and the record of its events. -/

namespace Sys2Proof.Machine

/-- PHASE: a descriptor is accepted only when IDLE (R26). -/
inductive Phase where
  | idle | busy
  deriving DecidableEq, Repr

/-- RESULT and the value delivered on RSP (R28, R162). -/
inductive Status where
  | none | ok | wrongImageSize | writeError
  deriving DecidableEq, Repr

/-- STEP: where the sequencer stands inside a command (R27). -/
inductive Seq where
  | check | frame | sendFrame | fill | sendChunk | done
  deriving DecidableEq, Repr

/-- Which path of R27 the running command follows: the model's own field, implied by R24 and R27 (DEDUCED, safe, log 8). -/
inductive Kind where
  | region | orientation | draw
  deriving DecidableEq, Repr

/-- One entry of the pixel buffer (R40). -/
structure Pixel where
  r8 : Byte
  g8 : Byte
  b8 : Byte
  deriving DecidableEq, Repr

/-- One component plane of PIX: pixel index and component, indexes strictly rising, no component equal to what an unlisted
index reads as. -/
abbrev Memory := List Host.Cell

/-- PIX, addressed by pixel index (R40); three planes, no byte layout of a pixel in memory is assumed (N9). -/
structure PixMem where
  red : Memory
  green : Memory
  blue : Memory
  deriving DecidableEq, Repr

/-- The transport's answer to a write (R45, R46). -/
inductive Answer where
  | ok (n : Nat)
  | err
  deriving DecidableEq, Repr

/-- What the transport does when the block waits for an answer (R6, R45): it answers, or it leaves the write unanswered for
this step. DESIGN CHOICE, safe (log 6). -/
inductive Reply where
  | answer (a : Answer)
  | pending
  deriving DecidableEq, Repr

/-- The observable events (R10). -/
inductive Event where
  | accept (i : Instr)
  | write (bytes : List Byte) (a : Answer)
  | complete (st : Status)
  deriving DecidableEq, Repr

/-- What the host may do (R207): issue a descriptor, fill one pixel of PIX, assert hardware reset. DESIGN CHOICE, safe (log 7). -/
inductive HostMove where
  | issue (d : Descriptor)
  | putPixel (index : Nat) (p : Pixel)
  | reset
  deriving DecidableEq, Repr

/-- FB[0] to FB[10] (R24). -/
structure FrameBuf where
  b0 : Byte
  b1 : Byte
  b2 : Byte
  b3 : Byte
  b4 : Byte
  b5 : Byte
  b6 : Byte
  b7 : Byte
  b8 : Byte
  b9 : Byte
  b10 : Byte
  deriving DecidableEq, Repr

/-- The whole state. From `phase` to `seq` it is R21's table; `kind` and `inFlight` are what R27 and R31 imply; `pix` is R40's
space; `host` and `replies` are the inputs of R6; `events` is the record of R10. -/
structure State where
  phase : Phase
  result : Status
  x : Coord
  y : Coord
  ex : Coord
  ey : Coord
  opc : Byte
  lvl : Byte
  ori : BitVec 2
  w : Dim
  h : Dim
  fb : FrameBuf
  flen : BitVec 4
  npix : PixIdx
  pixi : PixIdx
  cb : List Byte
  clen : BitVec 21
  seq : Seq
  kind : Kind
  inFlight : Bool
  pix : PixMem
  host : List HostMove
  replies : List Reply
  events : List Event
  deriving DecidableEq, Repr

/-- Where the machine stops: both cases are states that no run reaches (log 12), and stopping is safe. The errors of the spec
(R160) are no faults here but results that a next state carries. -/
inductive Fault where
  /-- Raised by a step at SEND_FRAME whose FB holds none of the frames of R60. Safe. -/
  | noFrame
  /-- Raised by a step at FILL whose pixel index is not below W * H (R41: the block never reads there). Safe. -/
  | pixelOutside
  deriving DecidableEq, Repr

/-- What the model gives no meaning. -/
inductive Refusal where
  /-- Answered by exec for an instruction that has no meaning yet. Safe. -/
  | notModelled (mnemonic : String)
  /-- Answered by DRAW with a zero dimension that passes the size check (R120: "a model must refuse it"). Safe. -/
  | degenerateDraw
  deriving DecidableEq, Repr

/-- The machine right after reset (R32): PHASE and RESULT as the spec says, no write in flight, nothing sent. The latches the
spec leaves unspecified hold an alternating bit pattern: DESIGN CHOICE, unsafe (log 2); the spec says not to take zero (U13). -/
def State.reset : State where
  phase := .idle
  result := .none
  x := 0xA5A5
  y := 0xA5A5
  ex := 0xA5A5
  ey := 0xA5A5
  opc := 0xA5
  lvl := 0xA5
  ori := 2
  w := 0xA5A5
  h := 0xA5A5
  fb := ⟨0xA5, 0xA5, 0xA5, 0xA5, 0xA5, 0xA5, 0xA5, 0xA5, 0xA5, 0xA5, 0xA5⟩
  flen := 10
  npix := 0xA5A5A5A5
  pixi := 0xA5A5A5A5
  cb := [0xA5]
  clen := 0x0A5A5A
  seq := .done
  kind := .region
  inFlight := false
  pix := ⟨[], [], []⟩
  host := []
  replies := []
  events := []

end Sys2Proof.Machine
end

