-- ==== Sys2Proof/Machine/Flags.lean ====
section
/-! DEFINITION. The status codes, the size check (spec 10_state.md R28, 60_exceptions.md R162, 41_bitmap_streamer.md R110). -/

namespace Sys2Proof.Machine

/-- The 2-bit code of a result, as RESULT holds it and RSP carries it (R28, R162). -/
def Status.code : Status → BitVec 2
  | .none => 0
  | .ok => 1
  | .wrongImageSize => 2
  | .writeError => 3

/-- The 1-bit code of PHASE (R21). -/
def Phase.code : Phase → BitVec 1
  | .idle => 0
  | .busy => 1

/-- `SizeOk(W, H)`: the disjunction of four equalities, kept as the document has it (R110, C2). -/
def sizeOk (w h : Dim) : Bool :=
  (w.toNat == params.panelW || h.toNat == params.panelH) || (w.toNat == params.panelH || h.toNat == params.panelW)

/-- The sizes that pass the check with a zero dimension, to which the spec gives no meaning (R120). -/
def degenerate (w h : Dim) : Bool := sizeOk w h && (w == 0 || h == 0)

end Sys2Proof.Machine
end

