-- ==== Sys2Proof/Machine/Operands.lean ====
section
/-! DEFINITION. Operand assembly and the pure functions of the datapath (spec 30_encoding.md R67, R74; 40_command_encoder.md R90,
R93; 41_bitmap_streamer.md R111, R112; 42_high_level_operations.md R145). -/

namespace Sys2Proof.Machine

/-- `OpcodeRom`: the tag selects the wire opcode (R67). -/
def opcodeRom (opsel : BitVec 3) : Byte := (Opcode.ofTag opsel).wire

/-- `RegionFrame(x, y, ex, ey, op)`: the five formulas on 16 bits, each byte the low 8 bits of its expression (R90). -/
def regionFrame (x y ex ey : Coord) (op : Byte) : List Byte :=
  [(x >>> 2).setWidth 8,
   (((x &&& 3#16) <<< 6) ||| (y >>> 4)).setWidth 8,
   (((y &&& 15#16) <<< 4) ||| (ex >>> 6)).setWidth 8,
   (((ex &&& 63#16) <<< 2) ||| (ey >>> 8)).setWidth 8,
   (ey &&& 255#16).setWidth 8,
   op]

/-- `OrientFrame(o)`: the fixed template, byte 6 is `100 + o` (R93). -/
def orientFrame (o : BitVec 2) : List Byte :=
  [0, 0, 0, 0, 0, Opcode.wire .setOrientation, BitVec.ofNat 8 params.orientBase + o.setWidth 8] ++ params.orientTrailer

/-- The x operand of SET_BRIGHTNESS: `zext_16(255 - level)` (R74, R145). -/
def brightnessX (level : Byte) : Coord := (255#8 - level).setWidth 16

/-- The last column or row of a dimension, `W - 1` or `H - 1`; computed for a dimension of at least 1 (R74, R117). -/
def lastIndex (d : Dim) : Coord := d - 1

/-- `Rgb565(r8, g8, b8)`: truncation to 5, 6 and 5 bits (R111). -/
def rgb565 (p : Pixel) : BitVec 16 :=
  ((p.r8 >>> 3).setWidth 16 <<< 11) ||| ((p.g8 >>> 2).setWidth 16 <<< 5) ||| (p.b8 >>> 3).setWidth 16

/-- `SerLE16(p)`: low byte first (R112, R49). -/
def serLE16 (p : BitVec 16) : List Byte := [(p &&& 255#16).setWidth 8, (p >>> 8).setWidth 8]

/-- The pixel row of a pixel: its three fields (R64, R111). -/
def pixelInstr (p : Pixel) : Instr :=
  .pixel ((p.r8 >>> 3).setWidth 5) ((p.g8 >>> 2).setWidth 6) ((p.b8 >>> 3).setWidth 5)

/-- The 16-bit value `r5 || g6 || b5` (R64). -/
def packFields (r5 : BitVec 5) (g6 : BitVec 6) (b5 : BitVec 5) : BitVec 16 := r5 ++ g6 ++ b5

end Sys2Proof.Machine
end

