-- ==== Sys2Proof/Machine/Ops.lean ====
section
/-! DEFINITION. The named operations: PIX (spec 20_memory.md R40, R41), the frame and chunk buffers (10_state.md R24, R25), the
write primitive (20_memory.md R45), `Complete` and `raise` (60_exceptions.md R161, R164), acceptance (10_state.md R26), hardware
reset (70_reset_and_hazards.md R190, R192). -/

namespace Sys2Proof.Machine

/-! ## PIX -/

/-- The component at an index. -/
def Memory.read : Memory → Nat → Byte
  | [], _ => unfilledComponent
  | (b, v) :: m, a => if a = b then v else Memory.read m a

/-- The plane with one component written, in canonical form. -/
def Memory.write : Memory → Nat → Byte → Memory
  | [], a, v => if v = unfilledComponent then [] else [(a, v)]
  | (b, u) :: m, a, v =>
    if a < b then (if v = unfilledComponent then (b, u) :: m else (a, v) :: (b, u) :: m)
    else if a = b then (if v = unfilledComponent then m else (a, v) :: m)
    else (b, u) :: Memory.write m a v

/-- The canonical form: indexes strictly rising, no entry that an unlisted index reads as. -/
abbrev Memory.wf (m : Memory) : Prop :=
  m.Pairwise (fun c d => c.1 < d.1) ∧ ∀ c ∈ m, c.2 ≠ unfilledComponent

/-- The three planes are in canonical form. -/
abbrev PixMem.wf (p : PixMem) : Prop := Memory.wf p.red ∧ Memory.wf p.green ∧ Memory.wf p.blue

/-- `PixRead(i)` (R41). -/
def PixMem.read (m : PixMem) (i : Nat) : Pixel := ⟨Memory.read m.red i, Memory.read m.green i, Memory.read m.blue i⟩

/-- The host fills one pixel (R195); the block never does (R40). -/
def PixMem.write (m : PixMem) (i : Nat) (p : Pixel) : PixMem :=
  ⟨Memory.write m.red i p.r8, Memory.write m.green i p.g8, Memory.write m.blue i p.b8⟩

/-- `PixelBytes(i) = SerLE16(Rgb565(PixRead(i)))` (R112). -/
def pixelBytes (m : PixMem) (i : Nat) : List Byte := serLE16 (rgb565 (m.read i))

/-- `RangeBytes(lo, lo + n)`: the bytes of `n` pixels from index `lo` (R112). -/
def rangeBytes (m : PixMem) (lo : Nat) : Nat → List Byte
  | 0 => []
  | n + 1 => pixelBytes m lo ++ rangeBytes m (lo + 1) n

/-! ## The frame buffer -/

/-- `[FB[0], ..., FB[10]]`. -/
def FrameBuf.bytes (f : FrameBuf) : List Byte := [f.b0, f.b1, f.b2, f.b3, f.b4, f.b5, f.b6, f.b7, f.b8, f.b9, f.b10]

/-- FB with its leading bytes replaced: a 6-byte frame leaves FB[6..10] as they are (R95 writes `FB[0..5]`; log 14). -/
def FrameBuf.load (f : FrameBuf) (bs : List Byte) : FrameBuf :=
  ⟨bs.getD 0 f.b0, bs.getD 1 f.b1, bs.getD 2 f.b2, bs.getD 3 f.b3, bs.getD 4 f.b4, bs.getD 5 f.b5,
   bs.getD 6 f.b6, bs.getD 7 f.b7, bs.getD 8 f.b8, bs.getD 9 f.b9, bs.getD 10 f.b10⟩

/-- The frame that stands in FB: `[FB[0], ..., FB[FLEN-1]]` (R24). -/
def frameBytes (s : State) : List Byte := s.fb.bytes.take s.flen.toNat

/-- `FB <- frame ; FLEN <- len(frame)`, and the sequencer goes on to SEND_FRAME (R24, R27, R140). -/
def loadFrame (frame : List Byte) (s : State) : State :=
  { s with fb := s.fb.load frame, flen := BitVec.ofNat 4 frame.length, seq := .sendFrame }

/-! ## Results -/

/-- `Complete(status)`: the one way a command ends (R161). It is one step with the answer or the failed check that decides the
result, so no reset falls between the two: R207 lets the host reset at any time, U12 leaves it to the model. DESIGN CHOICE,
unsafe for a host that resets just there (log 19). -/
def complete (st : Status) (s : State) : State :=
  { s with result := st, phase := .idle, seq := .done, events := s.events ++ [.complete st] }

/-- `raise`: an error of the spec is a `Complete` with its code; nothing is saved and control goes nowhere (R9, R167). -/
def raise (st : Status) (s : State) : State := complete st s

/-! ## The write primitive -/

/-- `TxWrite(bytes)` and the wait for its answer (R45): `Ok(n)` goes on whatever `n` is (R46), `Err` raises WRITE_ERROR
(R164) in the same step (log 19). Where the transport gives no answer now, the write stays in flight and the block stays as it
is (R174, R204). -/
def txWrite (bytes : List Byte) (onOk : State → State) (s : State) : State :=
  match s.replies with
  | .answer (.ok n) :: rest =>
    onOk { s with replies := rest, inFlight := false, events := s.events ++ [.write bytes (.ok n)] }
  | .answer .err :: rest =>
    raise .writeError { s with replies := rest, inFlight := false, events := s.events ++ [.write bytes .err] }
  | .pending :: rest => { s with replies := rest, inFlight := true }
  | [] => { s with inFlight := true }

/-! ## Acceptance and the operand latches -/

/-- Acceptance: BUSY, and the event (R26); the sequencer stands at its first stage (R27). -/
def accept (i : Instr) (k : Kind) (first : Seq) (s : State) : State :=
  { s with phase := .busy, kind := k, seq := first, events := s.events ++ [.accept i] }

/-- The rectangle and the wire opcode of a region frame (R22, R23). -/
def latchRegion (x y ex ey : Coord) (opc : Byte) (s : State) : State :=
  { s with x := x, y := y, ex := ex, ey := ey, opc := opc }

/-- The operands of SET_BRIGHTNESS: LVL, then X from LVL, the rest zero (R145). -/
def latchLevel (level : Byte) (s : State) : State :=
  latchRegion (brightnessX level) 0 0 0 (Opcode.wire .setBrightness) { s with lvl := level }

/-- The operands of SET_ORIENTATION (R146). -/
def latchOrientation (o : BitVec 2) (s : State) : State := { s with ori := o, opc := Opcode.wire .setOrientation }

/-- The operands of DRAW (R121). -/
def latchSize (w h : Dim) (s : State) : State := { s with w := w, h := h }

/-! ## The stages of the sequencer (R27) -/

/-- FRAME: the frame of the running command, built from its latches (R95, R121, R140, R146). -/
def buildFrame (s : State) : State :=
  match s.kind with
  | .region => loadFrame (regionFrame s.x s.y s.ex s.ey s.opc) s
  | .orientation => loadFrame (orientFrame s.ori) s
  | .draw =>
    let t := latchRegion 0 0 (lastIndex s.w) (lastIndex s.h) (Opcode.wire .displayBitmap) s
    loadFrame (regionFrame t.x t.y t.ex t.ey t.opc) t

/-- SEND_FRAME: one write of the frame in FB (R95, R140). -/
def sendFrame (onOk : State → State) (s : State) : State := txWrite (frameBytes s) onOk s

/-- CHECK: the size check of DRAW, before anything is sent; the four degenerate sizes are refused (R110, R120, R121). A check that
fails completes in the same step (log 19). -/
def checkSize (onOk : State → State) (s : State) : Host.Outcome State Fault Refusal :=
  if sizeOk s.w s.h then
    if s.w = 0 ∨ s.h = 0 then .refused .degenerateDraw
    else .next (onOk { s with seq := .frame })
  else .next (raise .wrongImageSize s)

/-- After DRAW's frame: `NPIX <- W * H ; PIXI <- 0`, and the first chunk begins empty (R121). -/
def beginPayload (s : State) : State :=
  { s with npix := s.w.setWidth 32 * s.h.setWidth 32, pixi := 0, cb := [], clen := 0, seq := .fill }

/-- How many pixels the chunk that begins at PIXI has: `C = 8 * W` while that many remain, else the remainder (R114, R115). -/
def chunkPixels (s : State) : Nat :=
  let left := s.npix.toNat - s.pixi.toNat
  let c := params.chunkRows * s.w.toNat
  if c ≤ left then c else left

/-- FILL for a whole chunk: `CB <- RangeBytes(PIXI, PIXI + n) ; CLEN <- 2 * n` (R114, R115, R121). -/
def fillChunk (s : State) : State :=
  { s with cb := rangeBytes s.pix s.pixi.toNat (chunkPixels s),
           clen := BitVec.ofNat 21 (params.bytesPerPixel * chunkPixels s), seq := .sendChunk }

/-- FILL for one pixel: its two bytes join CB; a full chunk goes on to SEND_CHUNK (R25, R27, R112). -/
def fillPixel (p : BitVec 16) (s : State) : State :=
  { s with cb := s.cb ++ serLE16 p, clen := s.clen + BitVec.ofNat 21 params.bytesPerPixel,
           seq := if params.bytesPerPixel * chunkPixels s ≤ s.clen.toNat + params.bytesPerPixel then .sendChunk else .fill }

/-- SEND_CHUNK answered Ok: PIXI grows by the pixels of the chunk sent (R27, R121). -/
def advancePixi (s : State) : State :=
  { s with pixi := s.pixi + BitVec.ofNat 32 (s.clen.toNat / params.bytesPerPixel) }

/-- After a chunk: the next one begins empty, or nothing remains and the command completes (R121), in the step of the chunk's
answer (log 19). -/
def afterChunk (s : State) : State :=
  let t := advancePixi s
  if t.pixi.toNat < t.npix.toNat then { t with cb := [], clen := 0, seq := .fill } else complete .ok t

/-- SEND_CHUNK: one write of the chunk in CB (R114, R115). -/
def sendChunk (onOk : State → State) (s : State) : State := txWrite s.cb onOk s

/-- After a frame: DRAW goes on to its payload, every other command completes (R121, R140). -/
def afterFrame (s : State) : State :=
  match s.kind with
  | .region => complete .ok s
  | .orientation => complete .ok s
  | .draw => beginPayload s

/-- DRAW's loop over `n` chunks and its end, in one go (R121). -/
def payload : Nat → State → State
  | 0, s => complete .ok s
  | n + 1, s => sendChunk (fun t => payload n (advancePixi t)) (fillChunk s)

/-- The number of payload writes of a draw of height `h`: `ceil(h / 8)` (R122). -/
def chunkCount (h : Dim) : Nat := (h.toNat + (params.chunkRows - 1)) / params.chunkRows

/-- DRAW after its frame: all chunks (R121). -/
def streamPixels (s : State) : State := payload (chunkCount s.h) (beginPayload s)

/-- A command that sends one frame: accepted when IDLE, its operands latched, the frame built, sent once, and completed (R95,
R140), all in one step where the write is answered (log 3), so a reset falls before the answer or after `Complete`, not between
(log 19). While BUSY the block does not look at CMD, so nothing changes (R26; log 5). -/
def frameCommand (i : Instr) (k : Kind) (latch : State → State) (s : State) : Host.Outcome State Fault Refusal :=
  match s.phase with
  | .busy => .next s
  | .idle => .next (sendFrame afterFrame (buildFrame (latch (accept i k .frame s))))

/-- A wire frame: the stage SEND_FRAME with this frame (R24, R27, R45). Nothing is sent at any other stage, as the block
emits nothing unasked (R207; log 5). The answer and `Complete` are one step (log 19). -/
def sendWireFrame (frame : List Byte) (s : State) : Host.Outcome State Fault Refusal :=
  match s.phase, s.seq with
  | .busy, .sendFrame => .next (sendFrame afterFrame (loadFrame frame s))
  | _, _ => .next s

/-! ## Hardware reset -/

/-- The block in its reset state; what is outside it (PIX, the host's moves, the transport's answers, the record of events)
stays, and no event is produced (R190, R192). -/
def hardReset (s : State) : State :=
  { State.reset with pix := s.pix, host := s.host, replies := s.replies, events := s.events }

end Sys2Proof.Machine
end

