-- ==== Sys2Proof/Machine/Encoder.lean ====
section
/-! DEFINITION. The Command Encoder's command REGION (spec 40_command_encoder.md R95). -/

namespace Sys2Proof.Machine

/-- REGION: encode one region frame and write it (R95). Nothing is checked about the coordinates. -/
def execRegion (op : Opcode) (x y ex ey : Coord) (s : State) : Host.Outcome State Fault Refusal :=
  frameCommand (.region op x y ex ey) .region (latchRegion x y ex ey (opcodeRom op.tag)) s

end Sys2Proof.Machine
end

