-- ==== Sys2Proof/Machine/HighLevel.lean ====
section
/-! DEFINITION. The six high-level operations (spec 42_high_level_operations.md R140 to R146). -/

namespace Sys2Proof.Machine

/-- CLEAR (R141). -/
def execClear (s : State) : Host.Outcome State Fault Refusal :=
  frameCommand .clear .region (latchRegion 0 0 0 0 (Opcode.wire .clear)) s

/-- TO_BLACK (R142). -/
def execToBlack (s : State) : Host.Outcome State Fault Refusal :=
  frameCommand .toBlack .region (latchRegion 0 0 0 0 (Opcode.wire .toBlack)) s

/-- SCREEN_OFF (R143): the block itself stays fully operational (R176). -/
def execScreenOff (s : State) : Host.Outcome State Fault Refusal :=
  frameCommand .screenOff .region (latchRegion 0 0 0 0 (Opcode.wire .screenOff)) s

/-- SCREEN_ON (R144). -/
def execScreenOn (s : State) : Host.Outcome State Fault Refusal :=
  frameCommand .screenOn .region (latchRegion 0 0 0 0 (Opcode.wire .screenOn)) s

/-- SET_BRIGHTNESS (R145). -/
def execSetBrightness (level : Byte) (s : State) : Host.Outcome State Fault Refusal :=
  frameCommand (.setBrightness level) .region (latchLevel level) s

/-- SET_ORIENTATION (R146). -/
def execSetOrientation (o : Orientation) (s : State) : Host.Outcome State Fault Refusal :=
  frameCommand (.setOrientation o) .orientation (latchOrientation o.code) s

end Sys2Proof.Machine
end

