-- ==== Sys2Proof/Machine/Streamer.lean ====
section
/-! DEFINITION. The Bitmap Streamer's command DRAW and the pixel row (spec 41_bitmap_streamer.md R121; 30_encoding.md R64). -/

namespace Sys2Proof.Machine

/-- DRAW: check the size, send the display-region frame, stream the pixel buffer in chunks (R121). One step runs on
to the first unanswered write or to `Complete` (log 3); no reset falls between what decides the result and `Complete` (log 19). -/
def execDraw (w h : Dim) (s : State) : Host.Outcome State Fault Refusal :=
  match s.phase with
  | .busy => .next s
  | .idle =>
    checkSize (fun t => sendFrame streamPixels (buildFrame t)) (latchSize w h (accept (.draw w h) .draw .check s))

/-- A pixel: the stage FILL for one pixel (R27, R64, R112). Nothing is converted at any other stage (log 5). -/
def execPixel (r5 : BitVec 5) (g6 : BitVec 6) (b5 : BitVec 5) (s : State) : Host.Outcome State Fault Refusal :=
  match s.phase, s.seq with
  | .busy, .fill => .next (fillPixel (packFields r5 g6 b5) s)
  | _, _ => .next s

end Sys2Proof.Machine
end

