-- ==== Sys2Proof/Machine/Wire.lean ====
section
/-! DEFINITION. The nine wire frames: the stage SEND_FRAME with each frame (spec 30_encoding.md R60, R61, R63; 20_memory.md R47). -/

namespace Sys2Proof.Machine

/-- The frame with opcode Reset, which only REGION sends (R96). -/
def execFrameReset (x y ex ey : Coord) (s : State) : Host.Outcome State Fault Refusal :=
  sendWireFrame (regionFrame x y ex ey (Opcode.wire .reset)) s

/-- The frame with opcode Clear. -/
def execFrameClear (x y ex ey : Coord) (s : State) : Host.Outcome State Fault Refusal :=
  sendWireFrame (regionFrame x y ex ey (Opcode.wire .clear)) s

/-- The frame with opcode ToBlack. -/
def execFrameToBlack (x y ex ey : Coord) (s : State) : Host.Outcome State Fault Refusal :=
  sendWireFrame (regionFrame x y ex ey (Opcode.wire .toBlack)) s

/-- The frame with opcode ScreenOff. -/
def execFrameScreenOff (x y ex ey : Coord) (s : State) : Host.Outcome State Fault Refusal :=
  sendWireFrame (regionFrame x y ex ey (Opcode.wire .screenOff)) s

/-- The frame with opcode ScreenOn. -/
def execFrameScreenOn (x y ex ey : Coord) (s : State) : Host.Outcome State Fault Refusal :=
  sendWireFrame (regionFrame x y ex ey (Opcode.wire .screenOn)) s

/-- The frame with opcode SetBrightness. -/
def execFrameSetBrightness (x y ex ey : Coord) (s : State) : Host.Outcome State Fault Refusal :=
  sendWireFrame (regionFrame x y ex ey (Opcode.wire .setBrightness)) s

/-- The 6-byte frame with opcode SetOrientation, which only REGION sends (R69). -/
def execFrameSetOrientation (x y ex ey : Coord) (s : State) : Host.Outcome State Fault Refusal :=
  sendWireFrame (regionFrame x y ex ey (Opcode.wire .setOrientation)) s

/-- The frame with opcode DisplayBitmap: inside DRAW the payload follows, inside REGION nothing does (R69). -/
def execFrameDisplayBitmap (x y ex ey : Coord) (s : State) : Host.Outcome State Fault Refusal :=
  sendWireFrame (regionFrame x y ex ey (Opcode.wire .displayBitmap)) s

/-- The 11-byte orientation frame (R63). -/
def execFrameOrient11 (o : Orientation) (s : State) : Host.Outcome State Fault Refusal :=
  sendWireFrame (orientFrame o.code) s

end Sys2Proof.Machine
end

