-- ==== Sys2Proof/Machine/Dispatch.lean ====
section
/-! DEFINITION. One arm for each instruction. -/

namespace Sys2Proof.Machine

def exec (i : Instr) (s : State) : Host.Outcome State Fault Refusal :=
  match i with
  | .region op x y ex ey => Sys2Proof.Machine.execRegion op x y ex ey s
  | .clear => Sys2Proof.Machine.execClear s
  | .toBlack => Sys2Proof.Machine.execToBlack s
  | .screenOff => Sys2Proof.Machine.execScreenOff s
  | .screenOn => Sys2Proof.Machine.execScreenOn s
  | .setBrightness level => Sys2Proof.Machine.execSetBrightness level s
  | .setOrientation o => Sys2Proof.Machine.execSetOrientation o s
  | .draw w h => Sys2Proof.Machine.execDraw w h s
  | .frameReset x y ex ey => Sys2Proof.Machine.execFrameReset x y ex ey s
  | .frameClear x y ex ey => Sys2Proof.Machine.execFrameClear x y ex ey s
  | .frameToBlack x y ex ey => Sys2Proof.Machine.execFrameToBlack x y ex ey s
  | .frameScreenOff x y ex ey => Sys2Proof.Machine.execFrameScreenOff x y ex ey s
  | .frameScreenOn x y ex ey => Sys2Proof.Machine.execFrameScreenOn x y ex ey s
  | .frameSetBrightness x y ex ey => Sys2Proof.Machine.execFrameSetBrightness x y ex ey s
  | .frameSetOrientation x y ex ey => Sys2Proof.Machine.execFrameSetOrientation x y ex ey s
  | .frameDisplayBitmap x y ex ey => Sys2Proof.Machine.execFrameDisplayBitmap x y ex ey s
  | .frameOrient11 o => Sys2Proof.Machine.execFrameOrient11 o s
  | .pixel r5 g6 b5 => Sys2Proof.Machine.execPixel r5 g6 b5 s

end Sys2Proof.Machine
end

