-- ==== Sys2Proof/Machine/Fetch.lean ====
section
/-! DEFINITION. What the block takes next (spec 20_memory.md R56: there is no fetch, a descriptor is sampled at acceptance), and
what it does where no instruction is taken (10_state.md R27; 70_reset_and_hazards.md R192, R204, R207). -/

namespace Sys2Proof.Machine

/-- The format of the frame in FB, by FLEN (R24). -/
def frameFormat (s : State) : Format := if s.flen = 11 then .o11 else .r6

/-- The index of the next pixel to convert: the chunk's first pixel and the pixels already in CB (R21, R27; log 13). -/
def nextPixel (s : State) : Nat := s.pixi.toNat + s.clen.toNat / params.bytesPerPixel

/-- The instruction the block takes, and the state after it is taken: IDLE, the descriptor the host presents on CMD (R26); at
SEND_FRAME the frame in FB; at FILL the next pixel of PIX, inside the buffer only (R41). Reset comes before anything else. -/
def fetch (s : State) : Option (Instr × State) :=
  match s.host, s.phase, s.seq with
  | .reset :: _, _, _ => none
  | .issue d :: rest, .idle, _ => some (decodeCmd d, { s with host := rest })
  | _, .busy, .sendFrame => (decode (frameFormat s) (frameBytes s)).toOption.map fun i => (i, s)
  | _, .busy, .fill =>
    if nextPixel s < s.w.toNat * s.h.toNat then some (pixelInstr (s.pix.read (nextPixel s)), s) else none
  | _, _, _ => none

/-- What a step does where no instruction is taken: hardware reset at once (R192); IDLE, the host fills a pixel (R195) or does
nothing; BUSY, the stage that the sequencer stands at (R27). While BUSY the host issues nothing and leaves PIX alone (R196, R197). -/
def advance (s : State) : Host.Outcome State Fault Refusal :=
  match s.host, s.phase, s.seq with
  | .reset :: rest, _, _ => .next (hardReset { s with host := rest })
  | .putPixel i p :: rest, .idle, _ => .next { s with host := rest, pix := s.pix.write i p }
  | _, .idle, _ => .next s
  | _, .busy, .check => checkSize id s
  | _, .busy, .frame => .next (buildFrame s)
  | _, .busy, .sendFrame => .fault .noFrame
  | _, .busy, .fill => .fault .pixelOutside
  | _, .busy, .sendChunk => .next (sendChunk afterChunk s)
  | _, .busy, .done => .next (complete .ok s)

end Sys2Proof.Machine
end

