-- ==== Sys2Proof/Machine/Place.lean ====
section
/-! DEFINITION. Where an instruction of each format stands for the next step to take it (log 11). -/

namespace Sys2Proof.Machine

/-- The host's moves without the resets it would make first. -/
def dropResets : List HostMove → List HostMove
  | .reset :: rest => dropResets rest
  | moves => moves

/-- A descriptor presented on CMD to the IDLE block. -/
def placeCommand (d : Descriptor) (s : State) : State := { s with phase := .idle, host := .issue d :: s.host }

/-- A frame in FB with the sequencer at SEND_FRAME. -/
def placeFrame (bs : List Byte) (s : State) : State :=
  { loadFrame bs s with phase := .busy, host := dropResets s.host }

/-- A draw of one row of 320 pixels at its first pixel, that pixel having the fields given and zeros in its discarded low bits. -/
def placePixel (r5 : BitVec 5) (g6 : BitVec 6) (b5 : BitVec 5) (s : State) : State :=
  { s with phase := .busy, seq := .fill, kind := .draw, w := 320, h := 1, npix := 320, pixi := 0, cb := [], clen := 0,
           pix := s.pix.write 0 ⟨r5 ++ 0#3, g6 ++ 0#2, b5 ++ 0#3⟩, host := dropResets s.host }

/-- The two bytes of a pixel on the wire, placed as that pixel; other byte counts place nothing. -/
def placePixelBytes (bs : List Byte) (s : State) : State :=
  match bs with
  | [first, second] =>
    placePixel (second.extractLsb' 3 5) (second.extractLsb' 0 3 ++ first.extractLsb' 5 3) (first.extractLsb' 0 5) s
  | _ => s

end Sys2Proof.Machine
end

