-- ==== Sys2Proof/Machine/Step.lean ====
section
/-! DEFINITION. One step: the instruction the block takes runs, or else what the sequencer, the host or reset does (spec 10_state.md
R26, R27). And where a table row's word stands for the next step (log 11). -/

namespace Sys2Proof.Machine

/-- One step of the machine. -/
def step (s : State) : Host.Outcome State Fault Refusal :=
  match fetch s with
  | some (i, t) => exec i t
  | none => advance s

/-- The state with a table row's word placed where the next step takes it. -/
def State.withFetchWord (s : State) (nbits w : Nat) : State :=
  match tableFormat nbits with
  | .cmd80 => placeCommand (BitVec.ofNat 80 w) s
  | .r6 => placeFrame (tableBytes nbits w) s
  | .o11 => placeFrame (tableBytes nbits w) s
  | .p2 => placePixelBytes (tableBytes nbits w) s

end Sys2Proof.Machine
end

