-- ==== Sys2Proof/Machine/Assembler.lean ====
section
/-! DEFINITION. The assembler's text: one command a line (spec 30_encoding.md R76). Spaces around operands are free and letters are
taken as written (log 18). -/

namespace Sys2Proof.Machine

/-- A line up to its comment (R76). -/
def dropComment : List Char → List Char
  | [] => []
  | c :: cs => if c = ';' then [] else c :: dropComment cs

/-- Without leading spaces. -/
def dropSpaces : List Char → List Char
  | [] => []
  | c :: cs => if c = ' ' then dropSpaces cs else c :: cs

/-- Without leading and trailing spaces. -/
def trimSpaces (cs : List Char) : List Char := (dropSpaces (dropSpaces cs).reverse).reverse

/-- The first word, and what follows it. -/
def firstWord : List Char → List Char × List Char
  | [] => ([], [])
  | c :: cs => if c = ' ' then ([], cs) else (c :: (firstWord cs).1, (firstWord cs).2)

/-- The parts between commas. -/
def splitCommas : List Char → List (List Char)
  | [] => [[]]
  | c :: cs =>
    if c = ',' then [] :: splitCommas cs
    else match splitCommas cs with
      | [] => [[c]]
      | p :: ps => (c :: p) :: ps

/-- The value of a digit, below 16. -/
def digitValue (c : Char) : Option Nat :=
  if '0' ≤ c ∧ c ≤ '9' then some (c.toNat - '0'.toNat)
  else if 'a' ≤ c ∧ c ≤ 'f' then some (c.toNat - 'a'.toNat + 10)
  else if 'A' ≤ c ∧ c ≤ 'F' then some (c.toNat - 'A'.toNat + 10)
  else none

/-- Digits in a base, after the value read so far. -/
def digitsFrom (base : Nat) : Nat → List Char → Option Nat
  | acc, [] => some acc
  | acc, c :: cs =>
    match digitValue c with
    | some d => if d < base then digitsFrom base (acc * base + d) cs else none
    | none => none

/-- A number: decimal, or hexadecimal with `0x` (R76). -/
def parseNumber (cs : List Char) : Option Nat :=
  match cs with
  | [] => none
  | ['0', 'x'] => none
  | '0' :: 'x' :: ds => digitsFrom 16 0 ds
  | ds => digitsFrom 10 0 ds

/-- An opcode's name (R76). -/
def parseOpcode (cs : List Char) : Option Opcode :=
  if cs = "Reset".toList then some .reset
  else if cs = "Clear".toList then some .clear
  else if cs = "ToBlack".toList then some .toBlack
  else if cs = "ScreenOff".toList then some .screenOff
  else if cs = "ScreenOn".toList then some .screenOn
  else if cs = "SetBrightness".toList then some .setBrightness
  else if cs = "SetOrientation".toList then some .setOrientation
  else if cs = "DisplayBitmap".toList then some .displayBitmap
  else none

/-- An orientation's name (R76). -/
def parseOrientation (cs : List Char) : Option Orientation :=
  if cs = "Portrait".toList then some .portrait
  else if cs = "ReversePortrait".toList then some .reversePortrait
  else if cs = "Landscape".toList then some .landscape
  else if cs = "ReverseLandscape".toList then some .reverseLandscape
  else none

/-- A mnemonic and its operands, by the list of R76. -/
def parseCommand (mnemonic : List Char) (operands : List (List Char)) : Option AsmLine :=
  if mnemonic = "REGION".toList then
    match operands with
    | [x, y, ex, ey, op] => do
      return .region (← parseNumber x) (← parseNumber y) (← parseNumber ex) (← parseNumber ey) (← parseOpcode op)
    | _ => none
  else if mnemonic = "SET_BRIGHTNESS".toList then
    match operands with
    | [l] => do return .setBrightness (← parseNumber l)
    | _ => none
  else if mnemonic = "SET_ORIENTATION".toList then
    match operands with
    | [o] => do return .setOrientation (← parseOrientation o)
    | _ => none
  else if mnemonic = "DRAW".toList then
    match operands with
    | [w, h] => do return .draw (← parseNumber w) (← parseNumber h)
    | _ => none
  else if operands ≠ [[]] then none
  else if mnemonic = "CLEAR".toList then some .clear
  else if mnemonic = "TO_BLACK".toList then some .toBlack
  else if mnemonic = "SCREEN_OFF".toList then some .screenOff
  else if mnemonic = "SCREEN_ON".toList then some .screenOn
  else none

/-- A line of text as an assembler line; none for a line that holds no command of R76. -/
def parseLine (text : List Char) : Option AsmLine :=
  let (mnemonic, rest) := firstWord (trimSpaces (dropComment text))
  parseCommand mnemonic ((splitCommas rest).map trimSpaces)

/-- The assembler: text to command, a number that does not fit rejecting the line (R76). -/
def assembleText (text : List Char) : Option Instr := (parseLine text).bind assemble

end Sys2Proof.Machine
end

