-- ==== Sys2Proof/Safety.lean ====
section
/-! DEFINITION. The terms that statements are made in: the observation of a run (spec 70_reset_and_hazards.md R208), the invariant of
the sequencer, what a draw writes by the rules of the chunks (41_bitmap_streamer.md R114, R115), and which states no
behaviour tells apart (10_state.md R33). -/

namespace Sys2Proof.Machine

/-! ## Observation -/

/-- The writes of a list of events, with their answers, in order (R208). -/
def writesOf : List Event → List (List Byte × Answer)
  | [] => []
  | .accept _ :: es => writesOf es
  | .write bs a :: es => (bs, a) :: writesOf es
  | .complete _ :: es => writesOf es

/-- The results of a list of events, in order (R208). -/
def resultsOf : List Event → List Status
  | [] => []
  | .accept _ :: es => resultsOf es
  | .write _ _ :: es => resultsOf es
  | .complete st :: es => st :: resultsOf es

/-- The commands accepted, in order (R26). -/
def acceptsOf : List Event → List Instr
  | [] => []
  | .accept i :: es => i :: acceptsOf es
  | .write _ _ :: es => acceptsOf es
  | .complete _ :: es => acceptsOf es

/-- The observation of a run: its writes with their answers, and its results (R208). -/
def observation (s : State) : List (List Byte × Answer) × List Status := (writesOf s.events, resultsOf s.events)

/-- Whether the last command accepted lacks its `Complete`, after the events given; `before` says so of what went before them. -/
def commandOpen (before : Bool) : List Event → Bool
  | [] => before
  | .accept _ :: es => commandOpen true es
  | .write _ _ :: es => commandOpen before es
  | .complete _ :: es => commandOpen false es

/-- The commands that the host's moves issue, in order. -/
def commandsOf : List HostMove → List Instr
  | [] => []
  | .issue d :: moves => decodeCmd d :: commandsOf moves
  | .putPixel _ _ :: moves => commandsOf moves
  | .reset :: moves => commandsOf moves

/-- A run has ended: the last command's `Complete` has been produced, PHASE is IDLE, and the host issues no further command (R208,
log 20). A run that waits for an answer has not ended (R174). -/
structure RunEnded (s : State) : Prop where
  idle : s.phase = .idle
  completed : commandOpen false s.events = false
  noneLeft : commandsOf s.host = []

/-- How many commands are running: at most one (R26). -/
def running (s : State) : Nat := if s.phase = .busy then 1 else 0

/-- Hardware reset is the host's next move. -/
def resetNext (s : State) : Bool :=
  match s.host with
  | .reset :: _ => true
  | _ => false

/-- The host fills a pixel next. -/
def fillsNext (s : State) : Bool :=
  match s.host with
  | .putPixel _ _ :: _ => true
  | _ => false

/-- The bytes that the answered writes of a list of events carry. -/
def bytesWritten (es : List Event) : Nat := ((writesOf es).map fun w => w.1.length).sum

/-! ## What commands write -/

/-- DRAW's payload writes, by R114 and R115: the full chunks of `8 * W` pixels, then the remainder of `H mod 8` rows if there is one. -/
def payloadWrites (m : PixMem) (w h : Dim) : List (List Byte) :=
  (List.range (h.toNat / 8)).map (fun k => rangeBytes m (k * (8 * w.toNat)) (8 * w.toNat)) ++
    if h.toNat % 8 = 0 then [] else [rangeBytes m (h.toNat / 8 * (8 * w.toNat)) (w.toNat * (h.toNat % 8))]

/-- DRAW's writes: the frame of `(0, 0, W - 1, H - 1)` with opcode 197, then the payload (R121). -/
def drawWrites (m : PixMem) (w h : Dim) : List (List Byte) :=
  regionFrame 0 0 (w - 1) (h - 1) 197 :: payloadWrites m w h

/-- The frame that a command writes first (R95, R121, R141 to R146). The wire rows are no commands. -/
def commandFrame : Instr → List Byte
  | .region op x y ex ey => regionFrame x y ex ey op.wire
  | .clear => regionFrame 0 0 0 0 102
  | .toBlack => regionFrame 0 0 0 0 103
  | .screenOff => regionFrame 0 0 0 0 108
  | .screenOn => regionFrame 0 0 0 0 109
  | .setBrightness level => regionFrame (brightnessX level) 0 0 0 110
  | .setOrientation o => orientFrame o.code
  | .draw w h => regionFrame 0 0 (w - 1) (h - 1) 197
  | _ => []

/-- All that a command writes, if every write is answered `Ok`: its frame, and for DRAW its payload. -/
def commandWrites (m : PixMem) : Instr → List (List Byte)
  | .draw w h => drawWrites m w h
  | i => [commandFrame i]

/-- The lengths a write of the block may have, for a buffer of `w` by `h` (R47). -/
def writeSizeAllowed (w h : Dim) (n : Nat) : Prop :=
  n = 6 ∨ n = 11 ∨ n = 2 * w.toNat * 8 ∨ (h.toNat % 8 ≠ 0 ∧ n = 2 * w.toNat * (h.toNat % 8))

/-- The totals of a command that completes with OK and whose events are these: DRAW `1 + ceil(H / 8)` writes and `6 + 2 * W * H`
bytes, SET_ORIENTATION one write of 11 bytes, every other command one write of 6 (R58). -/
def commandTotals (i : Instr) (es : List Event) : Prop :=
  match i with
  | .draw w h => (writesOf es).length = 1 + (h.toNat + 7) / 8 ∧ bytesWritten es = 6 + 2 * w.toNat * h.toNat
  | .setOrientation _ => (writesOf es).length = 1 ∧ bytesWritten es = 11
  | _ => (writesOf es).length = 1 ∧ bytesWritten es = 6

/-- The tape on which the transport answers `Ok` with each of these counts, then goes on with `rest`. -/
def okReplies (ns : List Nat) (rest : List Reply) : List Reply := ns.map (fun n => .answer (.ok n)) ++ rest

/-- The events of writes answered `Ok` with these counts. -/
def okWrites (ws : List (List Byte)) (ns : List Nat) : List Event := List.zipWith (fun b n => .write b (.ok n)) ws ns

/-- A command of one frame does what R140 says, from every IDLE state, whatever the transport does. `latched` is the state with
the command's own latches written. The model's own: all stages in one step (log 3), the tape of answers (log 6), the field kind
(log 8), and that a 6-byte frame keeps FB[6..10] (log 14). -/
def OneFrameCommand (i : Instr) (k : Kind) (latched : State → State) (frame : List Byte) : Prop :=
  ∀ s : State, s.phase = .idle →
    let t := { latched s with kind := k, fb := s.fb.load frame, flen := BitVec.ofNat 4 frame.length }
    (∀ n rest, s.replies = .answer (.ok n) :: rest →
      exec i s = .next { t with phase := .idle, result := .ok, seq := .done, inFlight := false, replies := rest,
                                events := s.events ++ [.accept i, .write frame (.ok n), .complete .ok] }) ∧
    (∀ rest, s.replies = .answer .err :: rest →
      exec i s = .next { t with phase := .idle, result := .writeError, seq := .done, inFlight := false, replies := rest,
                                events := s.events ++ [.accept i, .write frame .err, .complete .writeError] }) ∧
    (∀ rest, s.replies = .pending :: rest →
      exec i s = .next { t with phase := .busy, seq := .sendFrame, inFlight := true, replies := rest,
                                events := s.events ++ [.accept i] }) ∧
    (s.replies = [] →
      exec i s = .next { t with phase := .busy, seq := .sendFrame, inFlight := true, events := s.events ++ [.accept i] })

/-- A wire frame does what the stage SEND_FRAME does with it (R24, R27, R45), whatever the transport does: answered `Ok`, a
command of one frame completes and DRAW begins its payload. That the row is this stage is log 4; the tape of answers is log 6;
that the first chunk begins empty is log 13, and that a 6-byte frame keeps FB[6..10] log 14. -/
def WireFrameSends (i : Instr) (frame : List Byte) : Prop :=
  ∀ s : State, s.phase = .busy → s.seq = .sendFrame →
    let t := { s with fb := s.fb.load frame, flen := BitVec.ofNat 4 frame.length }
    (∀ n rest, s.replies = .answer (.ok n) :: rest → s.kind ≠ .draw →
      exec i s = .next { t with phase := .idle, result := .ok, seq := .done, inFlight := false, replies := rest,
                                events := s.events ++ [.write frame (.ok n), .complete .ok] }) ∧
    (∀ n rest, s.replies = .answer (.ok n) :: rest → s.kind = .draw →
      exec i s = .next { t with npix := s.w.setWidth 32 * s.h.setWidth 32, pixi := 0, cb := [], clen := 0, seq := .fill,
                                inFlight := false, replies := rest, events := s.events ++ [.write frame (.ok n)] }) ∧
    (∀ rest, s.replies = .answer .err :: rest →
      exec i s = .next { t with phase := .idle, result := .writeError, seq := .done, inFlight := false, replies := rest,
                                events := s.events ++ [.write frame .err, .complete .writeError] }) ∧
    (∀ rest, s.replies = .pending :: rest → exec i s = .next { t with inFlight := true, replies := rest }) ∧
    (s.replies = [] → exec i s = .next { t with inFlight := true })

/-! ## The invariant -/

/-- The frame in FB is one of the frames of R60. -/
def frameReady (s : State) : Bool := (decode (frameFormat s) (frameBytes s)).toOption.isSome

/-- Inside DRAW's payload: NPIX is `W * H`, PIXI stands at the beginning of a chunk with pixels remaining, and CB holds exactly
the bytes of the chunk's pixels so far, CLEN of them (R25, R27, R114). -/
structure PayloadInv (s : State) : Prop where
  kindDraw : s.kind = .draw
  pixelCount : s.npix.toNat = s.w.toNat * s.h.toNat
  pixelsRemain : s.pixi.toNat < s.npix.toNat
  chunkStart : s.pixi.toNat % (8 * s.w.toNat) = 0
  clenEven : s.clen.toNat % 2 = 0
  chunkBytes : s.cb = rangeBytes s.pix s.pixi.toNat (s.clen.toNat / 2)

/-- The invariant of the machine between steps. -/
structure MachineInv (s : State) : Prop where
  /-- PIX is in canonical form. -/
  pixCanonical : s.pix.wf
  /-- An IDLE block has no write in flight (R26, R45). -/
  idleQuiet : s.phase = .idle → s.inFlight = false
  /-- Between steps a BUSY block waits on a frame, fills a chunk or waits on a chunk (R27, R31). -/
  busyStage : s.phase = .busy → s.seq = .sendFrame ∨ s.seq = .fill ∨ s.seq = .sendChunk
  /-- At SEND_FRAME the frame stands in FB whole (R24). -/
  frameStands : s.phase = .busy → s.seq = .sendFrame → frameReady s = true
  /-- A running DRAW has passed the size check and has no zero dimension (R110, R120). -/
  drawSize : s.phase = .busy → s.kind = .draw → sizeOk s.w s.h = true ∧ s.w ≠ 0 ∧ s.h ≠ 0
  /-- FILL and SEND_CHUNK belong to DRAW's payload. -/
  payloadStands : s.phase = .busy → s.seq = .fill ∨ s.seq = .sendChunk → PayloadInv s
  /-- While a chunk is filled nothing is in flight and pixels of it are missing. -/
  filling : s.phase = .busy → s.seq = .fill → s.inFlight = false ∧ s.clen.toNat < 2 * chunkPixels s
  /-- A chunk that is sent is complete. -/
  chunkWhole : s.phase = .busy → s.seq = .sendChunk → s.clen.toNat = 2 * chunkPixels s

/-- The record of a running command (R10, R27): `i` is the command accepted last, and since then the first of its writes, as many as
`ns` has counts, were answered `Ok`, and nothing else happened. At SEND_FRAME that is none, and its frame stands in FB; in the
payload it is the frame and the chunks before PIXI. -/
structure RunningRecord (s : State) (i : Instr) (pre : List Event) (ns : List Nat) : Prop where
  command : i.format = .cmd80
  record : s.events = pre ++ .accept i :: okWrites (commandWrites s.pix i) ns
  atFrame : s.seq = .sendFrame → ns = [] ∧ frameBytes s = commandFrame i ∧ (s.kind = .draw → i = .draw s.w s.h) ∧
    (s.kind ≠ .draw → ∀ w h, i ≠ .draw w h)
  atPayload : s.seq = .fill ∨ s.seq = .sendChunk → i = .draw s.w s.h ∧ ns.length = 1 + s.pixi.toNat / (8 * s.w.toNat)

/-- A running command has its record; with `MachineInv` an invariant of every step. -/
def RecordInv (s : State) : Prop := s.phase = .busy → ∃ i pre ns, RunningRecord s i pre ns

/-! ## States that no behaviour tells apart -/

/-- Everything the outside can see or supply is equal: PHASE, RESULT, PIX, the inputs and the events (R20, R34). -/
def SameOutside (s t : State) : Prop :=
  s.phase = t.phase ∧ s.result = t.result ∧ s.pix = t.pix ∧ s.host = t.host ∧ s.replies = t.replies ∧ s.events = t.events

/-- The latches that the running command has still to read are equal (R33). While IDLE none has. -/
def SameLive (s t : State) : Prop :=
  s.phase = .busy → s.seq = t.seq ∧ s.kind = t.kind ∧
    (s.kind = .draw → s.w = t.w ∧ s.h = t.h) ∧
    (s.seq = .check → s.w = t.w ∧ s.h = t.h) ∧
    (s.seq = .check ∨ s.seq = .frame → (s.kind = .region → s.x = t.x ∧ s.y = t.y ∧ s.ex = t.ex ∧ s.ey = t.ey ∧ s.opc = t.opc) ∧
      (s.kind = .orientation → s.ori = t.ori)) ∧
    (s.seq = .sendFrame → s.flen = t.flen ∧ frameBytes s = frameBytes t) ∧
    (s.seq = .fill ∨ s.seq = .sendChunk →
      s.w = t.w ∧ s.h = t.h ∧ s.npix = t.npix ∧ s.pixi = t.pixi ∧ s.cb = t.cb ∧ s.clen = t.clen)

/-- Two outcomes that agree: the same stop, or next states that agree outside and in what is still to be read. -/
def OutcomesAgree : Host.Outcome State Fault Refusal → Host.Outcome State Fault Refusal → Prop
  | .next s, .next t => SameOutside s t ∧ SameLive s t
  | .fault f, .fault g => f = g
  | .refused r, .refused q => r = q
  | .next _, .fault _ => False
  | .next _, .refused _ => False
  | .fault _, .next _ => False
  | .fault _, .refused _ => False
  | .refused _, .next _ => False
  | .refused _, .fault _ => False

/-! ## Short writes -/

/-- A reply with its count replaced. -/
def Reply.recount (f : Nat → Nat) : Reply → Reply
  | .answer (.ok n) => .answer (.ok (f n))
  | .answer .err => .answer .err
  | .pending => .pending

/-- An event with its count replaced. -/
def Event.recount (f : Nat → Nat) : Event → Event
  | .accept i => .accept i
  | .write bs (.ok n) => .write bs (.ok (f n))
  | .write bs .err => .write bs .err
  | .complete st => .complete st

/-- The state with every count of an `Ok(n)`, past or to come, replaced (R46). -/
def State.recount (f : Nat → Nat) (s : State) : State :=
  { s with replies := s.replies.map (Reply.recount f), events := s.events.map (Event.recount f) }

/-- The outcome with every count replaced. -/
def recountOutcome (f : Nat → Nat) : Host.Outcome State Fault Refusal → Host.Outcome State Fault Refusal
  | .next s => .next (s.recount f)
  | .fault r => .fault r
  | .refused r => .refused r

/-! ## Runs -/

/-- `k` steps one after the other, up to the first that gives no next state. -/
def run : Nat → State → Host.Outcome State Fault Refusal
  | 0, s => .next s
  | k + 1, s =>
    match step s with
    | .next t => run k t
    | .fault r => .fault r
    | .refused r => .refused r

/-! ## The host's part -/

/-- The host issues no DRAW of a degenerate size (R199). -/
def hostAvoidsDegenerate (s : State) : Prop :=
  ∀ d, .issue d ∈ s.host → ∀ w h, decodeCmd d = .draw w h → degenerate w h = false

/-- How many writes a command issues at most: one, or `1 + ceil(H / 8)` for DRAW (R206). -/
def writeBound : Instr → Nat
  | .draw _ h => 1 + (h.toNat + 7) / 8
  | _ => 1

/-- How many writes a list of commands issues at most. -/
def writeBounds (is : List Instr) : Nat := (is.map writeBound).sum

/-- A run of `k` steps is safe: it neither faults nor is refused. Whether it has ended is `RunEnded`. -/
def SafeRun (k : Nat) (s : State) : Prop := ∃ t, run k s = .next t

end Sys2Proof.Machine
end

