-- ==== Sys2Proof/Certificates/Slice0/Obligations.lean ====
section
/-! DEFINITION. The statements for the provers. -/

open Sys2Proof Sys2Proof.Machine

/-! ## Encodings -/

/-- R90: each byte of the region frame is the low 8 bits of its expression, evaluated on unsigned integers, with bitwise OR. -/
def Obligations.RegionFrameFormulas : Prop :=
  ∀ (x y ex ey : Coord) (op : Byte),
    regionFrame x y ex ey op =
      [BitVec.ofNat 8 (x.toNat >>> 2),
       BitVec.ofNat 8 (((x.toNat &&& 3) <<< 6) ||| (y.toNat >>> 4)),
       BitVec.ofNat 8 (((y.toNat &&& 15) <<< 4) ||| (ex.toNat >>> 6)),
       BitVec.ofNat 8 (((ex.toNat &&& 63) <<< 2) ||| (ey.toNat >>> 8)),
       BitVec.ofNat 8 (ey.toNat &&& 255),
       op]

/-- R91: which coordinate bits each byte holds, for arbitrary coordinates, and the aliasing that follows ((a) and (b)). -/
def Obligations.RegionFrameBitFields : Prop :=
  ∀ (x y ex ey : Coord) (op : Byte),
    regionFrame x y ex ey op =
      [x.extractLsb' 2 8,
       (x.extractLsb' 0 2 ||| y.extractLsb' 10 2) ++ y.extractLsb' 4 6,
       (y.extractLsb' 2 2 ||| ex.extractLsb' 12 2) ++ (y.extractLsb' 0 2 ||| ex.extractLsb' 10 2) ++ ex.extractLsb' 6 4,
       (ex.extractLsb' 4 2 ||| ey.extractLsb' 14 2) ++ (ex.extractLsb' 2 2 ||| ey.extractLsb' 12 2) ++
         (ex.extractLsb' 0 2 ||| ey.extractLsb' 10 2) ++ ey.extractLsb' 8 2,
       ey.extractLsb' 0 8,
       op] ∧
    regionFrame (x + 1024) y ex ey op = regionFrame x y ex ey op ∧
    regionFrame x (y + 4096) ex ey op = regionFrame x y ex ey op ∧
    regionFrame x y (ex + 16384) ey op = regionFrame x y ex ey op ∧
    regionFrame 0 1024 0 0 op = regionFrame 1 0 0 0 op ∧
    regionFrame 0 0 1024 0 op = regionFrame 0 1 0 0 op ∧
    regionFrame 0 0 0 1024 op = regionFrame 0 0 1 0 op

/-- R61: for an in-range rectangle the frame is `x[9:0] || y[9:0] || ex[9:0] || ey[9:0] || opcode`, byte 0 most significant. -/
def Obligations.InRangeFrameLayout : Prop :=
  ∀ (x y ex ey : Coord) (op : Byte), rectInRange x y ex ey = true →
    regionFrame x y ex ey op =
      r6Bytes (x.extractLsb' 0 10 ++ y.extractLsb' 0 10 ++ ex.extractLsb' 0 10 ++ ey.extractLsb' 0 10 ++ op)

/-- R92: the inverse recovers an in-range rectangle and its opcode; every six bytes with an opcode in byte 5 are the frame of
exactly one in-range rectangle; and what the inverse reads for arbitrary coordinates. -/
def Obligations.RegionFrameInverse : Prop :=
  let invX := fun (f0 f1 : Byte) => (f0.setWidth 16 <<< 2) ||| (f1 >>> 6).setWidth 16
  let invY := fun (f1 f2 : Byte) => ((f1 &&& 63#8).setWidth 16 <<< 4) ||| (f2 >>> 4).setWidth 16
  let invEx := fun (f2 f3 : Byte) => ((f2 &&& 15#8).setWidth 16 <<< 6) ||| (f3 >>> 2).setWidth 16
  let invEy := fun (f3 f4 : Byte) => ((f3 &&& 3#8).setWidth 16 <<< 8) ||| f4.setWidth 16
  (∀ (x y ex ey : Coord) (op f0 f1 f2 f3 f4 f5 : Byte), regionFrame x y ex ey op = [f0, f1, f2, f3, f4, f5] →
    f5 = op ∧
    (rectInRange x y ex ey = true → invX f0 f1 = x ∧ invY f1 f2 = y ∧ invEx f2 f3 = ex ∧ invEy f3 f4 = ey) ∧
    invX f0 f1 = (x &&& 1023#16) ||| ((y >>> 10) &&& 3#16) ∧
    invY f1 f2 = (y &&& 1023#16) ||| ((ex >>> 10) &&& 15#16) ∧
    invEx f2 f3 = (ex &&& 1023#16) ||| ((ey >>> 10) &&& 63#16) ∧
    invEy f3 f4 = ey &&& 1023#16) ∧
  (∀ (f0 f1 f2 f3 f4 f5 : Byte) (op : Opcode), Opcode.ofWire f5 = some op →
    ∃ x y ex ey : Coord, rectInRange x y ex ey = true ∧ regionFrame x y ex ey op.wire = [f0, f1, f2, f3, f4, f5] ∧
      ∀ x' y' ex' ey' : Coord, ∀ op' : Byte, rectInRange x' y' ex' ey' = true →
        regionFrame x' y' ex' ey' op' = [f0, f1, f2, f3, f4, f5] →
        x' = x ∧ y' = y ∧ ex' = ex ∧ ey' = ey ∧ op' = op.wire)

/-- R70 to R73, R61, R63, R64: decoding the encoding of a well-formed instruction gives it back, with every operand. -/
def Obligations.DecodeEncode : Prop :=
  ∀ i : Instr, i.wellFormed = true → decode i.format (encode i) = .instr i

/-- R61, R63, R64, R92: on the wire each word has one meaning: what decodes to an instruction is that instruction's encoding. -/
def Obligations.EncodeDecodeWire : Prop :=
  ∀ (f : Format) (bs : List Byte) (i : Instr), f ≠ .cmd80 → decode f bs = .instr i →
    encode i = bs ∧ i.format = f ∧ i.wellFormed = true

/-- R71, R73: every descriptor decodes, and only the fields a command uses matter. -/
def Obligations.DescriptorFieldsUsed : Prop :=
  (∀ d : Descriptor, decode .cmd80 (descBytes d) = .instr (decodeCmd d)) ∧
  (∀ d e : Descriptor, descSel d = descSel e →
    (descSel d = 0 → descOpsel d = descOpsel e ∧ descA d = descA e ∧ descB d = descB e ∧ descC d = descC e ∧ descD d = descD e) →
    (descSel d = 5 → descLevel d = descLevel e) →
    (descSel d = 6 → descOrient d = descOrient e) →
    (descSel d = 7 → descA d = descA e ∧ descB d = descB e) →
    decodeCmd d = decodeCmd e)

/-- R70, R72, R78: words of the opcode table, written out from the spec's test vectors V4, V34, V90, V92, V67, from R61, R63 and
R64, decode to the instructions they stand for. -/
def Obligations.SampleWordsDecode : Prop :=
  decodeTableWord 80 0x1C00000A0014006D00DB = some (.region .displayBitmap 10 20 109 219) ∧
  decodeTableWord 80 0xA0640000000000000000 = some (.setBrightness 100) ∧
  decodeTableWord 80 0xC2090007000700070007 = some (.setOrientation .landscape) ∧
  decodeTableWord 80 0xF54D00640064014001E0 = some (.draw 100 100) ∧
  decodeTableWord 80 0xE0000140000900000000 = some (.draw 320 9) ∧
  decodeTableWord 48 0x028141B4DBC5 = some (.frameDisplayBitmap 10 20 109 219) ∧
  decodeTableWord 88 0x00000000007966_03C80400 = some (.frameOrient11 .landscape) ∧
  decodeTableWord 16 0xAA11 = some (.pixel 2 13 10)

/-- R66, R67: the ROM's values in the order of the tags, and the closed set of wire values. -/
def Obligations.OpcodeRomValues : Prop :=
  (∀ t : BitVec 3, some (opcodeRom t) = [101, 102, 103, 108, 109, 110, 121, 197][t.toNat]?) ∧
  (∀ op : Opcode, Opcode.ofTag op.tag = op ∧ opcodeRom op.tag = op.wire) ∧
  (∀ (b : Byte) (op : Opcode), Opcode.ofWire b = some op ↔ op.wire = b)

/-- R76 (the syntax is the spec's own decision, D19): each line form with the widths of its numbers: coordinates and dimensions
below 65536, the level below 256. A line whose numbers fit assembles to the command with exactly those numbers in their places,
any other line is rejected. And the command decodes from its canonical descriptor, whose unused fields are zero. -/
def Obligations.AssemblerChecksWidths : Prop :=
  (∀ (x y ex ey : Nat) (op : Opcode),
    (x < 65536 ∧ y < 65536 ∧ ex < 65536 ∧ ey < 65536 →
      ∃ cx cy cex cey : Coord, cx.toNat = x ∧ cy.toNat = y ∧ cex.toNat = ex ∧ cey.toNat = ey ∧
        assemble (.region x y ex ey op) = some (.region op cx cy cex cey)) ∧
    (65536 ≤ x ∨ 65536 ≤ y ∨ 65536 ≤ ex ∨ 65536 ≤ ey → assemble (.region x y ex ey op) = none)) ∧
  assemble .clear = some .clear ∧ assemble .toBlack = some .toBlack ∧
  assemble .screenOff = some .screenOff ∧ assemble .screenOn = some .screenOn ∧
  (∀ level : Nat,
    (level < 256 → ∃ l : Byte, l.toNat = level ∧ assemble (.setBrightness level) = some (.setBrightness l)) ∧
    (256 ≤ level → assemble (.setBrightness level) = none)) ∧
  (∀ o : Orientation, assemble (.setOrientation o) = some (.setOrientation o)) ∧
  (∀ w h : Nat,
    (w < 65536 ∧ h < 65536 →
      ∃ dw dh : Dim, dw.toNat = w ∧ dh.toNat = h ∧ assemble (.draw w h) = some (.draw dw dh)) ∧
    (65536 ≤ w ∨ 65536 ≤ h → assemble (.draw w h) = none)) ∧
  (∀ (l : AsmLine) (i : Instr), assemble l = some i →
    decode .cmd80 (encode i) = .instr i ∧
    ∃ d : Descriptor, encode i = descBytes d ∧ decodeCmd d = i ∧
      (descSel d ≠ 0 → descOpsel d = 0 ∧ descC d = 0 ∧ descD d = 0) ∧
      (descSel d ≠ 0 → descSel d ≠ 7 → descA d = 0 ∧ descB d = 0) ∧
      (descSel d ≠ 5 → descLevel d = 0) ∧ (descSel d ≠ 6 → descOrient d = 0))

/-! ## Pixels and sizes -/

/-- R111: the conversion, as integers and as the three fields that do not overlap. -/
def Obligations.Rgb565Value : Prop :=
  ∀ p : Pixel,
    (rgb565 p).toNat = ((p.r8.toNat >>> 3) <<< 11) ||| ((p.g8.toNat >>> 2) <<< 5) ||| (p.b8.toNat >>> 3) ∧
    (rgb565 p).extractLsb' 11 5 = p.r8.extractLsb' 3 5 ∧
    (rgb565 p).extractLsb' 5 6 = p.g8.extractLsb' 2 6 ∧
    (rgb565 p).extractLsb' 0 5 = p.b8.extractLsb' 3 5

/-- R64: the two wire bytes of a pixel, low byte of the value first, and that the pixel row encodes the same two. -/
def Obligations.PixelWireBytes : Prop :=
  ∀ p : Pixel,
    serLE16 (rgb565 p) =
      [p.g8.extractLsb' 2 3 ++ p.b8.extractLsb' 3 5, p.r8.extractLsb' 3 5 ++ p.g8.extractLsb' 5 3] ∧
    encode (pixelInstr p) = serLE16 (rgb565 p)

/-- R113 (c), (d): two colours collide exactly when their kept bits agree; red 0 and red 4 do. -/
def Obligations.Rgb565Collisions : Prop :=
  (∀ p q : Pixel, rgb565 p = rgb565 q ↔ p.r8 >>> 3 = q.r8 >>> 3 ∧ p.g8 >>> 2 = q.g8 >>> 2 ∧ p.b8 >>> 3 = q.b8 >>> 3) ∧
  (∀ g b : Byte, rgb565 ⟨0, g, b⟩ = rgb565 ⟨4, g, b⟩)

/-- R110 and R120: the sizes that pass the check, and the four degenerate ones. -/
def Obligations.SizeCheck : Prop :=
  ∀ w h : Dim,
    (sizeOk w h = true ↔ (w = 320 ∨ h = 480) ∨ (w = 480 ∨ h = 320)) ∧
    (sizeOk w h = false ↔ ((w ≠ 320 ∧ w ≠ 480) ∧ (h ≠ 320 ∧ h ≠ 480))) ∧
    (degenerate w h = true ↔ (w = 0 ∧ h = 480) ∨ (w = 0 ∧ h = 320) ∨ (w = 320 ∧ h = 0) ∨ (w = 480 ∧ h = 0))

/-- R117: no arithmetic of the streamer overflows. NPIX is exact, a chunk's CLEN is exact, and so are the last indexes; PIXI
grows by exactly the pixels of the chunk sent and never passes NPIX, both for a chunk filled in one go and, under the invariant,
where a chunk stands at SEND_CHUNK; and CLEN + 2 at FILL is exact. -/
def Obligations.StreamerNeverOverflows : Prop :=
  (∀ s : State, (beginPayload s).npix.toNat = s.w.toNat * s.h.toNat ∧ s.w.toNat * s.h.toNat ≤ 4294836225 ∧
    (fillChunk s).clen.toNat = 2 * chunkPixels s ∧ chunkPixels s ≤ 8 * s.w.toNat ∧ 8 * s.w.toNat ≤ 524280 ∧
    2 * chunkPixels s ≤ 1048560) ∧
  (∀ d : Dim, d ≠ 0 → (lastIndex d).toNat = d.toNat - 1) ∧
  (∀ h : Dim, h.toNat / 8 ≤ 8191 ∧ chunkCount h ≤ 8192) ∧
  (∀ s : State, s.pixi.toNat ≤ s.npix.toNat →
    (advancePixi (fillChunk s)).pixi.toNat = s.pixi.toNat + chunkPixels s ∧
    s.pixi.toNat + chunkPixels s ≤ s.npix.toNat) ∧
  (∀ s : State, MachineInv s → s.phase = .busy → s.seq = .sendChunk →
    (advancePixi s).pixi.toNat = s.pixi.toNat + s.clen.toNat / 2 ∧ s.pixi.toNat + s.clen.toNat / 2 ≤ s.npix.toNat) ∧
  (∀ (s : State) (p : BitVec 16), MachineInv s → s.phase = .busy → s.seq = .fill →
    (fillPixel p s).clen.toNat = s.clen.toNat + 2 ∧ s.clen.toNat + 2 ≤ 2 * chunkPixels s)

/-! ## Commands of one frame -/

/-- R95, R45, R204, R27: REGION latches its operands, writes one frame of six bytes and completes; with R74 its opcode is the
ROM's. One step is log 3, an unanswered write log 6, the field kind log 8, FB[6..10] log 14. -/
def Obligations.RegionRuns : Prop :=
  (∀ (op : Opcode) (x y ex ey : Coord),
    OneFrameCommand (.region op x y ex ey) .region (fun s => { s with x := x, y := y, ex := ex, ey := ey, opc := op.wire })
      (regionFrame x y ex ey op.wire)) ∧
  (∀ d : Descriptor, descSel d = 0 →
    decodeCmd d = .region (Opcode.ofTag (descOpsel d)) (descA d) (descB d) (descC d) (descD d)) ∧
  regionFrame 10 20 109 219 197 = [2, 129, 65, 180, 219, 197]

/-- R141, R140, R45, R204: CLEAR from every IDLE state. One step is log 3, an unanswered write log 6, the field kind log 8,
FB[6..10] log 14. -/
def Obligations.ClearRuns : Prop :=
  OneFrameCommand .clear .region (fun s => { s with x := 0, y := 0, ex := 0, ey := 0, opc := 102 }) [0, 0, 0, 0, 0, 102] ∧
  ∀ d : Descriptor, descSel d = 1 → decodeCmd d = .clear

/-- R142, R140, R45, R204: TO_BLACK from every IDLE state. One step is log 3, an unanswered write log 6, the field kind log 8,
FB[6..10] log 14. -/
def Obligations.ToBlackRuns : Prop :=
  OneFrameCommand .toBlack .region (fun s => { s with x := 0, y := 0, ex := 0, ey := 0, opc := 103 }) [0, 0, 0, 0, 0, 103] ∧
  ∀ d : Descriptor, descSel d = 2 → decodeCmd d = .toBlack

/-- R143, R140, R45, R204: SCREEN_OFF from every IDLE state. One step is log 3, an unanswered write log 6, the field kind log 8,
FB[6..10] log 14. -/
def Obligations.ScreenOffRuns : Prop :=
  OneFrameCommand .screenOff .region (fun s => { s with x := 0, y := 0, ex := 0, ey := 0, opc := 108 }) [0, 0, 0, 0, 0, 108] ∧
  ∀ d : Descriptor, descSel d = 3 → decodeCmd d = .screenOff

/-- R144, R140, R45, R204: SCREEN_ON from every IDLE state. One step is log 3, an unanswered write log 6, the field kind log 8,
FB[6..10] log 14. -/
def Obligations.ScreenOnRuns : Prop :=
  OneFrameCommand .screenOn .region (fun s => { s with x := 0, y := 0, ex := 0, ey := 0, opc := 109 }) [0, 0, 0, 0, 0, 109] ∧
  ∀ d : Descriptor, descSel d = 4 → decodeCmd d = .screenOn

/-- R145, R140, R45, R204: SET_BRIGHTNESS latches LVL and X = 255 - LVL and packs X into the frame; different levels give
different frames, and the inverse of R92 reads 255 - level from the frame. Y = EX = EY = 0 is the spec's own decision D8. One
step is log 3, an unanswered write log 6, the field kind log 8, FB[6..10] log 14. -/
def Obligations.SetBrightnessRuns : Prop :=
  (∀ level : Byte,
    OneFrameCommand (.setBrightness level) .region
      (fun s => { s with x := BitVec.ofNat 16 (255 - level.toNat), y := 0, ex := 0, ey := 0, opc := 110, lvl := level })
      [BitVec.ofNat 8 ((255 - level.toNat) >>> 2), BitVec.ofNat 8 (((255 - level.toNat) &&& 3) <<< 6), 0, 0, 0, 110]) ∧
  (∀ d : Descriptor, descSel d = 5 → decodeCmd d = .setBrightness (descLevel d)) ∧
  (∀ l m : Byte, regionFrame (brightnessX l) 0 0 0 110 = regionFrame (brightnessX m) 0 0 0 110 → l = m) ∧
  (∀ l f0 f1 f2 f3 f4 f5 : Byte, regionFrame (brightnessX l) 0 0 0 110 = [f0, f1, f2, f3, f4, f5] →
    (((f0.setWidth 16 <<< 2) ||| (f1 >>> 6).setWidth 16 : Coord)).toNat = 255 - l.toNat)

/-- R146, R93, R140, R45, R204: SET_ORIENTATION latches ORI and writes the eleven bytes of the template in one write. One step
is log 3, an unanswered write log 6, the field kind log 8. -/
def Obligations.SetOrientationRuns : Prop :=
  (∀ o : Orientation,
    OneFrameCommand (.setOrientation o) .orientation (fun s => { s with ori := o.code, opc := 121 })
      [0, 0, 0, 0, 0, 121, BitVec.ofNat 8 (100 + o.code.toNat), 3, 200, 4, 0]) ∧
  (∀ d : Descriptor, descSel d = 6 → ∃ o, decodeCmd d = .setOrientation o ∧ o.code = descOrient d)

/-- R77: five commands equal a REGION in everything but the recorded Accept and, for SET_BRIGHTNESS, the latch LVL. -/
def Obligations.CommandsEqualToRegion : Prop :=
  ∀ s : State, s.phase = .idle → ∀ i j : Instr,
    ((i = .clear ∧ j = .region .clear 0 0 0 0) ∨ (i = .toBlack ∧ j = .region .toBlack 0 0 0 0) ∨
     (i = .screenOff ∧ j = .region .screenOff 0 0 0 0) ∨ (i = .screenOn ∧ j = .region .screenOn 0 0 0 0) ∨
     ∃ l : Byte, i = .setBrightness l ∧ j = .region .setBrightness (BitVec.ofNat 16 (255 - l.toNat)) 0 0 0) →
    ∃ t u, exec i s = .next t ∧ exec j s = .next u ∧
      { t with events := [], lvl := 0 } = { u with events := [], lvl := 0 } ∧
      writesOf t.events = writesOf u.events ∧ resultsOf t.events = resultsOf u.events

/-- R26: a command offered while BUSY is not accepted, and a step while BUSY takes nothing from the host but reset and
leaves PIX alone (R43, R196). -/
def Obligations.BusyIgnoresCmd : Prop :=
  (∀ (i : Instr) (s : State), i.format = .cmd80 → s.phase = .busy → exec i s = .next s) ∧
  (∀ s t : State, s.phase = .busy → resetNext s = false → step s = .next t → t.host = s.host ∧ t.pix = s.pix)

/-! ## DRAW -/

/-- R124, R163, R110: a size that fails the check: no write, no reply taken, no pixel read; only W, H, the sequencer and RESULT
change. The field kind is log 8. -/
def Obligations.DrawWrongSize : Prop :=
  ∀ (s : State) (w h : Dim), s.phase = .idle → sizeOk w h = false →
    exec (.draw w h) s = .next { s with w := w, h := h, kind := .draw, seq := .done, result := .wrongImageSize,
                                        events := s.events ++ [.accept (.draw w h), .complete .wrongImageSize] }

/-- R120: the four degenerate sizes are refused, whatever the transport would do. -/
def Obligations.DrawDegenerateRefused : Prop :=
  ∀ (s : State) (w h : Dim), s.phase = .idle →
    (exec (.draw w h) s = .refused .degenerateDraw ↔
      (w = 0 ∧ h = 480) ∨ (w = 0 ∧ h = 320) ∨ (w = 320 ∧ h = 0) ∨ (w = 480 ∧ h = 0))

/-- R121, R122, R114, R115: a DRAW that passes the check and meets only `Ok` writes the frame, the full chunks and the remainder
in order, and completes with the latches of R121: the rectangle, its frame in FB with FLEN 6, NPIX and PIXI at W * H, STEP at
DONE. That CB and CLEN still hold the last chunk is the model's reading (log 13), that all this is one step log 3, the field
kind log 8. -/
def Obligations.DrawCompletes : Prop :=
  ∀ (s : State) (w h : Dim) (ns : List Nat) (rest : List Reply), s.phase = .idle → sizeOk w h = true → w ≠ 0 → h ≠ 0 →
    s.replies = okReplies ns rest → ns.length = 1 + (h.toNat + 7) / 8 →
    (drawWrites s.pix w h).length = ns.length ∧
    ∃ t, exec (.draw w h) s = .next t ∧ t.phase = .idle ∧ t.result = .ok ∧ t.seq = .done ∧ t.kind = .draw ∧
      t.inFlight = false ∧ t.replies = rest ∧
      t.events = s.events ++ [.accept (.draw w h)] ++ okWrites (drawWrites s.pix w h) ns ++ [.complete .ok] ∧
      t.w = w ∧ t.h = h ∧ t.x = 0 ∧ t.y = 0 ∧ t.ex = w - 1 ∧ t.ey = h - 1 ∧ t.opc = 197 ∧
      t.fb.bytes.take 6 = regionFrame 0 0 (w - 1) (h - 1) 197 ∧ t.flen = 6 ∧
      t.npix.toNat = w.toNat * h.toNat ∧ t.pixi = t.npix ∧
      (drawWrites s.pix w h).getLast? = some t.cb ∧ t.clen.toNat = t.cb.length ∧
      t.lvl = s.lvl ∧ t.ori = s.ori ∧ t.pix = s.pix ∧ t.host = s.host

/-- R123, R164: if the transport answers `Ok` to the first writes and `Err` to the next, DRAW has issued exactly those writes and
completes with WRITE_ERROR; nothing more of the tape is taken. One step is log 3. -/
def Obligations.DrawFailsAtNthWrite : Prop :=
  ∀ (s : State) (w h : Dim) (ns : List Nat) (rest : List Reply), s.phase = .idle → sizeOk w h = true → w ≠ 0 → h ≠ 0 →
    s.replies = okReplies ns (.answer .err :: rest) → ns.length ≤ (h.toNat + 7) / 8 →
    ∃ t b, exec (.draw w h) s = .next t ∧ t.phase = .idle ∧ t.result = .writeError ∧ t.inFlight = false ∧ t.replies = rest ∧
      (drawWrites s.pix w h)[ns.length]? = some b ∧
      t.events = s.events ++ [.accept (.draw w h)] ++ okWrites ((drawWrites s.pix w h).take ns.length) ns ++
        [.write b .err, .complete .writeError]

/-- R204, R174, R45: a write of DRAW that the transport leaves unanswered, for this step or for good, leaves the block BUSY with
exactly that write in flight and no result. It is the frame, standing in FB, or the next payload write, standing in CB with CLEN
its length, NPIX = W * H and PIXI at its first pixel (R121). The tape of answers is log 6, the one step log 3, the field kind
log 8. -/
def Obligations.DrawWaitsForAnswer : Prop :=
  ∀ (s : State) (w h : Dim) (ns : List Nat) (tail rest : List Reply), s.phase = .idle → sizeOk w h = true → w ≠ 0 → h ≠ 0 →
    s.replies = okReplies ns tail → (tail = .pending :: rest ∨ (tail = [] ∧ rest = [])) → ns.length ≤ (h.toNat + 7) / 8 →
    ∃ t, exec (.draw w h) s = .next t ∧ t.phase = .busy ∧ t.result = s.result ∧ t.inFlight = true ∧ t.replies = rest ∧
      t.seq = (if ns = [] then .sendFrame else .sendChunk) ∧ t.kind = .draw ∧
      t.events = s.events ++ [.accept (.draw w h)] ++ okWrites ((drawWrites s.pix w h).take ns.length) ns ∧
      (drawWrites s.pix w h)[ns.length]? = some (if ns = [] then frameBytes t else t.cb) ∧
      t.w = w ∧ t.h = h ∧ t.x = 0 ∧ t.y = 0 ∧ t.ex = w - 1 ∧ t.ey = h - 1 ∧ t.opc = 197 ∧
      t.fb.bytes.take 6 = regionFrame 0 0 (w - 1) (h - 1) 197 ∧ t.flen = 6 ∧
      (ns ≠ [] → t.npix.toNat = w.toNat * h.toNat ∧ t.pixi.toNat = (ns.length - 1) * (8 * w.toNat) ∧
        t.clen.toNat = t.cb.length) ∧
      (ns = [] → t.npix = s.npix ∧ t.pixi = s.pixi ∧ t.cb = s.cb ∧ t.clen = s.clen) ∧
      t.lvl = s.lvl ∧ t.ori = s.ori ∧ t.pix = s.pix ∧ t.host = s.host

/-- DRAW's frame on every path: LVL, ORI, PIX, the host's moves and FB[6..10] are unchanged (R40, R121, R147). -/
def Obligations.DrawFrame : Prop :=
  ∀ (s t : State) (w h : Dim), exec (.draw w h) s = .next t →
    t.lvl = s.lvl ∧ t.ori = s.ori ∧ t.pix = s.pix ∧ t.host = s.host ∧ t.fb.b6 = s.fb.b6 ∧ t.fb.b7 = s.fb.b7 ∧
    t.fb.b8 = s.fb.b8 ∧ t.fb.b9 = s.fb.b9 ∧ t.fb.b10 = s.fb.b10

/-- R58, for a command that completes with OK in the step that accepts it (log 3; CommandRecordKept says it of a command that
waited): DRAW `1 + ceil(H / 8)` writes and `6 + 2 * W * H` bytes, every other
command one write of 6 bytes, or 11 for SET_ORIENTATION. -/
def Obligations.WriteTotals : Prop :=
  ∀ (s t : State) (i : Instr), s.phase = .idle → i.format = .cmd80 → exec i s = .next t → t.phase = .idle → t.result = .ok →
    ∃ es, t.events = s.events ++ es ∧
      match i with
      | .draw w h => (writesOf es).length = 1 + (h.toNat + 7) / 8 ∧ bytesWritten es = 6 + 2 * w.toNat * h.toNat
      | .setOrientation _ => (writesOf es).length = 1 ∧ bytesWritten es = 11
      | _ => (writesOf es).length = 1 ∧ bytesWritten es = 6

/-! ## Wire rows -/

/-- R60, R61, R95, R121: the eight 6-byte frame rows, each the stage SEND_FRAME with its frame. That a row is the stage is log 4, the
tape log 6, the empty first chunk log 13, FB[6..10] log 14. -/
def Obligations.RegionFramesSend : Prop :=
  ∀ x y ex ey : Coord,
    WireFrameSends (.frameReset x y ex ey) (regionFrame x y ex ey 101) ∧
    WireFrameSends (.frameClear x y ex ey) (regionFrame x y ex ey 102) ∧
    WireFrameSends (.frameToBlack x y ex ey) (regionFrame x y ex ey 103) ∧
    WireFrameSends (.frameScreenOff x y ex ey) (regionFrame x y ex ey 108) ∧
    WireFrameSends (.frameScreenOn x y ex ey) (regionFrame x y ex ey 109) ∧
    WireFrameSends (.frameSetBrightness x y ex ey) (regionFrame x y ex ey 110) ∧
    WireFrameSends (.frameSetOrientation x y ex ey) (regionFrame x y ex ey 121) ∧
    WireFrameSends (.frameDisplayBitmap x y ex ey) (regionFrame x y ex ey 197)

/-- R63, R146, R140, R27: the orientation frame row (log 4, log 6). The clause for a running DRAW (R121, the empty first chunk log 13)
holds of every state but speaks of states that no run reaches: the frame of a DRAW is never this one. -/
def Obligations.OrientationFrameSends : Prop :=
  ∀ o : Orientation,
    WireFrameSends (.frameOrient11 o) [0, 0, 0, 0, 0, 121, BitVec.ofNat 8 (100 + o.code.toNat), 3, 200, 4, 0]

/-- R64, R25: a pixel's two bytes, `gggbbbbb` then `rrrrrggg`, join CB, and a full chunk goes on to SEND_CHUNK. -/
def Obligations.PixelJoinsChunk : Prop :=
  ∀ (s : State) (r5 : BitVec 5) (g6 : BitVec 6) (b5 : BitVec 5), s.phase = .busy → s.seq = .fill →
    exec (.pixel r5 g6 b5) s =
      .next { s with cb := s.cb ++ [g6.extractLsb' 0 3 ++ b5, r5 ++ g6.extractLsb' 3 3], clen := s.clen + 2,
                     seq := if 2 * chunkPixels s ≤ s.clen.toNat + 2 then .sendChunk else .fill }

/-- The wire rows do nothing anywhere else: the block emits nothing unasked (R207; the model's choice, log 5). -/
def Obligations.WireRowsOnlyAtTheirStage : Prop :=
  ∀ (i : Instr) (s : State),
    ((i.format = .r6 ∨ i.format = .o11) ∧ ¬ (s.phase = .busy ∧ s.seq = .sendFrame)) ∨
    (i.format = .p2 ∧ ¬ (s.phase = .busy ∧ s.seq = .fill)) →
    exec i s = .next s

/-- R24, R45: a frame that waits for its answer, with a pending reply or with none to come, stays the same in FB. That the waiting
frame is a row which the sequencer executes again is log 4; that a pending entry or an exhausted tape is no answer is log 6. -/
def Obligations.WaitingFrameUnchanged : Prop :=
  ∀ (s : State) (i : Instr), s.phase = .busy → s.seq = .sendFrame → decode (frameFormat s) (frameBytes s) = .instr i →
    (∀ rest, s.replies = .pending :: rest → exec i s = .next { s with inFlight := true, replies := rest }) ∧
    (s.replies = [] → exec i s = .next { s with inFlight := true })

/-! ## The machine -/

/-- R26, R27: what a step runs. IDLE it runs the command of the descriptor on CMD, which is taken; at SEND_FRAME the frame in
FB; at FILL the next pixel of the buffer. The step adds nothing around exec.
That the wire rows are the sequencer's stages is log 4 (R12 and R27 give the block no fetch), the next pixel log 13. -/
def Obligations.StepRunsDecoded : Prop :=
  (∀ (s : State) (d : Descriptor) (rest : List HostMove) (i : Instr), s.phase = .idle → s.host = .issue d :: rest →
    decode .cmd80 (descBytes d) = .instr i → step s = exec i { s with host := rest }) ∧
  (∀ (s : State) (i : Instr), s.phase = .busy → s.seq = .sendFrame → resetNext s = false →
    decode (frameFormat s) (frameBytes s) = .instr i → step s = exec i s) ∧
  (∀ s : State, s.phase = .busy → s.seq = .fill → resetNext s = false →
    s.pixi.toNat + s.clen.toNat / 2 < s.w.toNat * s.h.toNat →
    step s = exec (pixelInstr (s.pix.read (s.pixi.toNat + s.clen.toNat / 2))) s)

/-- R114, R115, R121, R45, R27: a step of a BUSY block at SEND_CHUNK, for each kind of answer. Answered `Ok`, PIXI grows by the
chunk's pixels, and the next chunk begins empty at FILL, or nothing remains and the command completes; `Err` completes it with
WRITE_ERROR (R164); unanswered it waits, however many steps, with the same bytes in CB. That it is one step, with the chunk
whole, is log 4; the tape of answers log 6; that CB is emptied for the next chunk and kept after the last log 13. -/
def Obligations.ResumedChunkSends : Prop :=
  ∀ s : State, s.phase = .busy → s.seq = .sendChunk → resetNext s = false →
    let sent : PixIdx := s.pixi + BitVec.ofNat 32 (s.clen.toNat / 2)
    (∀ n rest, s.replies = .answer (.ok n) :: rest → sent.toNat < s.npix.toNat →
      step s = .next { s with pixi := sent, cb := [], clen := 0, seq := .fill, inFlight := false, replies := rest,
                              events := s.events ++ [.write s.cb (.ok n)] }) ∧
    (∀ n rest, s.replies = .answer (.ok n) :: rest → s.npix.toNat ≤ sent.toNat →
      step s = .next { s with phase := .idle, result := .ok, pixi := sent, seq := .done, inFlight := false, replies := rest,
                              events := s.events ++ [.write s.cb (.ok n), .complete .ok] }) ∧
    (∀ rest, s.replies = .answer .err :: rest →
      step s = .next { s with phase := .idle, result := .writeError, seq := .done, inFlight := false, replies := rest,
                              events := s.events ++ [.write s.cb .err, .complete .writeError] }) ∧
    (∀ k rest, s.replies = List.replicate (k + 1) .pending ++ rest →
      run (k + 1) s = .next { s with inFlight := true, replies := rest }) ∧
    (s.replies = [] → step s = .next { s with inFlight := true })

/-- R32: what reset leaves where the spec says it, and that the block does nothing unasked. -/
def Obligations.ResetLeaves : Prop :=
  State.reset.phase = .idle ∧ State.reset.result = .none ∧ State.reset.inFlight = false ∧ State.reset.events = [] ∧
  step State.reset = .next State.reset

/-- R190, R192: reset, also while BUSY, puts the block in its reset state; no event is produced, what was sent stays sent, and PIX
and the inputs stay the host's and the transport's. The latches' values are the model's choice (log 2, log 10). -/
def Obligations.HardwareReset : Prop :=
  ∀ (s : State) (rest : List HostMove), s.host = .reset :: rest →
    step s = .next { State.reset with pix := s.pix, host := rest, replies := s.replies, events := s.events }

/-- R195, R40: what the host fills is what the block reads, other pixels keep their values, and PIX keeps its form. -/
def Obligations.FillPixelReads : Prop :=
  ∀ (s : State) (i : Nat) (p : Pixel) (rest : List HostMove), s.phase = .idle → s.host = .putPixel i p :: rest → s.pix.wf →
    ∃ t, step s = .next t ∧ t = { s with host := rest, pix := t.pix } ∧ t.pix.wf ∧
      ∀ j, t.pix.read j = if j = i then p else s.pix.read j

/-- R40, R44: the block never writes PIX: only the host's fill changes it. -/
def Obligations.PixNeverWritten : Prop :=
  ∀ s t : State, (s.phase = .busy ∨ fillsNext s = false) → step s = .next t → t.pix = s.pix

/-- R160, R161, R26: apart from reset, every step adds events at the end, and commands accepted and results delivered balance
with the one command that may be running. -/
def Obligations.OneResultPerCommand : Prop :=
  ∀ s t : State, resetNext s = false → step s = .next t →
    ∃ es, t.events = s.events ++ es ∧
      (acceptsOf es).length + running s = (resultsOf es).length + running t

/-- R28, R161: RESULT changes only by `Complete`, whose event carries the new value, or by reset. -/
def Obligations.ResultOnlyByComplete : Prop :=
  ∀ s t : State, resetNext s = false → step s = .next t →
    ∃ es, t.events = s.events ++ es ∧
      ((resultsOf es = [] ∧ t.result = s.result) ∨ (resultsOf es = [t.result] ∧ t.result ≠ .none ∧ t.phase = .idle))

/-- R28, R162, R21: the codes of RESULT and of PHASE (the numbers are the spec's own decision, D14): each 2-bit code is one
status; after reset RESULT reads NONE and PHASE IDLE; and a result delivered has the code that RESULT then holds, never NONE's.
-/
def Obligations.ResultAndPhaseCodes : Prop :=
  Status.none.code = 0 ∧ Status.ok.code = 1 ∧ Status.wrongImageSize.code = 2 ∧ Status.writeError.code = 3 ∧
  Phase.idle.code = 0 ∧ Phase.busy.code = 1 ∧
  (∀ c : BitVec 2, ∃ st : Status, st.code = c ∧ ∀ st' : Status, st'.code = c → st' = st) ∧
  State.reset.result.code = 0 ∧ State.reset.phase.code = 0 ∧
  (∀ s t : State, resetNext s = false → step s = .next t →
    ∃ es, t.events = s.events ++ es ∧ ∀ st ∈ resultsOf es, st.code = t.result.code ∧ st.code ≠ 0)

/-- R164, R167: a write answered `Err` is the last write of its command, which completes with WRITE_ERROR at once. That no reset falls
between the two is log 19. -/
def Obligations.WriteErrorEndsCommand : Prop :=
  ∀ s t : State, step s = .next t →
    ∃ es, t.events = s.events ++ es ∧
      ∀ b, (b, .err) ∈ writesOf es →
        t.phase = .idle ∧ t.result = .writeError ∧
        ∃ pre, es = pre ++ [.write b .err, .complete .writeError] ∧ ∀ c, (c, .err) ∉ writesOf pre

/-- R47, R119: under the invariant, every write a step sees answered has one of the four lengths, and is not empty. -/
def Obligations.WriteSizes : Prop :=
  ∀ s t : State, MachineInv s → step s = .next t →
    ∃ es, t.events = s.events ++ es ∧
      ∀ b a, (b, a) ∈ writesOf es → writeSizeAllowed t.w t.h b.length ∧ b ≠ []

/-- R65: of the commands but REGION, byte 5 of the frame is 121 exactly when the frame has eleven bytes, and 197 exactly for DRAW:
whether the frame is written in the accepting step (log 3) or stands in FB unanswered (log 6). A frame that stands there is what
every later step writes, until one is answered (log 4). -/
def Obligations.FrameLengthByOpcode : Prop :=
  (∀ (s t : State) (i : Instr), s.phase = .idle → i.format = .cmd80 → (∀ op x y ex ey, i ≠ .region op x y ex ey) →
    exec i s = .next t →
    ∃ es, t.events = s.events ++ es ∧
      (∀ b a, (writesOf es).head? = some (b, a) →
        (b[5]? = some 121 ↔ b.length = 11) ∧ (b[5]? = some 197 ↔ ∃ w h, i = .draw w h)) ∧
      (t.phase = .busy → writesOf es = [] →
        t.seq = .sendFrame ∧ ((frameBytes t)[5]? = some 121 ↔ (frameBytes t).length = 11) ∧
        ((frameBytes t)[5]? = some 197 ↔ ∃ w h, i = .draw w h))) ∧
  (∀ s t : State, s.phase = .busy → s.seq = .sendFrame → resetNext s = false → step s = .next t →
    ∃ es, t.events = s.events ++ es ∧
      ((∃ a, writesOf es = [(frameBytes s, a)]) ∨
       (writesOf es = [] ∧ t.phase = .busy ∧ t.seq = .sendFrame ∧ frameBytes t = frameBytes s)))

/-- The invariant holds at reset. -/
def Obligations.ResetInv : Prop := MachineInv State.reset

/-- Every step keeps the invariant (R24, R25, R26, R27, R31, R40). -/
def Obligations.StepKeepsInv : Prop := ∀ s t : State, MachineInv s → step s = .next t → MachineInv t

/-- R58, R27, R114, R115, R123, R164: what a running command has recorded, kept by every step: its own writes in order, each answered
`Ok`, and the next of them waits or is being filled. So a command that waited and is resumed stage by stage (log 4, log 6,
log 13) completes with OK after exactly all its writes, with the totals of R58, or with WRITE_ERROR at the one that fails; no
reset falls between what decides the result and `Complete` (log 19). Reset begins with nothing recorded. -/
def Obligations.CommandRecordKept : Prop :=
  RecordInv State.reset ∧
  ∀ s t : State, MachineInv s → RecordInv s → step s = .next t →
    RecordInv t ∧
    (s.phase = .busy → resetNext s = false → t.phase = .idle →
      ∃ i pre ns es, i.format = .cmd80 ∧ t.events = pre ++ .accept i :: es ∧
        ((t.result = .ok ∧ ns.length = (commandWrites s.pix i).length ∧
            es = okWrites (commandWrites s.pix i) ns ++ [.complete .ok] ∧ commandTotals i es) ∨
         (t.result = .writeError ∧ ∃ b, (commandWrites s.pix i)[ns.length]? = some b ∧
            es = okWrites (commandWrites s.pix i) ns ++ [.write b .err, .complete .writeError])))

/-- R160, R41, R120: under the invariant a step never faults, and is refused only for a degenerate DRAW that the host issues. -/
def Obligations.NoFaultUnderInv : Prop :=
  ∀ s : State, MachineInv s →
    (∀ f, step s ≠ .fault f) ∧
    (∀ r, step s = .refused r → r = .degenerateDraw ∧ s.phase = .idle ∧
      ∃ d rest w h, s.host = .issue d :: rest ∧ decodeCmd d = .draw w h ∧ degenerate w h = true)

/-- R199: if the host avoids the four degenerate sizes, no run from a state of the invariant stops. -/
def Obligations.RunsAreSafe : Prop := ∀ s : State, MachineInv s → hostAvoidsDegenerate s → ∀ k, SafeRun k s

/-- R206, R208: from an IDLE block with no command open, whose host avoids the degenerate sizes and whose transport answers every
write at once, the host's moves run one a step to the end of the run, with one result for each command, in at most the writes of
R206. And a run that has ended has the same observation ever after. What ended means of a run of no command, or of one whose
last command was lost to a reset, is log 20; one command a step is log 3, the tape log 6, no reset before a decided result's
`Complete` log 19. -/
def Obligations.AnsweredRunsEnd : Prop :=
  (∀ s : State, s.phase = .idle → commandOpen false s.events = false → hostAvoidsDegenerate s →
    writeBounds (commandsOf s.host) ≤ s.replies.length → (∀ r ∈ s.replies, r ≠ .pending) →
    ∃ t es, run s.host.length s = .next t ∧ RunEnded t ∧ t.host = [] ∧ t.events = s.events ++ es ∧
      acceptsOf es = commandsOf s.host ∧ (resultsOf es).length = (commandsOf s.host).length ∧
      (writesOf es).length ≤ writeBounds (commandsOf s.host)) ∧
  (∀ s : State, RunEnded s → ∀ k, ∃ t, run k s = .next t ∧ RunEnded t ∧ observation t = observation s)

/-- R33, R29: no behaviour depends on a latch that the running command does not read again, nor on what earlier commands left:
states that agree outside and in the live latches step to outcomes that agree. -/
def Obligations.DeadLatchesDoNotMatter : Prop :=
  ∀ s t : State, SameOutside s t → SameLive s t → OutcomesAgree (step s) (step t)

/-- R33: so whole runs from two IDLE states that differ in latches only, such as two reset states, show the same events, results
and PHASE. -/
def Obligations.RunsIgnoreResetLatches : Prop :=
  ∀ (s t : State), s.phase = .idle → SameOutside s t → ∀ k, OutcomesAgree (run k s) (run k t)

/-- R46: the count in `Ok(n)` changes nothing but the record of the answer. -/
def Obligations.ShortWritesUnnoticed : Prop :=
  ∀ (f : Nat → Nat) (s : State), step (s.recount f) = recountOutcome f (step s)

/-- R204, R174: a block whose write is never answered stays as it is for ever, unless it is reset, and its run has not ended (R208;
log 20). The exhausted tape is log 6. -/
def Obligations.NeverAnsweredNeverEnds : Prop :=
  ∀ s : State, MachineInv s → s.phase = .busy → s.inFlight = true → s.replies = [] → resetNext s = false →
    (∀ k, run k s = .next s) ∧ ¬ RunEnded s

/-- R25, R27, R112: filling a chunk pixel by pixel, one step each, is `CB <- RangeBytes(...)`. One pixel a step is the model's
own (log 4), the next pixel log 13. -/
def Obligations.SteppedFillIsRangeBytes : Prop :=
  ∀ s : State, s.phase = .busy → s.seq = .fill → s.cb = [] → s.clen = 0 → resetNext s = false →
    s.npix.toNat = s.w.toNat * s.h.toNat → s.pixi.toNat < s.npix.toNat → s.w ≠ 0 →
    run (chunkPixels s) s = .next (fillChunk s)

/-- R27: the stepped payload and the payload in one go agree: from the beginning of a payload whose writes are all answered, some
number of steps reaches the very state that DRAW's loop ends in. The loop in one go is log 3, the
stages of the stepped one log 4 and log 13. -/
def Obligations.SteppedPayloadAgrees : Prop :=
  ∀ s : State, s.phase = .busy → s.kind = .draw → s.w ≠ 0 → s.h ≠ 0 → resetNext s = false →
    chunkCount s.h ≤ s.replies.length → (∀ r ∈ s.replies.take (chunkCount s.h), r ≠ .pending) →
    ∃ k, run k (beginPayload s) = .next (streamPixels s)
end

