-- ==== Sys2Proof/Laws/Encoding.lean ====
section
/-! SUPPORT. Small laws of the encodings: tags, codes, and the bytes of frames and descriptors. -/

namespace Sys2Proof

@[simp] theorem Opcode.ofTag_tag (op : Opcode) : Opcode.ofTag op.tag = op := by cases op <;> decide

@[simp] theorem Opcode.ofWire_wire (op : Opcode) : Opcode.ofWire op.wire = some op := by cases op <;> decide

@[simp] theorem Orientation.ofCode_code (o : Orientation) : Orientation.ofCode o.code = o := by cases o <;> decide

@[simp] theorem Orientation.code_ofCode (c : BitVec 2) : (Orientation.ofCode c).code = c := by
  revert c; decide

@[simp] theorem descBytes_length (d : Descriptor) : (descBytes d).length = 10 := rfl
@[simp] theorem r6Bytes_length (f : BitVec 48) : (r6Bytes f).length = 6 := rfl
@[simp] theorem o11Bytes_length (c : BitVec 2) : (o11Bytes c).length = 11 := rfl
@[simp] theorem pixelWire_length (r : BitVec 5) (g : BitVec 6) (b : BitVec 5) : (pixelWire r g b).length = 2 := rfl

/-- Bits are split off and put back. -/
theorem extract_append {n m k : Nat} (d : BitVec n) (h : m + k = n) :
    (d.extractLsb' k m ++ d.extractLsb' 0 k : BitVec (m + k)) = d.cast h.symm := by
  apply BitVec.eq_of_getLsbD_eq
  intro i hi
  simp only [BitVec.getLsbD_append, BitVec.getLsbD_extractLsb', BitVec.getLsbD_cast]
  by_cases hik : i < k
  · simp [hik]
  · simp [hik, show i - k < m by omega, show k + (i - k) = i by omega]

/-! ## Bytes joined and taken apart -/

/-- The six bytes of a frame number, joined, are the number. -/
theorem append_r6 (f : BitVec 48) :
    (f.extractLsb' 40 8 ++ f.extractLsb' 32 8 ++ f.extractLsb' 24 8 ++ f.extractLsb' 16 8 ++ f.extractLsb' 8 8 ++
      f.extractLsb' 0 8 : BitVec 48) = f := by
  apply BitVec.eq_of_getLsbD_eq
  intro i hi
  simp only [BitVec.getLsbD_append, BitVec.getLsbD_extractLsb']
  interval_cases i <;> simp

/-- The ten bytes of a descriptor, joined, are the descriptor. -/
theorem append_desc (d : Descriptor) :
    (d.extractLsb' 72 8 ++ d.extractLsb' 64 8 ++ d.extractLsb' 56 8 ++ d.extractLsb' 48 8 ++ d.extractLsb' 40 8 ++
      d.extractLsb' 32 8 ++ d.extractLsb' 24 8 ++ d.extractLsb' 16 8 ++ d.extractLsb' 8 8 ++ d.extractLsb' 0 8 : BitVec 80) = d := by
  apply BitVec.eq_of_getLsbD_eq
  intro i hi
  simp only [BitVec.getLsbD_append, BitVec.getLsbD_extractLsb']
  interval_cases i <;> simp

/-- Every descriptor decodes to its command. -/
theorem decode_descBytes (d : Descriptor) : decode .cmd80 (descBytes d) = .instr (decodeCmd d) := by
  simp only [descBytes, decode, append_desc]

/-- The fields of a frame number are what it was joined from. -/
theorem fields_r6 (a b c d : BitVec 10) (o : BitVec 8) :
    (a ++ b ++ c ++ d ++ o : BitVec 48).extractLsb' 38 10 = a ∧ (a ++ b ++ c ++ d ++ o : BitVec 48).extractLsb' 28 10 = b ∧
    (a ++ b ++ c ++ d ++ o : BitVec 48).extractLsb' 18 10 = c ∧ (a ++ b ++ c ++ d ++ o : BitVec 48).extractLsb' 8 10 = d ∧
    (a ++ b ++ c ++ d ++ o : BitVec 48).extractLsb' 0 8 = o := by
  refine ⟨?_, ?_, ?_, ?_, ?_⟩ <;>
  · apply BitVec.eq_of_getLsbD_eq
    intro i hi
    simp only [BitVec.getLsbD_append, BitVec.getLsbD_extractLsb']
    interval_cases i <;> simp

/-- The fields of a descriptor are what it was made of. -/
theorem fields_desc (s o : BitVec 3) (r : BitVec 2) (l : BitVec 8) (a b c d : BitVec 16) :
    descSel (descOf s o r l a b c d) = s ∧ descOpsel (descOf s o r l a b c d) = o ∧
    descOrient (descOf s o r l a b c d) = r ∧ descLevel (descOf s o r l a b c d) = l ∧
    descA (descOf s o r l a b c d) = a ∧ descB (descOf s o r l a b c d) = b ∧
    descC (descOf s o r l a b c d) = c ∧ descD (descOf s o r l a b c d) = d := by
  refine ⟨?_, ?_, ?_, ?_, ?_, ?_, ?_, ?_⟩ <;>
  · apply BitVec.eq_of_getLsbD_eq
    intro i hi
    simp only [descSel, descOpsel, descOrient, descLevel, descA, descB, descC, descD, descOf, BitVec.getLsbD_append,
      BitVec.getLsbD_extractLsb']
    interval_cases i <;> simp

/-- Byte 5 of six joined bytes. -/
theorem joined_last (b0 b1 b2 b3 b4 b5 : Byte) : (b0 ++ b1 ++ b2 ++ b3 ++ b4 ++ b5 : BitVec 48).extractLsb' 0 8 = b5 := by
  apply BitVec.eq_of_getLsbD_eq
  intro i hi
  simp only [BitVec.getLsbD_append, BitVec.getLsbD_extractLsb']
  simp [hi]

/-- An in-range coordinate has no bit above bit 9. -/
theorem coordInRange_bits {v : Coord} (h : coordInRange v = true) (i : Nat) (hi : 10 ≤ i) : v.getLsbD i = false := by
  have hv : v.toNat < 2 ^ 10 := by simp [coordInRange] at h; omega
  rw [← BitVec.testBit_toNat]
  exact Nat.testBit_lt_two_pow (lt_of_lt_of_le hv (Nat.pow_le_pow_right (by norm_num) hi))

/-- So its low ten bits are all of it. -/
theorem coordInRange_low {v : Coord} (h : coordInRange v = true) : (v.setWidth 10).setWidth 16 = v := by
  apply BitVec.eq_of_getLsbD_eq
  intro i hi
  simp only [BitVec.getLsbD_setWidth]
  by_cases h10 : i < 10
  · simp [h10, hi]
  · simp only [h10, decide_false, Bool.and_false, coordInRange_bits h i (by omega)]

/-- Ten bits make an in-range coordinate. -/
theorem coordInRange_ten (c : BitVec 10) : coordInRange (c.setWidth 16) = true := by
  have := c.isLt
  simp [coordInRange]
  omega

end Sys2Proof

namespace Sys2Proof.Machine

@[simp] theorem regionFrame_length (x y ex ey : Coord) (op : Byte) : (regionFrame x y ex ey op).length = 6 := rfl

@[simp] theorem orientFrame_length (o : BitVec 2) : (orientFrame o).length = 11 := rfl

@[simp] theorem serLE16_length (p : BitVec 16) : (serLE16 p).length = 2 := rfl

@[simp] theorem opcodeRom_tag (op : Opcode) : opcodeRom op.tag = op.wire := by simp [opcodeRom]

/-- The orientation frame of R93's function is the template of R63's table. -/
theorem orientFrame_eq_o11Bytes (o : BitVec 2) : orientFrame o = o11Bytes o := by revert o; decide

/-- A pixel row's value is the conversion of the pixel it comes from. -/
theorem packFields_pixel (p : Pixel) :
    packFields ((p.r8 >>> 3).setWidth 5) ((p.g8 >>> 2).setWidth 6) ((p.b8 >>> 3).setWidth 5) = rgb565 p := by
  obtain ⟨r, g, b⟩ := p
  apply BitVec.eq_of_getLsbD_eq
  intro i hi
  simp only [packFields, rgb565, BitVec.getLsbD_append, BitVec.getLsbD_or, BitVec.getLsbD_shiftLeft, BitVec.getLsbD_setWidth,
    BitVec.getLsbD_ushiftRight]
  interval_cases i <;> simp

end Sys2Proof.Machine
end

