-- ==== Sys2Proof/Laws/Events.lean ====
section
/-! SUPPORT. The observations of a list of events, for lists put one after the other. -/

namespace Sys2Proof.Machine

@[simp] theorem writesOf_append (a b : List Event) : writesOf (a ++ b) = writesOf a ++ writesOf b := by
  induction a with
  | nil => rfl
  | cons e a ih => cases e <;> simp [writesOf, ih]

@[simp] theorem resultsOf_append (a b : List Event) : resultsOf (a ++ b) = resultsOf a ++ resultsOf b := by
  induction a with
  | nil => rfl
  | cons e a ih => cases e <;> simp [resultsOf, ih]

@[simp] theorem acceptsOf_append (a b : List Event) : acceptsOf (a ++ b) = acceptsOf a ++ acceptsOf b := by
  induction a with
  | nil => rfl
  | cons e a ih => cases e <;> simp [acceptsOf, ih]


end Sys2Proof.Machine
end

