-- ==== Sys2Proof/Laws/Memory.lean ====
section
/-! SUPPORT. The laws of PIX: a read after a write, the canonical form, and the bytes of a range. -/

namespace Sys2Proof.Machine

/-- What indexes below the first listed one read as. -/
theorem Memory.read_below (m : Memory) (k : Nat) (h : ∀ c ∈ m, k < c.1) (j : Nat) (hj : j ≤ k) :
    Memory.read m j = unfilledComponent := by
  induction m with
  | nil => rfl
  | cons c m ih =>
    have hc := h c List.mem_cons_self
    rw [Memory.read, if_neg (by omega), ih fun d hd => h d (List.mem_cons_of_mem _ hd)]

/-- A read after a write: the value written at that index, the old one at every other. -/
theorem Memory.read_write (m : Memory) (h : Memory.wf m) (a b : Nat) (v : Byte) :
    Memory.read (Memory.write m a v) b = if b = a then v else Memory.read m b := by
  induction m with
  | nil =>
    by_cases hv : v = unfilledComponent <;> by_cases hb : b = a <;> simp [Memory.write, Memory.read, hv, hb]
  | cons c m ih =>
    obtain ⟨k, u⟩ := c
    obtain ⟨hk, hp⟩ := List.pairwise_cons.mp h.1
    have ihm := ih ⟨hp, fun c hc => h.2 c (List.mem_cons_of_mem _ hc)⟩
    have hlow : ∀ j ≤ k, Memory.read m j = unfilledComponent := Memory.read_below m k hk
    rcases Nat.lt_trichotomy a k with hak | rfl | hak
    · have ha : Memory.read m a = unfilledComponent := hlow a (by omega)
      by_cases hv : v = unfilledComponent <;> by_cases hb : b = a <;>
        simp_all [Memory.write, Memory.read, Nat.ne_of_lt]
    · have ha : Memory.read m a = unfilledComponent := hlow a (Nat.le_refl a)
      by_cases hv : v = unfilledComponent <;> by_cases hb : b = a <;> simp_all [Memory.write, Memory.read]
    · have h1 : ¬ a < k := by omega
      have h2 : a ≠ k := by omega
      by_cases hbk : b = k
      · have hb : b ≠ a := by omega
        simp [Memory.write, Memory.read, h1, h2, hbk, Ne.symm h2]
      · simp [Memory.write, Memory.read, h1, h2, hbk, ihm]

theorem Memory.write_bound (m : Memory) (a : Nat) (v : Byte) (k : Nat) (hk : k < a)
    (h : ∀ c ∈ m, k < c.1) : ∀ c ∈ Memory.write m a v, k < c.1 := by
  induction m with
  | nil => intro c hc; unfold Memory.write at hc; split_ifs at hc <;> simp_all
  | cons d m ih =>
    obtain ⟨j, u⟩ := d
    have hj : k < j := h (j, u) List.mem_cons_self
    have hm : ∀ c ∈ m, k < c.1 := fun c hc => h c (List.mem_cons_of_mem _ hc)
    have ihm := ih hm
    intro c hc
    unfold Memory.write at hc
    split_ifs at hc
    · rcases List.mem_cons.mp hc with rfl | hc <;> [exact hj; exact hm c hc]
    · rcases List.mem_cons.mp hc with rfl | hc
      · exact hk
      · rcases List.mem_cons.mp hc with rfl | hc <;> [exact hj; exact hm c hc]
    · exact hm c hc
    · rcases List.mem_cons.mp hc with rfl | hc <;> [exact hk; exact hm c hc]
    · rcases List.mem_cons.mp hc with rfl | hc <;> [exact hj; exact ihm c hc]

/-- A write keeps the canonical form. -/
theorem Memory.write_wf (m : Memory) (h : Memory.wf m) (a : Nat) (v : Byte) : Memory.wf (Memory.write m a v) := by
  induction m with
  | nil => unfold Memory.write; split_ifs with hv <;> simp [Memory.wf, hv]
  | cons c m ih =>
    obtain ⟨k, u⟩ := c
    obtain ⟨hp, hz⟩ := h
    obtain ⟨hk, hpm⟩ := List.pairwise_cons.mp hp
    have hu : u ≠ unfilledComponent := hz (k, u) List.mem_cons_self
    have hzm : ∀ c ∈ m, c.2 ≠ unfilledComponent := fun c hc => hz c (List.mem_cons_of_mem _ hc)
    unfold Memory.write
    split_ifs with h1 h2 h3 h4
    · exact ⟨hp, hz⟩
    · refine ⟨List.pairwise_cons.mpr ⟨?_, hp⟩, ?_⟩
      · intro c hc
        rcases List.mem_cons.mp hc with rfl | hc
        · exact h1
        · exact Nat.lt_trans h1 (hk c hc)
      · intro c hc
        rcases List.mem_cons.mp hc with rfl | hc <;> [exact h2; exact hz c hc]
    · exact ⟨hpm, hzm⟩
    · subst h3
      refine ⟨List.pairwise_cons.mpr ⟨hk, hpm⟩, ?_⟩
      intro c hc
      rcases List.mem_cons.mp hc with rfl | hc <;> [exact h4; exact hzm c hc]
    · obtain ⟨ihp, ihz⟩ := ih ⟨hpm, hzm⟩
      refine ⟨List.pairwise_cons.mpr ⟨Memory.write_bound m a v k (by omega) hk, ihp⟩, ?_⟩
      intro c hc
      rcases List.mem_cons.mp hc with rfl | hc <;> [exact hu; exact ihz c hc]

theorem PixMem.write_wf (m : PixMem) (h : m.wf) (i : Nat) (p : Pixel) : (m.write i p).wf :=
  ⟨Memory.write_wf _ h.1 _ _, Memory.write_wf _ h.2.1 _ _, Memory.write_wf _ h.2.2 _ _⟩

@[simp] theorem pixelBytes_length (m : PixMem) (i : Nat) : (pixelBytes m i).length = 2 := rfl

@[simp] theorem rangeBytes_length (m : PixMem) (lo n : Nat) : (rangeBytes m lo n).length = 2 * n := by
  induction n generalizing lo with
  | zero => rfl
  | succ n ih => simp [rangeBytes, ih]; omega

/-- A range is its first part followed by its second. -/
theorem rangeBytes_append (m : PixMem) (lo a b : Nat) :
    rangeBytes m lo (a + b) = rangeBytes m lo a ++ rangeBytes m (lo + a) b := by
  induction a generalizing lo with
  | zero => simp [rangeBytes]
  | succ a ih => rw [Nat.succ_add, rangeBytes, ih, rangeBytes, List.append_assoc]; congr 3; omega

end Sys2Proof.Machine
end

