-- ==== Sys2Proof/Laws/State.lean ====
section
/-! SUPPORT. What each named update of the state does to each field, so that no later proof unfolds one. -/

namespace Sys2Proof.Machine

@[simp] theorem raise_eq (st : Status) (s : State) : raise st s = complete st s := rfl

@[simp] theorem complete_phase (st : Status) (s : State) : (complete st s).phase = .idle := rfl
@[simp] theorem complete_result (st : Status) (s : State) : (complete st s).result = st := rfl
@[simp] theorem complete_x (st : Status) (s : State) : (complete st s).x = s.x := rfl
@[simp] theorem complete_y (st : Status) (s : State) : (complete st s).y = s.y := rfl
@[simp] theorem complete_ex (st : Status) (s : State) : (complete st s).ex = s.ex := rfl
@[simp] theorem complete_ey (st : Status) (s : State) : (complete st s).ey = s.ey := rfl
@[simp] theorem complete_opc (st : Status) (s : State) : (complete st s).opc = s.opc := rfl
@[simp] theorem complete_lvl (st : Status) (s : State) : (complete st s).lvl = s.lvl := rfl
@[simp] theorem complete_ori (st : Status) (s : State) : (complete st s).ori = s.ori := rfl
@[simp] theorem complete_w (st : Status) (s : State) : (complete st s).w = s.w := rfl
@[simp] theorem complete_h (st : Status) (s : State) : (complete st s).h = s.h := rfl
@[simp] theorem complete_fb (st : Status) (s : State) : (complete st s).fb = s.fb := rfl
@[simp] theorem complete_flen (st : Status) (s : State) : (complete st s).flen = s.flen := rfl
@[simp] theorem complete_npix (st : Status) (s : State) : (complete st s).npix = s.npix := rfl
@[simp] theorem complete_pixi (st : Status) (s : State) : (complete st s).pixi = s.pixi := rfl
@[simp] theorem complete_cb (st : Status) (s : State) : (complete st s).cb = s.cb := rfl
@[simp] theorem complete_clen (st : Status) (s : State) : (complete st s).clen = s.clen := rfl
@[simp] theorem complete_seq (st : Status) (s : State) : (complete st s).seq = .done := rfl
@[simp] theorem complete_kind (st : Status) (s : State) : (complete st s).kind = s.kind := rfl
@[simp] theorem complete_inFlight (st : Status) (s : State) : (complete st s).inFlight = s.inFlight := rfl
@[simp] theorem complete_pix (st : Status) (s : State) : (complete st s).pix = s.pix := rfl
@[simp] theorem complete_host (st : Status) (s : State) : (complete st s).host = s.host := rfl
@[simp] theorem complete_replies (st : Status) (s : State) : (complete st s).replies = s.replies := rfl
@[simp] theorem complete_events (st : Status) (s : State) : (complete st s).events = s.events ++ [.complete st] := rfl

@[simp] theorem accept_phase (i : Instr) (k : Kind) (q : Seq) (s : State) : (accept i k q s).phase = .busy := rfl
@[simp] theorem accept_result (i : Instr) (k : Kind) (q : Seq) (s : State) : (accept i k q s).result = s.result := rfl
@[simp] theorem accept_x (i : Instr) (k : Kind) (q : Seq) (s : State) : (accept i k q s).x = s.x := rfl
@[simp] theorem accept_y (i : Instr) (k : Kind) (q : Seq) (s : State) : (accept i k q s).y = s.y := rfl
@[simp] theorem accept_ex (i : Instr) (k : Kind) (q : Seq) (s : State) : (accept i k q s).ex = s.ex := rfl
@[simp] theorem accept_ey (i : Instr) (k : Kind) (q : Seq) (s : State) : (accept i k q s).ey = s.ey := rfl
@[simp] theorem accept_opc (i : Instr) (k : Kind) (q : Seq) (s : State) : (accept i k q s).opc = s.opc := rfl
@[simp] theorem accept_lvl (i : Instr) (k : Kind) (q : Seq) (s : State) : (accept i k q s).lvl = s.lvl := rfl
@[simp] theorem accept_ori (i : Instr) (k : Kind) (q : Seq) (s : State) : (accept i k q s).ori = s.ori := rfl
@[simp] theorem accept_w (i : Instr) (k : Kind) (q : Seq) (s : State) : (accept i k q s).w = s.w := rfl
@[simp] theorem accept_h (i : Instr) (k : Kind) (q : Seq) (s : State) : (accept i k q s).h = s.h := rfl
@[simp] theorem accept_fb (i : Instr) (k : Kind) (q : Seq) (s : State) : (accept i k q s).fb = s.fb := rfl
@[simp] theorem accept_flen (i : Instr) (k : Kind) (q : Seq) (s : State) : (accept i k q s).flen = s.flen := rfl
@[simp] theorem accept_npix (i : Instr) (k : Kind) (q : Seq) (s : State) : (accept i k q s).npix = s.npix := rfl
@[simp] theorem accept_pixi (i : Instr) (k : Kind) (q : Seq) (s : State) : (accept i k q s).pixi = s.pixi := rfl
@[simp] theorem accept_cb (i : Instr) (k : Kind) (q : Seq) (s : State) : (accept i k q s).cb = s.cb := rfl
@[simp] theorem accept_clen (i : Instr) (k : Kind) (q : Seq) (s : State) : (accept i k q s).clen = s.clen := rfl
@[simp] theorem accept_seq (i : Instr) (k : Kind) (q : Seq) (s : State) : (accept i k q s).seq = q := rfl
@[simp] theorem accept_kind (i : Instr) (k : Kind) (q : Seq) (s : State) : (accept i k q s).kind = k := rfl
@[simp] theorem accept_inFlight (i : Instr) (k : Kind) (q : Seq) (s : State) : (accept i k q s).inFlight = s.inFlight := rfl
@[simp] theorem accept_pix (i : Instr) (k : Kind) (q : Seq) (s : State) : (accept i k q s).pix = s.pix := rfl
@[simp] theorem accept_host (i : Instr) (k : Kind) (q : Seq) (s : State) : (accept i k q s).host = s.host := rfl
@[simp] theorem accept_replies (i : Instr) (k : Kind) (q : Seq) (s : State) : (accept i k q s).replies = s.replies := rfl
@[simp] theorem accept_events (i : Instr) (k : Kind) (q : Seq) (s : State) : (accept i k q s).events = s.events ++ [.accept i] := rfl

@[simp] theorem latchRegion_phase (x y ex ey : Coord) (c : Byte) (s : State) : (latchRegion x y ex ey c s).phase = s.phase := rfl
@[simp] theorem latchRegion_result (x y ex ey : Coord) (c : Byte) (s : State) : (latchRegion x y ex ey c s).result = s.result := rfl
@[simp] theorem latchRegion_x (x y ex ey : Coord) (c : Byte) (s : State) : (latchRegion x y ex ey c s).x = x := rfl
@[simp] theorem latchRegion_y (x y ex ey : Coord) (c : Byte) (s : State) : (latchRegion x y ex ey c s).y = y := rfl
@[simp] theorem latchRegion_ex (x y ex ey : Coord) (c : Byte) (s : State) : (latchRegion x y ex ey c s).ex = ex := rfl
@[simp] theorem latchRegion_ey (x y ex ey : Coord) (c : Byte) (s : State) : (latchRegion x y ex ey c s).ey = ey := rfl
@[simp] theorem latchRegion_opc (x y ex ey : Coord) (c : Byte) (s : State) : (latchRegion x y ex ey c s).opc = c := rfl
@[simp] theorem latchRegion_lvl (x y ex ey : Coord) (c : Byte) (s : State) : (latchRegion x y ex ey c s).lvl = s.lvl := rfl
@[simp] theorem latchRegion_ori (x y ex ey : Coord) (c : Byte) (s : State) : (latchRegion x y ex ey c s).ori = s.ori := rfl
@[simp] theorem latchRegion_w (x y ex ey : Coord) (c : Byte) (s : State) : (latchRegion x y ex ey c s).w = s.w := rfl
@[simp] theorem latchRegion_h (x y ex ey : Coord) (c : Byte) (s : State) : (latchRegion x y ex ey c s).h = s.h := rfl
@[simp] theorem latchRegion_fb (x y ex ey : Coord) (c : Byte) (s : State) : (latchRegion x y ex ey c s).fb = s.fb := rfl
@[simp] theorem latchRegion_flen (x y ex ey : Coord) (c : Byte) (s : State) : (latchRegion x y ex ey c s).flen = s.flen := rfl
@[simp] theorem latchRegion_npix (x y ex ey : Coord) (c : Byte) (s : State) : (latchRegion x y ex ey c s).npix = s.npix := rfl
@[simp] theorem latchRegion_pixi (x y ex ey : Coord) (c : Byte) (s : State) : (latchRegion x y ex ey c s).pixi = s.pixi := rfl
@[simp] theorem latchRegion_cb (x y ex ey : Coord) (c : Byte) (s : State) : (latchRegion x y ex ey c s).cb = s.cb := rfl
@[simp] theorem latchRegion_clen (x y ex ey : Coord) (c : Byte) (s : State) : (latchRegion x y ex ey c s).clen = s.clen := rfl
@[simp] theorem latchRegion_seq (x y ex ey : Coord) (c : Byte) (s : State) : (latchRegion x y ex ey c s).seq = s.seq := rfl
@[simp] theorem latchRegion_kind (x y ex ey : Coord) (c : Byte) (s : State) : (latchRegion x y ex ey c s).kind = s.kind := rfl
@[simp] theorem latchRegion_inFlight (x y ex ey : Coord) (c : Byte) (s : State) : (latchRegion x y ex ey c s).inFlight = s.inFlight := rfl
@[simp] theorem latchRegion_pix (x y ex ey : Coord) (c : Byte) (s : State) : (latchRegion x y ex ey c s).pix = s.pix := rfl
@[simp] theorem latchRegion_host (x y ex ey : Coord) (c : Byte) (s : State) : (latchRegion x y ex ey c s).host = s.host := rfl
@[simp] theorem latchRegion_replies (x y ex ey : Coord) (c : Byte) (s : State) : (latchRegion x y ex ey c s).replies = s.replies := rfl
@[simp] theorem latchRegion_events (x y ex ey : Coord) (c : Byte) (s : State) : (latchRegion x y ex ey c s).events = s.events := rfl

@[simp] theorem latchLevel_phase (l : Byte) (s : State) : (latchLevel l s).phase = s.phase := rfl
@[simp] theorem latchLevel_result (l : Byte) (s : State) : (latchLevel l s).result = s.result := rfl
@[simp] theorem latchLevel_x (l : Byte) (s : State) : (latchLevel l s).x = brightnessX l := rfl
@[simp] theorem latchLevel_y (l : Byte) (s : State) : (latchLevel l s).y = 0 := rfl
@[simp] theorem latchLevel_ex (l : Byte) (s : State) : (latchLevel l s).ex = 0 := rfl
@[simp] theorem latchLevel_ey (l : Byte) (s : State) : (latchLevel l s).ey = 0 := rfl
@[simp] theorem latchLevel_opc (l : Byte) (s : State) : (latchLevel l s).opc = Opcode.wire .setBrightness := rfl
@[simp] theorem latchLevel_lvl (l : Byte) (s : State) : (latchLevel l s).lvl = l := rfl
@[simp] theorem latchLevel_ori (l : Byte) (s : State) : (latchLevel l s).ori = s.ori := rfl
@[simp] theorem latchLevel_w (l : Byte) (s : State) : (latchLevel l s).w = s.w := rfl
@[simp] theorem latchLevel_h (l : Byte) (s : State) : (latchLevel l s).h = s.h := rfl
@[simp] theorem latchLevel_fb (l : Byte) (s : State) : (latchLevel l s).fb = s.fb := rfl
@[simp] theorem latchLevel_flen (l : Byte) (s : State) : (latchLevel l s).flen = s.flen := rfl
@[simp] theorem latchLevel_npix (l : Byte) (s : State) : (latchLevel l s).npix = s.npix := rfl
@[simp] theorem latchLevel_pixi (l : Byte) (s : State) : (latchLevel l s).pixi = s.pixi := rfl
@[simp] theorem latchLevel_cb (l : Byte) (s : State) : (latchLevel l s).cb = s.cb := rfl
@[simp] theorem latchLevel_clen (l : Byte) (s : State) : (latchLevel l s).clen = s.clen := rfl
@[simp] theorem latchLevel_seq (l : Byte) (s : State) : (latchLevel l s).seq = s.seq := rfl
@[simp] theorem latchLevel_kind (l : Byte) (s : State) : (latchLevel l s).kind = s.kind := rfl
@[simp] theorem latchLevel_inFlight (l : Byte) (s : State) : (latchLevel l s).inFlight = s.inFlight := rfl
@[simp] theorem latchLevel_pix (l : Byte) (s : State) : (latchLevel l s).pix = s.pix := rfl
@[simp] theorem latchLevel_host (l : Byte) (s : State) : (latchLevel l s).host = s.host := rfl
@[simp] theorem latchLevel_replies (l : Byte) (s : State) : (latchLevel l s).replies = s.replies := rfl
@[simp] theorem latchLevel_events (l : Byte) (s : State) : (latchLevel l s).events = s.events := rfl

@[simp] theorem latchOrientation_phase (o : BitVec 2) (s : State) : (latchOrientation o s).phase = s.phase := rfl
@[simp] theorem latchOrientation_result (o : BitVec 2) (s : State) : (latchOrientation o s).result = s.result := rfl
@[simp] theorem latchOrientation_x (o : BitVec 2) (s : State) : (latchOrientation o s).x = s.x := rfl
@[simp] theorem latchOrientation_y (o : BitVec 2) (s : State) : (latchOrientation o s).y = s.y := rfl
@[simp] theorem latchOrientation_ex (o : BitVec 2) (s : State) : (latchOrientation o s).ex = s.ex := rfl
@[simp] theorem latchOrientation_ey (o : BitVec 2) (s : State) : (latchOrientation o s).ey = s.ey := rfl
@[simp] theorem latchOrientation_opc (o : BitVec 2) (s : State) : (latchOrientation o s).opc = Opcode.wire .setOrientation := rfl
@[simp] theorem latchOrientation_lvl (o : BitVec 2) (s : State) : (latchOrientation o s).lvl = s.lvl := rfl
@[simp] theorem latchOrientation_ori (o : BitVec 2) (s : State) : (latchOrientation o s).ori = o := rfl
@[simp] theorem latchOrientation_w (o : BitVec 2) (s : State) : (latchOrientation o s).w = s.w := rfl
@[simp] theorem latchOrientation_h (o : BitVec 2) (s : State) : (latchOrientation o s).h = s.h := rfl
@[simp] theorem latchOrientation_fb (o : BitVec 2) (s : State) : (latchOrientation o s).fb = s.fb := rfl
@[simp] theorem latchOrientation_flen (o : BitVec 2) (s : State) : (latchOrientation o s).flen = s.flen := rfl
@[simp] theorem latchOrientation_npix (o : BitVec 2) (s : State) : (latchOrientation o s).npix = s.npix := rfl
@[simp] theorem latchOrientation_pixi (o : BitVec 2) (s : State) : (latchOrientation o s).pixi = s.pixi := rfl
@[simp] theorem latchOrientation_cb (o : BitVec 2) (s : State) : (latchOrientation o s).cb = s.cb := rfl
@[simp] theorem latchOrientation_clen (o : BitVec 2) (s : State) : (latchOrientation o s).clen = s.clen := rfl
@[simp] theorem latchOrientation_seq (o : BitVec 2) (s : State) : (latchOrientation o s).seq = s.seq := rfl
@[simp] theorem latchOrientation_kind (o : BitVec 2) (s : State) : (latchOrientation o s).kind = s.kind := rfl
@[simp] theorem latchOrientation_inFlight (o : BitVec 2) (s : State) : (latchOrientation o s).inFlight = s.inFlight := rfl
@[simp] theorem latchOrientation_pix (o : BitVec 2) (s : State) : (latchOrientation o s).pix = s.pix := rfl
@[simp] theorem latchOrientation_host (o : BitVec 2) (s : State) : (latchOrientation o s).host = s.host := rfl
@[simp] theorem latchOrientation_replies (o : BitVec 2) (s : State) : (latchOrientation o s).replies = s.replies := rfl
@[simp] theorem latchOrientation_events (o : BitVec 2) (s : State) : (latchOrientation o s).events = s.events := rfl

@[simp] theorem latchSize_phase (w h : Dim) (s : State) : (latchSize w h s).phase = s.phase := rfl
@[simp] theorem latchSize_result (w h : Dim) (s : State) : (latchSize w h s).result = s.result := rfl
@[simp] theorem latchSize_x (w h : Dim) (s : State) : (latchSize w h s).x = s.x := rfl
@[simp] theorem latchSize_y (w h : Dim) (s : State) : (latchSize w h s).y = s.y := rfl
@[simp] theorem latchSize_ex (w h : Dim) (s : State) : (latchSize w h s).ex = s.ex := rfl
@[simp] theorem latchSize_ey (w h : Dim) (s : State) : (latchSize w h s).ey = s.ey := rfl
@[simp] theorem latchSize_opc (w h : Dim) (s : State) : (latchSize w h s).opc = s.opc := rfl
@[simp] theorem latchSize_lvl (w h : Dim) (s : State) : (latchSize w h s).lvl = s.lvl := rfl
@[simp] theorem latchSize_ori (w h : Dim) (s : State) : (latchSize w h s).ori = s.ori := rfl
@[simp] theorem latchSize_w (w h : Dim) (s : State) : (latchSize w h s).w = w := rfl
@[simp] theorem latchSize_h (w h : Dim) (s : State) : (latchSize w h s).h = h := rfl
@[simp] theorem latchSize_fb (w h : Dim) (s : State) : (latchSize w h s).fb = s.fb := rfl
@[simp] theorem latchSize_flen (w h : Dim) (s : State) : (latchSize w h s).flen = s.flen := rfl
@[simp] theorem latchSize_npix (w h : Dim) (s : State) : (latchSize w h s).npix = s.npix := rfl
@[simp] theorem latchSize_pixi (w h : Dim) (s : State) : (latchSize w h s).pixi = s.pixi := rfl
@[simp] theorem latchSize_cb (w h : Dim) (s : State) : (latchSize w h s).cb = s.cb := rfl
@[simp] theorem latchSize_clen (w h : Dim) (s : State) : (latchSize w h s).clen = s.clen := rfl
@[simp] theorem latchSize_seq (w h : Dim) (s : State) : (latchSize w h s).seq = s.seq := rfl
@[simp] theorem latchSize_kind (w h : Dim) (s : State) : (latchSize w h s).kind = s.kind := rfl
@[simp] theorem latchSize_inFlight (w h : Dim) (s : State) : (latchSize w h s).inFlight = s.inFlight := rfl
@[simp] theorem latchSize_pix (w h : Dim) (s : State) : (latchSize w h s).pix = s.pix := rfl
@[simp] theorem latchSize_host (w h : Dim) (s : State) : (latchSize w h s).host = s.host := rfl
@[simp] theorem latchSize_replies (w h : Dim) (s : State) : (latchSize w h s).replies = s.replies := rfl
@[simp] theorem latchSize_events (w h : Dim) (s : State) : (latchSize w h s).events = s.events := rfl

@[simp] theorem loadFrame_phase (f : List Byte) (s : State) : (loadFrame f s).phase = s.phase := rfl
@[simp] theorem loadFrame_result (f : List Byte) (s : State) : (loadFrame f s).result = s.result := rfl
@[simp] theorem loadFrame_x (f : List Byte) (s : State) : (loadFrame f s).x = s.x := rfl
@[simp] theorem loadFrame_y (f : List Byte) (s : State) : (loadFrame f s).y = s.y := rfl
@[simp] theorem loadFrame_ex (f : List Byte) (s : State) : (loadFrame f s).ex = s.ex := rfl
@[simp] theorem loadFrame_ey (f : List Byte) (s : State) : (loadFrame f s).ey = s.ey := rfl
@[simp] theorem loadFrame_opc (f : List Byte) (s : State) : (loadFrame f s).opc = s.opc := rfl
@[simp] theorem loadFrame_lvl (f : List Byte) (s : State) : (loadFrame f s).lvl = s.lvl := rfl
@[simp] theorem loadFrame_ori (f : List Byte) (s : State) : (loadFrame f s).ori = s.ori := rfl
@[simp] theorem loadFrame_w (f : List Byte) (s : State) : (loadFrame f s).w = s.w := rfl
@[simp] theorem loadFrame_h (f : List Byte) (s : State) : (loadFrame f s).h = s.h := rfl
@[simp] theorem loadFrame_fb (f : List Byte) (s : State) : (loadFrame f s).fb = s.fb.load f := rfl
@[simp] theorem loadFrame_flen (f : List Byte) (s : State) : (loadFrame f s).flen = BitVec.ofNat 4 f.length := rfl
@[simp] theorem loadFrame_npix (f : List Byte) (s : State) : (loadFrame f s).npix = s.npix := rfl
@[simp] theorem loadFrame_pixi (f : List Byte) (s : State) : (loadFrame f s).pixi = s.pixi := rfl
@[simp] theorem loadFrame_cb (f : List Byte) (s : State) : (loadFrame f s).cb = s.cb := rfl
@[simp] theorem loadFrame_clen (f : List Byte) (s : State) : (loadFrame f s).clen = s.clen := rfl
@[simp] theorem loadFrame_seq (f : List Byte) (s : State) : (loadFrame f s).seq = .sendFrame := rfl
@[simp] theorem loadFrame_kind (f : List Byte) (s : State) : (loadFrame f s).kind = s.kind := rfl
@[simp] theorem loadFrame_inFlight (f : List Byte) (s : State) : (loadFrame f s).inFlight = s.inFlight := rfl
@[simp] theorem loadFrame_pix (f : List Byte) (s : State) : (loadFrame f s).pix = s.pix := rfl
@[simp] theorem loadFrame_host (f : List Byte) (s : State) : (loadFrame f s).host = s.host := rfl
@[simp] theorem loadFrame_replies (f : List Byte) (s : State) : (loadFrame f s).replies = s.replies := rfl
@[simp] theorem loadFrame_events (f : List Byte) (s : State) : (loadFrame f s).events = s.events := rfl

@[simp] theorem beginPayload_phase (s : State) : (beginPayload s).phase = s.phase := rfl
@[simp] theorem beginPayload_result (s : State) : (beginPayload s).result = s.result := rfl
@[simp] theorem beginPayload_x (s : State) : (beginPayload s).x = s.x := rfl
@[simp] theorem beginPayload_y (s : State) : (beginPayload s).y = s.y := rfl
@[simp] theorem beginPayload_ex (s : State) : (beginPayload s).ex = s.ex := rfl
@[simp] theorem beginPayload_ey (s : State) : (beginPayload s).ey = s.ey := rfl
@[simp] theorem beginPayload_opc (s : State) : (beginPayload s).opc = s.opc := rfl
@[simp] theorem beginPayload_lvl (s : State) : (beginPayload s).lvl = s.lvl := rfl
@[simp] theorem beginPayload_ori (s : State) : (beginPayload s).ori = s.ori := rfl
@[simp] theorem beginPayload_w (s : State) : (beginPayload s).w = s.w := rfl
@[simp] theorem beginPayload_h (s : State) : (beginPayload s).h = s.h := rfl
@[simp] theorem beginPayload_fb (s : State) : (beginPayload s).fb = s.fb := rfl
@[simp] theorem beginPayload_flen (s : State) : (beginPayload s).flen = s.flen := rfl
@[simp] theorem beginPayload_npix (s : State) : (beginPayload s).npix = s.w.setWidth 32 * s.h.setWidth 32 := rfl
@[simp] theorem beginPayload_pixi (s : State) : (beginPayload s).pixi = 0 := rfl
@[simp] theorem beginPayload_cb (s : State) : (beginPayload s).cb = [] := rfl
@[simp] theorem beginPayload_clen (s : State) : (beginPayload s).clen = 0 := rfl
@[simp] theorem beginPayload_seq (s : State) : (beginPayload s).seq = .fill := rfl
@[simp] theorem beginPayload_kind (s : State) : (beginPayload s).kind = s.kind := rfl
@[simp] theorem beginPayload_inFlight (s : State) : (beginPayload s).inFlight = s.inFlight := rfl
@[simp] theorem beginPayload_pix (s : State) : (beginPayload s).pix = s.pix := rfl
@[simp] theorem beginPayload_host (s : State) : (beginPayload s).host = s.host := rfl
@[simp] theorem beginPayload_replies (s : State) : (beginPayload s).replies = s.replies := rfl
@[simp] theorem beginPayload_events (s : State) : (beginPayload s).events = s.events := rfl

@[simp] theorem fillChunk_phase (s : State) : (fillChunk s).phase = s.phase := rfl
@[simp] theorem fillChunk_result (s : State) : (fillChunk s).result = s.result := rfl
@[simp] theorem fillChunk_x (s : State) : (fillChunk s).x = s.x := rfl
@[simp] theorem fillChunk_y (s : State) : (fillChunk s).y = s.y := rfl
@[simp] theorem fillChunk_ex (s : State) : (fillChunk s).ex = s.ex := rfl
@[simp] theorem fillChunk_ey (s : State) : (fillChunk s).ey = s.ey := rfl
@[simp] theorem fillChunk_opc (s : State) : (fillChunk s).opc = s.opc := rfl
@[simp] theorem fillChunk_lvl (s : State) : (fillChunk s).lvl = s.lvl := rfl
@[simp] theorem fillChunk_ori (s : State) : (fillChunk s).ori = s.ori := rfl
@[simp] theorem fillChunk_w (s : State) : (fillChunk s).w = s.w := rfl
@[simp] theorem fillChunk_h (s : State) : (fillChunk s).h = s.h := rfl
@[simp] theorem fillChunk_fb (s : State) : (fillChunk s).fb = s.fb := rfl
@[simp] theorem fillChunk_flen (s : State) : (fillChunk s).flen = s.flen := rfl
@[simp] theorem fillChunk_npix (s : State) : (fillChunk s).npix = s.npix := rfl
@[simp] theorem fillChunk_pixi (s : State) : (fillChunk s).pixi = s.pixi := rfl
@[simp] theorem fillChunk_cb (s : State) : (fillChunk s).cb = rangeBytes s.pix s.pixi.toNat (chunkPixels s) := rfl
@[simp] theorem fillChunk_clen (s : State) : (fillChunk s).clen = BitVec.ofNat 21 (2 * chunkPixels s) := rfl
@[simp] theorem fillChunk_seq (s : State) : (fillChunk s).seq = .sendChunk := rfl
@[simp] theorem fillChunk_kind (s : State) : (fillChunk s).kind = s.kind := rfl
@[simp] theorem fillChunk_inFlight (s : State) : (fillChunk s).inFlight = s.inFlight := rfl
@[simp] theorem fillChunk_pix (s : State) : (fillChunk s).pix = s.pix := rfl
@[simp] theorem fillChunk_host (s : State) : (fillChunk s).host = s.host := rfl
@[simp] theorem fillChunk_replies (s : State) : (fillChunk s).replies = s.replies := rfl
@[simp] theorem fillChunk_events (s : State) : (fillChunk s).events = s.events := rfl

@[simp] theorem fillPixel_phase (p : BitVec 16) (s : State) : (fillPixel p s).phase = s.phase := rfl
@[simp] theorem fillPixel_result (p : BitVec 16) (s : State) : (fillPixel p s).result = s.result := rfl
@[simp] theorem fillPixel_x (p : BitVec 16) (s : State) : (fillPixel p s).x = s.x := rfl
@[simp] theorem fillPixel_y (p : BitVec 16) (s : State) : (fillPixel p s).y = s.y := rfl
@[simp] theorem fillPixel_ex (p : BitVec 16) (s : State) : (fillPixel p s).ex = s.ex := rfl
@[simp] theorem fillPixel_ey (p : BitVec 16) (s : State) : (fillPixel p s).ey = s.ey := rfl
@[simp] theorem fillPixel_opc (p : BitVec 16) (s : State) : (fillPixel p s).opc = s.opc := rfl
@[simp] theorem fillPixel_lvl (p : BitVec 16) (s : State) : (fillPixel p s).lvl = s.lvl := rfl
@[simp] theorem fillPixel_ori (p : BitVec 16) (s : State) : (fillPixel p s).ori = s.ori := rfl
@[simp] theorem fillPixel_w (p : BitVec 16) (s : State) : (fillPixel p s).w = s.w := rfl
@[simp] theorem fillPixel_h (p : BitVec 16) (s : State) : (fillPixel p s).h = s.h := rfl
@[simp] theorem fillPixel_fb (p : BitVec 16) (s : State) : (fillPixel p s).fb = s.fb := rfl
@[simp] theorem fillPixel_flen (p : BitVec 16) (s : State) : (fillPixel p s).flen = s.flen := rfl
@[simp] theorem fillPixel_npix (p : BitVec 16) (s : State) : (fillPixel p s).npix = s.npix := rfl
@[simp] theorem fillPixel_pixi (p : BitVec 16) (s : State) : (fillPixel p s).pixi = s.pixi := rfl
@[simp] theorem fillPixel_cb (p : BitVec 16) (s : State) : (fillPixel p s).cb = s.cb ++ serLE16 p := rfl
@[simp] theorem fillPixel_clen (p : BitVec 16) (s : State) : (fillPixel p s).clen = s.clen + 2 := rfl
@[simp] theorem fillPixel_seq (p : BitVec 16) (s : State) : (fillPixel p s).seq = (if 2 * chunkPixels s ≤ s.clen.toNat + 2 then .sendChunk else .fill) := rfl
@[simp] theorem fillPixel_kind (p : BitVec 16) (s : State) : (fillPixel p s).kind = s.kind := rfl
@[simp] theorem fillPixel_inFlight (p : BitVec 16) (s : State) : (fillPixel p s).inFlight = s.inFlight := rfl
@[simp] theorem fillPixel_pix (p : BitVec 16) (s : State) : (fillPixel p s).pix = s.pix := rfl
@[simp] theorem fillPixel_host (p : BitVec 16) (s : State) : (fillPixel p s).host = s.host := rfl
@[simp] theorem fillPixel_replies (p : BitVec 16) (s : State) : (fillPixel p s).replies = s.replies := rfl
@[simp] theorem fillPixel_events (p : BitVec 16) (s : State) : (fillPixel p s).events = s.events := rfl

@[simp] theorem advancePixi_phase (s : State) : (advancePixi s).phase = s.phase := rfl
@[simp] theorem advancePixi_result (s : State) : (advancePixi s).result = s.result := rfl
@[simp] theorem advancePixi_x (s : State) : (advancePixi s).x = s.x := rfl
@[simp] theorem advancePixi_y (s : State) : (advancePixi s).y = s.y := rfl
@[simp] theorem advancePixi_ex (s : State) : (advancePixi s).ex = s.ex := rfl
@[simp] theorem advancePixi_ey (s : State) : (advancePixi s).ey = s.ey := rfl
@[simp] theorem advancePixi_opc (s : State) : (advancePixi s).opc = s.opc := rfl
@[simp] theorem advancePixi_lvl (s : State) : (advancePixi s).lvl = s.lvl := rfl
@[simp] theorem advancePixi_ori (s : State) : (advancePixi s).ori = s.ori := rfl
@[simp] theorem advancePixi_w (s : State) : (advancePixi s).w = s.w := rfl
@[simp] theorem advancePixi_h (s : State) : (advancePixi s).h = s.h := rfl
@[simp] theorem advancePixi_fb (s : State) : (advancePixi s).fb = s.fb := rfl
@[simp] theorem advancePixi_flen (s : State) : (advancePixi s).flen = s.flen := rfl
@[simp] theorem advancePixi_npix (s : State) : (advancePixi s).npix = s.npix := rfl
@[simp] theorem advancePixi_pixi (s : State) : (advancePixi s).pixi = s.pixi + BitVec.ofNat 32 (s.clen.toNat / 2) := rfl
@[simp] theorem advancePixi_cb (s : State) : (advancePixi s).cb = s.cb := rfl
@[simp] theorem advancePixi_clen (s : State) : (advancePixi s).clen = s.clen := rfl
@[simp] theorem advancePixi_seq (s : State) : (advancePixi s).seq = s.seq := rfl
@[simp] theorem advancePixi_kind (s : State) : (advancePixi s).kind = s.kind := rfl
@[simp] theorem advancePixi_inFlight (s : State) : (advancePixi s).inFlight = s.inFlight := rfl
@[simp] theorem advancePixi_pix (s : State) : (advancePixi s).pix = s.pix := rfl
@[simp] theorem advancePixi_host (s : State) : (advancePixi s).host = s.host := rfl
@[simp] theorem advancePixi_replies (s : State) : (advancePixi s).replies = s.replies := rfl
@[simp] theorem advancePixi_events (s : State) : (advancePixi s).events = s.events := rfl

@[simp] theorem hardReset_phase (s : State) : (hardReset s).phase = State.reset.phase := rfl
@[simp] theorem hardReset_result (s : State) : (hardReset s).result = State.reset.result := rfl
@[simp] theorem hardReset_x (s : State) : (hardReset s).x = State.reset.x := rfl
@[simp] theorem hardReset_y (s : State) : (hardReset s).y = State.reset.y := rfl
@[simp] theorem hardReset_ex (s : State) : (hardReset s).ex = State.reset.ex := rfl
@[simp] theorem hardReset_ey (s : State) : (hardReset s).ey = State.reset.ey := rfl
@[simp] theorem hardReset_opc (s : State) : (hardReset s).opc = State.reset.opc := rfl
@[simp] theorem hardReset_lvl (s : State) : (hardReset s).lvl = State.reset.lvl := rfl
@[simp] theorem hardReset_ori (s : State) : (hardReset s).ori = State.reset.ori := rfl
@[simp] theorem hardReset_w (s : State) : (hardReset s).w = State.reset.w := rfl
@[simp] theorem hardReset_h (s : State) : (hardReset s).h = State.reset.h := rfl
@[simp] theorem hardReset_fb (s : State) : (hardReset s).fb = State.reset.fb := rfl
@[simp] theorem hardReset_flen (s : State) : (hardReset s).flen = State.reset.flen := rfl
@[simp] theorem hardReset_npix (s : State) : (hardReset s).npix = State.reset.npix := rfl
@[simp] theorem hardReset_pixi (s : State) : (hardReset s).pixi = State.reset.pixi := rfl
@[simp] theorem hardReset_cb (s : State) : (hardReset s).cb = State.reset.cb := rfl
@[simp] theorem hardReset_clen (s : State) : (hardReset s).clen = State.reset.clen := rfl
@[simp] theorem hardReset_seq (s : State) : (hardReset s).seq = State.reset.seq := rfl
@[simp] theorem hardReset_kind (s : State) : (hardReset s).kind = State.reset.kind := rfl
@[simp] theorem hardReset_inFlight (s : State) : (hardReset s).inFlight = State.reset.inFlight := rfl
@[simp] theorem hardReset_pix (s : State) : (hardReset s).pix = s.pix := rfl
@[simp] theorem hardReset_host (s : State) : (hardReset s).host = s.host := rfl
@[simp] theorem hardReset_replies (s : State) : (hardReset s).replies = s.replies := rfl
@[simp] theorem hardReset_events (s : State) : (hardReset s).events = s.events := rfl

end Sys2Proof.Machine
end

