-- ==== Sys2Proof/Laws/Ops.lean ====
section
/-! SUPPORT. One law for each shared operation, saying everything it can do; later proofs cite these instead of unfolding. -/

namespace Sys2Proof.Machine

/-! ## The write primitive -/

theorem txWrite_ok (bs : List Byte) (f : State → State) (s : State) (n : Nat) (rest : List Reply)
    (h : s.replies = .answer (.ok n) :: rest) :
    txWrite bs f s = f { s with replies := rest, inFlight := false, events := s.events ++ [.write bs (.ok n)] } := by
  simp [txWrite, h]

theorem txWrite_err (bs : List Byte) (f : State → State) (s : State) (rest : List Reply)
    (h : s.replies = .answer .err :: rest) :
    txWrite bs f s =
      complete .writeError { s with replies := rest, inFlight := false, events := s.events ++ [.write bs .err] } := by
  simp [txWrite, h]

theorem txWrite_pending (bs : List Byte) (f : State → State) (s : State) (rest : List Reply)
    (h : s.replies = .pending :: rest) : txWrite bs f s = { s with replies := rest, inFlight := true } := by
  simp [txWrite, h]

theorem txWrite_nil (bs : List Byte) (f : State → State) (s : State) (h : s.replies = []) :
    txWrite bs f s = { s with inFlight := true } := by
  simp [txWrite, h]

/-- Everything a write can do: answered Ok, answered Err, or left in flight. -/
theorem txWrite_cases (bs : List Byte) (f : State → State) (s : State) :
    (∃ n rest, s.replies = .answer (.ok n) :: rest ∧
      txWrite bs f s = f { s with replies := rest, inFlight := false, events := s.events ++ [.write bs (.ok n)] }) ∨
    (∃ rest, s.replies = .answer .err :: rest ∧
      txWrite bs f s =
        complete .writeError { s with replies := rest, inFlight := false, events := s.events ++ [.write bs .err] }) ∨
    (∃ rest, (s.replies = .pending :: rest ∨ (s.replies = [] ∧ rest = [])) ∧
      txWrite bs f s = { s with replies := rest, inFlight := true }) := by
  match h : s.replies with
  | [] => exact .inr (.inr ⟨[], .inr ⟨rfl, rfl⟩, by rw [txWrite_nil bs f s h]; simp [← h]⟩)
  | .pending :: rest => exact .inr (.inr ⟨rest, .inl rfl, txWrite_pending bs f s rest h⟩)
  | .answer .err :: rest => exact .inr (.inl ⟨rest, rfl, txWrite_err bs f s rest h⟩)
  | .answer (.ok n) :: rest => exact .inl ⟨n, rest, rfl, txWrite_ok bs f s n rest h⟩

/-! ## Frames in FB -/

/-- A 6-byte frame that was loaded stands in FB whole. -/
theorem frameBytes_loadFrame_six (a b c d e f : Byte) (s : State) :
    frameBytes (loadFrame [a, b, c, d, e, f] s) = [a, b, c, d, e, f] := by
  simp [frameBytes, loadFrame, FrameBuf.load, FrameBuf.bytes]

/-- So does a region frame. -/
@[simp] theorem frameBytes_loadFrame_region (x y ex ey : Coord) (op : Byte) (s : State) :
    frameBytes (loadFrame (regionFrame x y ex ey op) s) = regionFrame x y ex ey op :=
  frameBytes_loadFrame_six _ _ _ _ _ _ s

/-- So does an orientation frame. -/
@[simp] theorem frameBytes_loadFrame_orient (o : BitVec 2) (s : State) :
    frameBytes (loadFrame (orientFrame o) s) = orientFrame o := by
  simp [orientFrame_eq_o11Bytes, o11Bytes, frameBytes, loadFrame, FrameBuf.load, FrameBuf.bytes]

/-- The frame FRAME builds, by the kind of the running command. -/
theorem frameBytes_buildFrame (s : State) :
    frameBytes (buildFrame s) =
      match s.kind with
      | .region => regionFrame s.x s.y s.ex s.ey s.opc
      | .orientation => orientFrame s.ori
      | .draw => regionFrame 0 0 (lastIndex s.w) (lastIndex s.h) (Opcode.wire .displayBitmap) := by
  unfold buildFrame
  cases h : s.kind <;> simp

/-- FRAME goes on to SEND_FRAME. -/
@[simp] theorem buildFrame_seq (s : State) : (buildFrame s).seq = .sendFrame := by
  unfold buildFrame
  split <;> rfl

/-! ## The size check -/

/-- Everything CHECK can do. -/
theorem checkSize_cases (f : State → State) (s : State) :
    (sizeOk s.w s.h = false ∧ checkSize f s = .next (complete .wrongImageSize s)) ∨
    (degenerate s.w s.h = true ∧ checkSize f s = .refused .degenerateDraw) ∨
    (sizeOk s.w s.h = true ∧ s.w ≠ 0 ∧ s.h ≠ 0 ∧ checkSize f s = .next (f { s with seq := .frame })) := by
  unfold checkSize
  by_cases h1 : sizeOk s.w s.h = true
  · by_cases h2 : s.w = 0 ∨ s.h = 0
    · exact .inr (.inl ⟨by simpa [degenerate, h1] using h2, by rw [if_pos h1, if_pos h2]⟩)
    · obtain ⟨hw, hh⟩ := not_or.mp h2
      exact .inr (.inr ⟨h1, hw, hh, by rw [if_pos h1, if_neg h2]⟩)
  · exact .inl ⟨by simpa using h1, by simp [h1]⟩

/-! ## Chunks -/

theorem params_chunkRows : params.chunkRows = 8 := rfl

theorem params_bytesPerPixel : params.bytesPerPixel = 2 := rfl

/-- A chunk has `8 * W` pixels or the fewer that remain. -/
theorem chunkPixels_eq_min (s : State) : chunkPixels s = min (8 * s.w.toNat) (s.npix.toNat - s.pixi.toNat) := by
  rw [Nat.min_def]
  rfl

/-- A chunk's length in pixels depends on W, NPIX and PIXI alone. -/
theorem chunkPixels_congr {s t : State} (hw : s.w = t.w) (hn : s.npix = t.npix) (hp : s.pixi = t.pixi) :
    chunkPixels s = chunkPixels t := by
  rw [chunkPixels_eq_min, chunkPixels_eq_min, hw, hn, hp]

theorem chunkPixels_lt (s : State) : 2 * chunkPixels s < 2 ^ 21 := by
  have := s.w.isLt
  rw [chunkPixels_eq_min]
  omega

/-! ## What offering an instruction can do -/

/-- Everything a command of one frame can do: nothing while BUSY, and one write of its frame while IDLE. -/
theorem frameCommand_cases (i : Instr) (k : Kind) (latch : State → State) (s : State) :
    (s.phase = .busy ∧ frameCommand i k latch s = .next s) ∨
    (s.phase = .idle ∧
      frameCommand i k latch s =
        .next (txWrite (frameBytes (buildFrame (latch (accept i k .frame s)))) afterFrame
          (buildFrame (latch (accept i k .frame s))))) := by
  unfold frameCommand
  cases h : s.phase
  · exact .inr ⟨rfl, rfl⟩
  · exact .inl ⟨rfl, rfl⟩

/-- Everything a wire frame can do: one write of itself at SEND_FRAME, nothing anywhere else. -/
theorem sendWireFrame_cases (frame : List Byte) (s : State) :
    (s.phase = .busy ∧ s.seq = .sendFrame ∧
      sendWireFrame frame s = .next (txWrite (frameBytes (loadFrame frame s)) afterFrame (loadFrame frame s))) ∨
    (¬ (s.phase = .busy ∧ s.seq = .sendFrame) ∧ sendWireFrame frame s = .next s) := by
  unfold sendWireFrame
  split
  · next h1 h2 => exact .inl ⟨h1, h2, rfl⟩
  · next h => exact .inr ⟨fun ⟨h1, h2⟩ => h h1 h2, rfl⟩

end Sys2Proof.Machine
end

