-- ==== Sys2Proof/Laws/Step.lean ====
section
/-! SUPPORT. What fetching and a step can do. -/

namespace Sys2Proof.Machine

/-- Everything that can be taken as an instruction. -/
theorem fetch_cases {s t : State} {i : Instr} (h : fetch s = some (i, t)) :
    (∀ rest, s.host ≠ .reset :: rest) ∧
    ((∃ d rest, s.phase = .idle ∧ s.host = .issue d :: rest ∧ i = decodeCmd d ∧ t = { s with host := rest }) ∨
     (s.phase = .busy ∧ s.seq = .sendFrame ∧ (decode (frameFormat s) (frameBytes s)).toOption = some i ∧ t = s) ∨
     (s.phase = .busy ∧ s.seq = .fill ∧ nextPixel s < s.w.toNat * s.h.toNat ∧
       i = pixelInstr (s.pix.read (nextPixel s)) ∧ t = s)) := by
  unfold fetch at h
  split at h
  · cases h
  · next d rest hh hp =>
    simp only [Option.some.injEq, Prod.mk.injEq] at h
    exact ⟨by simp [hh], .inl ⟨d, rest, hp, hh, h.1.symm, h.2.symm⟩⟩
  · next hp hq hr =>
    simp only [Option.map_eq_some_iff, Prod.mk.injEq] at h
    obtain ⟨j, hj, rfl, rfl⟩ := h
    exact ⟨hr, .inr (.inl ⟨hp, hq, hj, rfl⟩)⟩
  · next hp hq hr =>
    split at h
    · next hlt =>
      simp only [Option.some.injEq, Prod.mk.injEq] at h
      exact ⟨hr, .inr (.inr ⟨hp, hq, hlt, h.1.symm, h.2.symm⟩)⟩
    · cases h
  · cases h

/-- Everything a step does where no instruction is taken. -/
theorem advance_cases {s : State} (h : fetch s = none) :
    (∃ rest, s.host = .reset :: rest ∧ advance s = .next (hardReset { s with host := rest })) ∨
    (∃ i p rest, s.phase = .idle ∧ s.host = .putPixel i p :: rest ∧
      advance s = .next { s with host := rest, pix := s.pix.write i p }) ∨
    (s.phase = .idle ∧ s.host = [] ∧ advance s = .next s) ∨
    (s.phase = .busy ∧ (∀ rest, s.host ≠ .reset :: rest) ∧
      ((s.seq = .check ∧ advance s = checkSize id s) ∨
       (s.seq = .frame ∧ advance s = .next (buildFrame s)) ∨
       (s.seq = .sendFrame ∧ (decode (frameFormat s) (frameBytes s)).toOption = none ∧ advance s = .fault .noFrame) ∨
       (s.seq = .fill ∧ ¬ nextPixel s < s.w.toNat * s.h.toNat ∧ advance s = .fault .pixelOutside) ∨
       (s.seq = .sendChunk ∧ advance s = .next (sendChunk afterChunk s)) ∨
       (s.seq = .done ∧ advance s = .next (complete .ok s)))) := by
  by_cases hr : ∃ rest, s.host = .reset :: rest
  · obtain ⟨rest, hr⟩ := hr
    exact .inl ⟨rest, hr, by simp [advance, hr]⟩
  · have hr' : ∀ rest, s.host ≠ .reset :: rest := fun rest h => hr ⟨rest, h⟩
    cases hp : s.phase with
    | idle =>
      match hh : s.host with
      | [] => exact .inr (.inr (.inl ⟨rfl, rfl, by simp [advance, hh, hp]⟩))
      | .reset :: rest => exact absurd hh (hr' rest)
      | .issue d :: rest => simp [fetch, hh, hp] at h
      | .putPixel i p :: rest => exact .inr (.inl ⟨i, p, rest, rfl, rfl, by simp [advance, hh, hp]⟩)
    | busy =>
      refine .inr (.inr (.inr ⟨rfl, hr', ?_⟩))
      cases hq : s.seq with
      | check => exact .inl ⟨rfl, by unfold advance; split <;> simp_all⟩
      | frame => exact .inr (.inl ⟨rfl, by unfold advance; split <;> simp_all⟩)
      | sendFrame =>
        refine .inr (.inr (.inl ⟨rfl, ?_, by unfold advance; split <;> simp_all⟩))
        unfold fetch at h
        split at h <;> simp_all
      | fill =>
        refine .inr (.inr (.inr (.inl ⟨rfl, ?_, by unfold advance; split <;> simp_all⟩)))
        unfold fetch at h
        split at h <;> simp_all
      | sendChunk => exact .inr (.inr (.inr (.inr (.inl ⟨rfl, by unfold advance; split <;> simp_all⟩))))
      | done => exact .inr (.inr (.inr (.inr (.inr ⟨rfl, by unfold advance; split <;> simp_all⟩))))

/-- A step runs the instruction that is taken, or else what the sequencer, the host or reset does. -/
theorem step_cases (s : State) :
    (∃ i t, fetch s = some (i, t) ∧ step s = exec i t) ∨ (fetch s = none ∧ step s = advance s) := by
  unfold step
  cases h : fetch s with
  | none => exact .inr ⟨rfl, rfl⟩
  | some p => exact .inl ⟨p.1, p.2, rfl, rfl⟩

end Sys2Proof.Machine
end

