-- ==== Sys2Proof/Laws/Progress.lean ====
section
/-! SUPPORT. What a step can do to everything that is observed, said once for all instructions. -/

namespace Sys2Proof.Machine

/-- None of the writes was answered `Err`. -/
def NoErr (es : List Event) : Prop := ∀ b, (b, Answer.err) ∉ writesOf es

/-- How a running command goes on from a BUSY state: it waits, completes with OK, or completes with
  WRITE_ERROR right after the one
write answered `Err`; PIX, the host's moves, LVL and ORI stay. -/
def Continues (s t : State) : Prop := t.pix = s.pix ∧ t.host = s.host ∧ t.lvl = s.lvl ∧ t.ori = s.ori ∧ ∃ es,
    t.events = s.events ++ es ∧ acceptsOf es = [] ∧
  ((t.phase = .busy ∧ t.result = s.result ∧ resultsOf es = [] ∧ NoErr es) ∨
   (t.phase = .idle ∧ t.result = .ok ∧ resultsOf es = [.ok] ∧ NoErr es) ∨
   (t.phase = .idle ∧ t.result = .writeError ∧ ∃ pre b, es = pre ++ [.write b .err, .complete .writeError] ∧ NoErr pre ∧
     resultsOf pre = []))

theorem Continues.of_pre {s u t : State} {e : List Event} (h : Continues u t) (h1 : u.pix = s.pix)
    (h2 : u.host = s.host) (h2' : u.lvl = s.lvl) (h2'' : u.ori = s.ori) (h3 : u.result = s.result)
    (h4 : u.events = s.events ++ e) (ha : acceptsOf e = []) (hr : resultsOf e = []) (hn : NoErr e) : Continues s t := by
  obtain ⟨p, q, l, o, es, he, hac, hx⟩ := h
  refine ⟨p.trans h1, q.trans h2, l.trans h2', o.trans h2'', e ++ es, by rw [he, h4, List.append_assoc],
    by simp [acceptsOf_append, ha, hac], ?_⟩
  rcases hx with ⟨a, b, c, d⟩ | ⟨a, b, c, d⟩ | ⟨a, b, pre, w, rfl, c, d⟩
  · exact .inl ⟨a, b.trans h3, by simp [resultsOf_append, hr, c], by intro x; simp [writesOf_append, hn x, d x]⟩
  · exact .inr (.inl ⟨a, b, by simp [resultsOf_append, hr, c], by intro x; simp [writesOf_append, hn x, d x]⟩)
  · exact .inr (.inr ⟨a, b, e ++ pre, w, by simp, by intro x; simp [writesOf_append, hn x, c x],
    by simp [resultsOf_append, hr, d]⟩)

theorem Continues.txWrite (bs f) (s : State) (hp : s.phase = .busy) (hf : ∀ t : State, t.phase = .busy →
    t.kind = s.kind → Continues t (f t)) : Continues s (Machine.txWrite bs f s) := by
  rcases txWrite_cases bs f s with ⟨n, r, _, h⟩ | ⟨r, _, h⟩ | ⟨r, _, h⟩ <;> rw [h]
  · exact (hf { s with replies := r, inFlight := false, events :=
    s.events ++ [.write bs (.ok n)] } hp rfl).of_pre rfl rfl rfl rfl rfl rfl rfl rfl (by intro b; simp [writesOf])
  · exact ⟨rfl, rfl, rfl, rfl, [.write bs .err, .complete .writeError], by simp, rfl, .inr (.inr ⟨rfl, rfl, [], bs, rfl,
    by intro b; simp [writesOf], rfl⟩)⟩
  · exact ⟨rfl, rfl, rfl, rfl, [], by simp, rfl, .inl ⟨hp, rfl, rfl, by intro b; simp [writesOf]⟩⟩

theorem Continues.complete (s : State) : Continues s (Machine.complete .ok s) :=
  ⟨rfl, rfl, rfl, rfl, [.complete .ok], rfl, rfl, .inr (.inl ⟨rfl, rfl, rfl, by intro b; simp [writesOf]⟩)⟩

theorem Continues.refl {s t : State} (hp : t.phase = .busy) (h1 : t.pix = s.pix) (h2 : t.host = s.host)
    (h2' : t.lvl = s.lvl) (h2'' : t.ori = s.ori) (h3 : t.result = s.result) (h4 : t.events = s.events) : Continues s t :=
  ⟨h1, h2, h2', h2'', [], by simp [h4], rfl, .inl ⟨hp, h3, rfl, by intro b; simp [writesOf]⟩⟩

theorem Continues.afterFrame (s : State) (hp : s.phase = .busy) : Continues s (Machine.afterFrame s) := by
  unfold Machine.afterFrame
  split
  · exact .complete s
  · exact .complete s
  · exact .refl (by simpa) rfl rfl rfl rfl rfl rfl

theorem Continues.payload : ∀ n (s : State), s.phase = .busy → Continues s (Machine.payload n s)
  | 0, s, _ => .complete s
  | n+1, s, hp => by
    have := Continues.txWrite (fillChunk s).cb (fun t => Machine.payload n (advancePixi t)) (fillChunk s) (by simpa)
      (fun t ht _ =>
      (Continues.payload n (advancePixi t) (by simpa)).of_pre (e :=
        []) rfl rfl rfl rfl rfl (by simp) rfl rfl (by intro b; simp [writesOf]))
    exact this.of_pre (e := []) rfl rfl rfl rfl rfl (by simp) rfl rfl (by intro b; simp [writesOf])

theorem Continues.afterChunk (s : State) (hp : s.phase = .busy) : Continues s (Machine.afterChunk s) := by
  unfold Machine.afterChunk
  dsimp only
  split
  · exact .refl (by simpa) rfl rfl rfl rfl rfl rfl
  · exact (Continues.complete (advancePixi s)).of_pre (e :=
    []) rfl rfl rfl rfl rfl (by simp) rfl rfl (by intro b; simp [writesOf])

theorem Continues.streamPixels (s : State) (hp : s.phase = .busy) : Continues s (Machine.streamPixels s) :=
  (Continues.payload _ (beginPayload s) (by simpa)).of_pre (e :=
    []) rfl rfl rfl rfl rfl (by simp) rfl rfl (by intro b; simp [writesOf])

theorem buildFrame_keeps (s : State) : (buildFrame s).pix = s.pix ∧ (buildFrame s).host = s.host ∧
    (buildFrame s).lvl = s.lvl ∧ (buildFrame s).ori = s.ori ∧ (buildFrame s).result = s.result ∧
    (buildFrame s).events = s.events ∧ (buildFrame s).phase = s.phase ∧ (buildFrame s).kind = s.kind ∧
    (buildFrame s).w = s.w ∧ (buildFrame s).h = s.h ∧ (buildFrame s).replies = s.replies := by
  unfold buildFrame; split <;> simp_all

/-- Everything that executing an instruction can do to what is observed. -/
def Executes (i : Instr) (s t : State) : Prop :=
   (t = s) ∨
   (s.phase = .idle ∧ ∃ u : State, u.phase = .busy ∧ u.pix = s.pix ∧ u.host = s.host ∧ u.result = s.result ∧
     u.events = s.events ++ [.accept i] ∧
       (Continues u t ∨ (t = complete .wrongImageSize u))) ∨
   (s.phase = .busy ∧ Continues s t)

theorem frameCommand_executes {i k latch s t} (hl : ∀ s, (latch s).phase = s.phase ∧ (latch s).pix = s.pix ∧
    (latch s).host = s.host ∧ (latch s).result = s.result ∧ (latch s).events = s.events)
  (h : frameCommand i k latch s = .next t) : Executes i s t := by
  rcases frameCommand_cases i k latch s with ⟨_, h2⟩ | ⟨h1, h2⟩ <;> rw [h2] at h <;> cases h
  · exact .inl rfl
  · obtain ⟨a1,a2,a3,a4,a5⟩ := hl (accept i k .frame s)
    obtain ⟨b1,b2,_,_,b5,b6,b7,_⟩ := buildFrame_keeps (latch (accept i k .frame s))
    refine .inr (.inl ⟨h1, buildFrame (latch (accept i k .frame s)), by simp [b7, a1], by simp [b1, a2], by simp [b2,a3],
      by simp [b5,a4], by simp [b6,a5], .inl ?_⟩)
    exact .txWrite _ _ _ (by simp [b7,a1]) (fun t ht _ => .afterFrame t ht)

theorem exec_executes {i s t} (h : exec i s = .next t) : Executes i s t := by
  have hw : ∀ f, sendWireFrame f s = .next t → Executes i s t := by
    intro f h
    rcases sendWireFrame_cases f s with ⟨h1, h2, h3⟩ | ⟨_, h3⟩ <;> rw [h3] at h <;> cases h
    · refine .inr (.inr ⟨h1, ?_⟩)
      exact (Continues.txWrite _ Machine.afterFrame (loadFrame f s) (by simpa)
        (fun t ht _ => .afterFrame t ht)).of_pre (e :=
        []) rfl rfl rfl rfl rfl (by simp) rfl rfl (by intro b; simp [writesOf])
    · exact .inl rfl
  cases i
  case draw w hh =>
    simp only [exec, execDraw] at h
    split at h
    · cases h; exact .inl rfl
    · next hp =>
      rcases checkSize_cases (fun t => sendFrame streamPixels (buildFrame t))
        (latchSize w hh (accept (.draw w hh) .draw .check s)) with ⟨h1, h2⟩ | ⟨h1, h2⟩ | ⟨h3, h4, h5,
        h2⟩ <;> rw [h2] at h <;> cases h
      · exact .inr (.inl ⟨hp, latchSize w hh (accept (.draw w hh) .draw .check s), rfl, rfl, rfl, rfl, rfl, .inr rfl⟩)
      · refine .inr (.inl ⟨hp, _, ?_, ?_, ?_, ?_, ?_,
        .inl (.txWrite _ _ (buildFrame _) ?_ (fun t ht _ => .streamPixels t ht))⟩) <;> simp [buildFrame_keeps]
  case pixel =>
    simp only [exec, execPixel] at h
    split at h <;> cases h
    · next hp hq => exact .inr (.inr ⟨hp, .refl (by simpa) rfl rfl rfl rfl rfl rfl⟩)
    · exact .inl rfl
  case region => exact frameCommand_executes (fun s => by simp) h
  case clear => exact frameCommand_executes (fun s => by simp) h
  case toBlack => exact frameCommand_executes (fun s => by simp) h
  case screenOff => exact frameCommand_executes (fun s => by simp) h
  case screenOn => exact frameCommand_executes (fun s => by simp) h
  case setBrightness => exact frameCommand_executes (fun s => by simp) h
  case setOrientation => exact frameCommand_executes (fun s => by simp) h
  all_goals exact hw _ h

/-- Everything a step can do to what is observed. -/
def Advances (s t : State) : Prop :=
  (∃ rest, s.host = .reset :: rest ∧ t = hardReset { s with host := rest }) ∨
  (∃ i p rest, s.phase = .idle ∧ s.host = .putPixel i p :: rest ∧ t = { s with host := rest, pix := s.pix.write i p }) ∨
  (t = s) ∨
  (s.phase = .idle ∧ ∃ d rest, s.host = .issue d :: rest ∧ Executes (decodeCmd d) { s with host := rest } t) ∨
  (s.phase = .busy ∧ (Continues s t ∨ t = complete .wrongImageSize s))

theorem step_advances {s t} (h : step s = .next t) : Advances s t := by
  rcases step_cases s with ⟨i, u, hf, hs⟩ | ⟨hf, hs⟩ <;> rw [hs] at h
  · rcases fetch_cases hf with ⟨_, ⟨d, rest, hp, hh, rfl, rfl⟩ | ⟨hp, _, _, rfl⟩ | ⟨hp, _, _, _, rfl⟩⟩
    · exact .inr (.inr (.inr (.inl ⟨hp, d, rest, hh, exec_executes h⟩)))
    · rcases exec_executes h with rfl | ⟨h1, _⟩ | ⟨_, h2⟩
      · exact .inr (.inr (.inl rfl))
      · rw [hp] at h1; cases h1
      · exact .inr (.inr (.inr (.inr ⟨hp, .inl h2⟩)))
    · rcases exec_executes h with rfl | ⟨h1, _⟩ | ⟨_, h2⟩
      · exact .inr (.inr (.inl rfl))
      · rw [hp] at h1; cases h1
      · exact .inr (.inr (.inr (.inr ⟨hp, .inl h2⟩)))
  · rcases advance_cases hf with ⟨rest, hh, h2⟩ | ⟨i, p, rest, hi, hh, h2⟩ | ⟨hi, _, h2⟩ | ⟨hp, _, h2⟩
    · rw [h2] at h; cases h; exact .inl ⟨rest, hh, rfl⟩
    · rw [h2] at h; cases h; exact .inr (.inl ⟨i, p, rest, hi, hh, rfl⟩)
    · rw [h2] at h; cases h; exact .inr (.inr (.inl rfl))
    · rcases h2 with ⟨_, h3⟩ | ⟨_, h3⟩ | ⟨_, _, h3⟩ | ⟨_, _, h3⟩ | ⟨_, h3⟩ | ⟨_, h3⟩ <;> rw [h3] at h
      · rcases checkSize_cases id s with ⟨_, h4⟩ | ⟨_, h4⟩ | ⟨_, _, _, h4⟩ <;> rw [h4] at h <;> cases h
        · exact .inr (.inr (.inr (.inr ⟨hp, .inr rfl⟩)))
        · exact .inr (.inr (.inr (.inr ⟨hp, .inl (.refl hp rfl rfl rfl rfl rfl rfl)⟩)))
      · cases h; exact .inr (.inr (.inr (.inr ⟨hp, .inl (.refl (by simp [buildFrame_keeps, hp])
        (by simp [buildFrame_keeps]) (by simp [buildFrame_keeps]) (by simp [buildFrame_keeps])
        (by simp [buildFrame_keeps]) (by simp [buildFrame_keeps]) (by simp [buildFrame_keeps]))⟩)))
      · cases h
      · cases h
      · cases h; exact .inr (.inr (.inr (.inr ⟨hp, .inl (.txWrite _ _ _ hp fun t ht _ => .afterChunk t ht)⟩)))
      · cases h; exact .inr (.inr (.inr (.inr ⟨hp, .inl (.complete s)⟩)))

end Sys2Proof.Machine
end

