-- ==== Sys2Proof/Laws/Finish.lean ====
section
/-! SUPPORT. A command whose writes are all answered at once finishes: what it takes from the tape and what it records. -/

namespace Sys2Proof.Machine

/-- Every descriptor decodes to a command. -/
theorem decodeCmd_format (d : Descriptor) : (decodeCmd d).format = .cmd80 := by
  unfold decodeCmd
  dsimp only
  repeat' split
  all_goals rfl

/-- Everything the stages of a command do when each of at most `n` writes is answered: one tape entry and one record a write, one
result, and the block is IDLE. -/
def Finishes (n : Nat) (s t : State) : Prop :=
  t.phase = .idle ∧ t.host = s.host ∧ ∃ es, t.events = s.events ++ es ∧ (writesOf es).length ≤ n ∧
    t.replies = s.replies.drop (writesOf es).length ∧ acceptsOf es = [] ∧ (resultsOf es).length = 1

/-- The transport answers the next `n` writes at once. -/
def Answered (n : Nat) (s : State) : Prop := n ≤ s.replies.length ∧ ∀ r ∈ s.replies, r ≠ .pending

theorem Finishes.complete (n : Nat) (st : Status) (s : State) : Finishes n s (Machine.complete st s) :=
  ⟨rfl, rfl, [.complete st], rfl, Nat.zero_le _, rfl, rfl, rfl⟩

/-- Stages that leave the host, the tape and the record alone may come first. -/
theorem Finishes.of_same {n : Nat} {s u t : State} (h : Finishes n u t) (h1 : u.host = s.host) (h2 : u.replies = s.replies)
    (h3 : u.events = s.events) : Finishes n s t := by
  rw [Finishes, h1, h2, h3] at h
  exact h

/-- A write that is answered, and what comes after it. -/
theorem Finishes.txWrite {n : Nat} (bs : List Byte) (f : State → State) (s : State) (ha : Answered (n + 1) s)
    (hf : ∀ t : State, t.w = s.w → t.h = s.h → t.kind = s.kind → Answered n t → Finishes n t (f t)) :
    Finishes (n + 1) s (Machine.txWrite bs f s) := by
  obtain ⟨hl, hp⟩ := ha
  rcases txWrite_cases bs f s with ⟨m, r, hr, h⟩ | ⟨r, hr, h⟩ | ⟨r, hr, h⟩
  · rw [h]
    rw [hr] at hl hp
    obtain ⟨p, q, es, he, hw, hd, hc, hs⟩ :=
      hf { s with replies := r, inFlight := false, events := s.events ++ [.write bs (.ok m)] } rfl rfl rfl
        ⟨by simpa using hl, fun x hx => hp x (List.mem_cons_of_mem _ hx)⟩
    exact ⟨p, q, .write bs (.ok m) :: es, by simpa using he, by simpa [writesOf] using hw, by rw [hd, hr]; rfl, hc, hs⟩
  · rw [h]
    exact ⟨rfl, rfl, [.write bs .err, .complete .writeError], by simp, by simp [writesOf], by rw [hr]; rfl, rfl, rfl⟩
  · rcases hr with hr | ⟨hr, _⟩
    · exact absurd rfl (hp .pending (by rw [hr]; exact List.mem_cons_self))
    · rw [hr] at hl
      cases hl

/-- DRAW's loop over chunks. -/
theorem Finishes.payload : ∀ (n : Nat) (s : State), Answered n s → Finishes n s (Machine.payload n s)
  | 0, s, _ => .complete 0 .ok s
  | n + 1, s, ha =>
    (Finishes.txWrite (fillChunk s).cb (fun t => Machine.payload n (advancePixi t)) (fillChunk s) (by simpa [Answered] using ha)
      fun t _ _ _ ht => (Finishes.payload n (advancePixi t) (by simpa [Answered] using ht)).of_same rfl rfl rfl).of_same rfl rfl rfl

/-- A command of an IDLE block whose writes are all answered: it is accepted and finishes. -/
theorem exec_finishes {i : Instr} {s t : State} (hp : s.phase = .idle) (hi : i.format = .cmd80) (ha : Answered (writeBound i) s)
    (h : exec i s = .next t) : Finishes (writeBound i) { s with events := s.events ++ [.accept i] } t := by
  have one : ∀ (k : Kind) (latch : State → State), k ≠ .draw → writeBound i = 1 →
      (∀ u, (latch u).host = u.host ∧ (latch u).replies = u.replies ∧ (latch u).events = u.events ∧ (latch u).kind = u.kind) →
      frameCommand i k latch s = .next t → Finishes (writeBound i) { s with events := s.events ++ [.accept i] } t := by
    intro k latch hk hw hl h
    rcases frameCommand_cases i k latch s with ⟨h1, _⟩ | ⟨_, h1⟩
    · rw [hp] at h1
      cases h1
    · rw [h1] at h
      cases h
      obtain ⟨a, b, c, d⟩ := hl (accept i k .frame s)
      obtain ⟨_, k2, _, _, _, k6, _, k8, _, _, k11⟩ := buildFrame_keeps (latch (accept i k .frame s))
      rw [hw] at ha ⊢
      refine (Finishes.txWrite (n := 0) _ afterFrame _ (by simpa [Answered, k11, b] using ha) ?_).of_same
        (by simp [k2, a]) (by simp [k11, b]) (by simp [k6, c])
      intro u _ _ hu _
      rw [k8, d] at hu
      unfold afterFrame
      split
      · exact .complete 0 .ok u
      · exact .complete 0 .ok u
      · next hd => exact absurd (hu.symm.trans hd) hk
  cases i
  case region => exact one _ _ (by decide) rfl (fun u => by simp) h
  case clear => exact one _ _ (by decide) rfl (fun u => by simp) h
  case toBlack => exact one _ _ (by decide) rfl (fun u => by simp) h
  case screenOff => exact one _ _ (by decide) rfl (fun u => by simp) h
  case screenOn => exact one _ _ (by decide) rfl (fun u => by simp) h
  case setBrightness => exact one _ _ (by decide) rfl (fun u => by simp) h
  case setOrientation => exact one _ _ (by decide) rfl (fun u => by simp) h
  case draw w hh =>
    simp only [exec, execDraw, hp] at h
    rcases checkSize_cases (fun t => sendFrame streamPixels (buildFrame t))
      (latchSize w hh (accept (.draw w hh) .draw .check s)) with ⟨_, h2⟩ | ⟨_, h2⟩ | ⟨_, _, _, h2⟩ <;> rw [h2] at h <;> cases h
    · exact (Finishes.complete _ .wrongImageSize _).of_same rfl rfl rfl
    · rw [writeBound, Nat.add_comm] at ha ⊢
      refine (Finishes.txWrite _ streamPixels _ (by simpa [Answered, buildFrame_keeps] using ha) ?_).of_same
        (by simp [buildFrame_keeps]) (by simp [buildFrame_keeps]) (by simp [buildFrame_keeps])
      intro u _ hu _ hua
      rw [(buildFrame_keeps _).2.2.2.2.2.2.2.2.2.1] at hu
      have : chunkCount u.h = (hh.toNat + 7) / 8 := by rw [hu]; rfl
      rw [streamPixels, this]
      exact (Finishes.payload _ (beginPayload u) (by simpa [Answered] using hua)).of_same rfl rfl rfl
  all_goals cases hi

/-- Whether a command is open after one list of events and then another. -/
theorem commandOpen_append (b : Bool) (es fs : List Event) :
    commandOpen b (es ++ fs) = commandOpen (commandOpen b es) fs := by
  induction es generalizing b with
  | nil => rfl
  | cons e es ih => cases e <;> exact ih _

/-- Events with a result and no acceptance leave no command open. -/
theorem commandOpen_closed {b : Bool} {es : List Event} (ha : acceptsOf es = []) (hr : resultsOf es ≠ []) :
    commandOpen b es = false := by
  have done : ∀ fs : List Event, acceptsOf fs = [] → commandOpen false fs = false := by
    intro fs
    induction fs with
    | nil => intro _; rfl
    | cons e fs ih => cases e <;> intro h <;> first | exact ih h | cases h
  induction es with
  | nil => exact absurd rfl hr
  | cons e es ih =>
    cases e
    · cases ha
    · exact ih ha hr
    · exact done es ha

/-- What a run has recorded so far, and what it records after. -/
theorem observation_append (s t : State) (es : List Event) (h : t.events = s.events ++ es) :
    observation t = ((observation s).1 ++ writesOf es, (observation s).2 ++ resultsOf es) := by
  simp [observation, h]

end Sys2Proof.Machine
end

