-- ==== Sys2Proof/Laws/Frames.lean ====
section
/-! SUPPORT. The frames that the block builds stand in FB as frames of R60. -/

namespace Sys2Proof.Machine

theorem decode_regionFrame (x y ex ey : Coord) (op : Opcode) :
    (decode .r6 (regionFrame x y ex ey op.wire)).toOption.isSome = true := by
  simp only [regionFrame, decode, decodeR6, joined_last, Opcode.ofWire_wire]
  rfl

theorem decode_orientFrame (o : BitVec 2) : (decode .o11 (orientFrame o)).toOption.isSome = true := by
  revert o; decide

theorem frameFormat_loadFrame (f : List Byte) (s : State) (hf : f.length = 6) : frameFormat (loadFrame f s) = .r6 := by
  simp [frameFormat, hf]

/-- A region frame that was loaded stands ready. -/
theorem frameReady_region (x y ex ey : Coord) (op : Opcode) (s : State) :
    frameReady (loadFrame (regionFrame x y ex ey op.wire) s) = true := by
  rw [frameReady, frameFormat_loadFrame _ _ rfl, frameBytes_loadFrame_region]
  exact decode_regionFrame ..

/-- So does an orientation frame. -/
theorem frameReady_orient (o : BitVec 2) (s : State) : frameReady (loadFrame (orientFrame o) s) = true := by
  rw [frameReady, frameBytes_loadFrame_orient, show frameFormat (loadFrame (orientFrame o) s) = .o11 by simp [frameFormat]]
  exact decode_orientFrame ..

/-- So does the frame that FRAME builds, of every kind. -/
theorem frameReady_buildFrame (s : State) (h : s.kind = .region → ∃ op : Opcode, s.opc = op.wire) :
    frameReady (buildFrame s) = true := by
  unfold buildFrame
  split
  · next hk => obtain ⟨op, ho⟩ := h hk; rw [ho]; exact frameReady_region ..
  · exact frameReady_orient ..
  · simp only [latchRegion_x, latchRegion_y, latchRegion_ex, latchRegion_ey, latchRegion_opc]
    exact frameReady_region _ _ _ _ .displayBitmap _

/-- Whether a frame stands ready depends on FB and FLEN alone. -/
theorem frameReady_congr {s t : State} (h1 : s.fb = t.fb) (h2 : s.flen = t.flen) : frameReady s = frameReady t := by
  simp [frameReady, frameBytes, frameFormat, h1, h2]

end Sys2Proof.Machine
end

