-- ==== Sys2Proof/Laws/Payload.lean ====
section
/-! SUPPORT. DRAW's loop over its chunks, by induction on the answers that are `Ok`. -/

namespace Sys2Proof.Machine

/-- The bytes of chunk `j`: of `8 * w` pixels, or of those that remain. -/
def chunkBytes (m : PixMem) (w h j : Nat) : List Byte :=
  rangeBytes m (j * (8 * w)) (min (8 * w) (w * h - j * (8 * w)))

/-- The payload stands before chunk `j`. -/
structure AtChunk (s : State) (j : Nat) : Prop where
  pixelCount : s.npix.toNat = s.w.toNat * s.h.toNat
  start : s.pixi.toNat = j * (8 * s.w.toNat)
  within : j * 8 ≤ s.h.toNat

/-- The state after the next chunk was sent and answered `Ok`. -/
def afterSend (s : State) (n : Nat) (rest : List Reply) : State :=
  advancePixi { fillChunk s with replies := rest, inFlight := false, events := s.events ++ [.write (fillChunk s).cb (.ok n)] }

/-- The number of pixels fits 32 bits (R117). -/
theorem pixels_lt (w h : Dim) : w.toNat * h.toNat < 2^32 := by
  have h1 := w.isLt; have h2 := h.isLt
  have h3 : w.toNat * h.toNat ≤ (2^16-1)*(2^16-1) := Nat.mul_le_mul (by omega) (by omega)
  omega

/-- A filled chunk holds its bytes. -/
theorem fillChunk_cb_eq {s : State} {j : Nat} (h : AtChunk s j) : (fillChunk s).cb = chunkBytes s.pix s.w.toNat s.h.toNat j := by
  simp [chunkBytes, chunkPixels_eq_min, h.pixelCount, h.start]

theorem fillChunk_clen_toNat (s : State) : (fillChunk s).clen.toNat = 2 * chunkPixels s := by
  have := chunkPixels_lt s
  simp only [fillChunk_clen, BitVec.toNat_ofNat]; omega

/-- PIXI grows by the chunk's pixels. -/
theorem afterSend_pixi {s : State} {j n : Nat} {rest : List Reply} (h : AtChunk s j) (hj : j * 8 < s.h.toNat) :
    (afterSend s n rest).pixi.toNat = s.pixi.toNat + chunkPixels s := by
  simp only [afterSend, advancePixi_pixi, fillChunk_pixi, fillChunk_clen_toNat]
  have hb := pixels_lt s.w s.h
  have := chunkPixels_eq_min s
  rw [BitVec.toNat_add, BitVec.toNat_ofNat]
  have h1 : chunkPixels s ≤ s.npix.toNat - s.pixi.toNat := by omega
  have h2 : s.pixi.toNat ≤ s.npix.toNat := by
    rw [h.pixelCount, h.start, show j * (8 * s.w.toNat) = s.w.toNat * (j*8) by ring]
    exact Nat.mul_le_mul_left _ (by omega)
  have h3 := s.npix.isLt
  rw [Nat.mul_div_cancel_left _ (by norm_num : 0 < 2), Nat.mod_eq_of_lt (by omega : chunkPixels s < 2^32),
    Nat.mod_eq_of_lt (by omega)]

/-- After a full chunk the payload stands before the next. -/
theorem next_chunk {s : State} {j n : Nat} {rest : List Reply} (h : AtChunk s j) (hj : (j+1) * 8 ≤ s.h.toNat) :
    AtChunk (afterSend s n rest) (j+1) := by
  refine ⟨?_, ?_, ?_⟩
  · simpa [afterSend] using h.pixelCount
  · rw [afterSend_pixi h (by omega), chunkPixels_eq_min, h.pixelCount, h.start]
    simp only [afterSend, advancePixi_w, fillChunk_w]
    have : (j+1) * (8 * s.w.toNat) ≤ s.w.toNat * s.h.toNat := by
      rw [show (j+1) * (8 * s.w.toNat) = s.w.toNat * ((j+1)*8) by ring]
      exact Nat.mul_le_mul_left _ hj
    have e : (j+1) * (8 * s.w.toNat) = j * (8 * s.w.toNat) + 8 * s.w.toNat := by ring
    omega
  · simp only [afterSend, advancePixi_h, fillChunk_h]; omega

/-- After the remainder nothing remains. -/
theorem last_chunk {s : State} {j n : Nat} {rest : List Reply} (h : AtChunk s j) (hj : j * 8 < s.h.toNat)
    (hl : s.h.toNat < (j+1)*8) :
    (afterSend s n rest).pixi = s.npix := by
  apply BitVec.eq_of_toNat_eq
  rw [afterSend_pixi h hj, chunkPixels_eq_min, h.pixelCount, h.start]
  have h1: j * (8 * s.w.toNat) ≤ s.w.toNat * s.h.toNat := by
      rw [show j * (8 * s.w.toNat) = s.w.toNat * (j*8) by ring]
      exact Nat.mul_le_mul_left _ (by omega)
  have h2 :  s.w.toNat * s.h.toNat ≤ (j+1) * (8 * s.w.toNat) := by
      rw [show (j+1) * (8 * s.w.toNat) = s.w.toNat * ((j+1)*8) by ring]
      exact Nat.mul_le_mul_left _ (by omega)
  have e : (j+1) * (8 * s.w.toNat) = j * (8 * s.w.toNat) + 8 * s.w.toNat := by ring
  omega

/-- DRAW's loop over chunks answered `Ok`: their writes in order, and the state before the next chunk, or at the end. -/
theorem payload_ok {tail : List Reply} : ∀ (ns : List Nat) (m : Nat) (s : State) (j : Nat), AtChunk s j →
   m + ns.length + j = (s.h.toNat + 7) / 8 → s.replies = okReplies ns tail →
   ∃ t, payload (m + ns.length) s = payload m t ∧ t.replies = tail ∧
     t.events = s.events ++ okWrites ((List.range ns.length).map (fun i => chunkBytes s.pix s.w.toNat s.h.toNat (j+i))) ns ∧
     (AtChunk t (j + ns.length) ∨ (m = 0 ∧ t.pixi = t.npix ∧ t.npix.toNat = t.w.toNat * t.h.toNat)) ∧
     t = { s with pixi := t.pixi, cb := t.cb, clen := t.clen, seq := t.seq, inFlight := t.inFlight, replies := t.replies,
                  events := t.events } ∧ ((ns = [] ∧ t.inFlight = s.inFlight) ∨ t.inFlight = false) ∧
       (t.seq = if ns = [] then s.seq else .sendChunk)
  | [], m, s, j, h, hm, hr => ⟨s, rfl, by simpa [okReplies] using hr, by simp [okWrites], .inl (by simpa using h), rfl,
    .inl ⟨rfl, rfl⟩, rfl⟩
  | n :: ns, m, s, j, h, hm, hr => by
    have hr' : s.replies = .answer (.ok n) :: okReplies ns tail := by simpa [okReplies] using hr
    simp only [List.length_cons] at hm
    have hstep : payload (m + (n :: ns).length) s = payload (m + ns.length) (afterSend s n (okReplies ns tail)) := by
      rw [List.length_cons, show m + (ns.length + 1) = (m + ns.length) + 1 by omega, payload, sendChunk,
        txWrite_ok _ _ _ n (okReplies ns tail) (by simpa using hr')]
      rfl
    have hj : j * 8 < s.h.toNat := by omega
    have hevent : (afterSend s n (okReplies ns tail)).events = s.events ++ [.write (chunkBytes s.pix s.w.toNat s.h.toNat j) (.ok n)] := by
      simp [afterSend, ← fillChunk_cb_eq h]
    have hrange : (List.range (n :: ns).length).map (fun i => chunkBytes s.pix s.w.toNat s.h.toNat (j+i)) =
       chunkBytes s.pix s.w.toNat s.h.toNat j :: (List.range ns.length).map (fun i => chunkBytes s.pix s.w.toNat s.h.toNat (j+1+i)) := by
      rw [List.length_cons, List.range_succ_eq_map]
      simp [Function.comp_def, Nat.add_comm, Nat.add_left_comm]
    by_cases hl : (j+1)*8 ≤ s.h.toNat
    · obtain ⟨t, h1, h2, h3, h4, h5, h6, h7⟩ := payload_ok (tail := tail) ns m (afterSend s n (okReplies ns tail)) (j+1)
        (next_chunk h hl) (by simp [afterSend]; omega) (by simp [afterSend])
      refine ⟨t, hstep.trans h1, h2, ?_, ?_, ?_, ?_, ?_⟩
      · rw [h3, hevent, hrange]; simp [okWrites, afterSend]
      · rw [List.length_cons, show j + (ns.length + 1) = j + 1 + ns.length by omega]; exact h4
      · rw [h5]; simp [afterSend, advancePixi, fillChunk]
      · rcases h6 with ⟨_, h6⟩ | h6
        · right; rw [h6]; rfl
        · exact .inr h6
      · rw [h7]; split <;> rfl
    · have hn : ns = [] := by
        apply List.eq_nil_of_length_eq_zero; omega
      have hm0 : m = 0 := by omega
      subst hn hm0
      refine ⟨afterSend s n (okReplies [] tail), hstep, by simp [afterSend, okReplies], ?_, .inr ⟨rfl, ?_, ?_⟩, ?_, .inr rfl, rfl⟩
      · rw [hevent, hrange]; simp [okWrites]
      · rw [last_chunk h hj (by omega)]; rfl
      · simpa [afterSend] using h.pixelCount
      · simp [afterSend, advancePixi, fillChunk]

/-- A chunk ends at NPIX at the latest. -/
theorem chunkPixels_le {s : State} (h : s.pixi.toNat ≤ s.npix.toNat) : s.pixi.toNat + chunkPixels s ≤ s.npix.toNat := by
  rw [chunkPixels_eq_min]
  omega

/-- PIXI does not wrap where the chunk ends at NPIX at the latest. -/
theorem advancePixi_toNat {s : State} (h : s.pixi.toNat + s.clen.toNat / 2 ≤ s.npix.toNat) :
    (advancePixi s).pixi.toNat = s.pixi.toNat + s.clen.toNat / 2 := by
  have := s.npix.isLt
  rw [advancePixi_pixi, BitVec.toNat_add, BitVec.toNat_ofNat]
  omega

/-- CLEN counts the bytes of a chunk filled in one go. -/
theorem fillChunk_cb_length (s : State) : (fillChunk s).cb.length = (fillChunk s).clen.toNat := by
  rw [fillChunk_clen_toNat]
  exact rangeBytes_length _ _ _

/-- The payload writes of R114 and R115, chunk by chunk. -/
theorem payloadWrites_eq (m : PixMem) (w h : Dim) :
    payloadWrites m w h = (List.range ((h.toNat + 7)/8)).map (chunkBytes m w.toNat h.toNat) := by
  have hfull : ∀ k, k < h.toNat / 8 → chunkBytes m w.toNat h.toNat k = rangeBytes m (k * (8 * w.toNat)) (8 * w.toNat) := by
    intro k hk
    have e : (k+1) * (8 * w.toNat) = k * (8 * w.toNat) + 8 * w.toNat := by ring
    have : (k+1) * (8 * w.toNat) ≤ w.toNat * h.toNat := by
      rw [show (k+1) * (8 * w.toNat) = w.toNat * ((k+1)*8) by ring]
      exact Nat.mul_le_mul_left _ (by omega)
    rw [chunkBytes, Nat.min_eq_left (by omega)]
  have hmap : (List.range (h.toNat/8)).map (chunkBytes m w.toNat h.toNat) = (List.range (h.toNat / 8)).map (fun k => rangeBytes m (k * (8 * w.toNat)) (8 * w.toNat)) := by
    apply List.map_congr_left
    intro k hk; exact hfull k (List.mem_range.mp hk)
  unfold payloadWrites
  by_cases hz : h.toNat % 8 = 0
  · rw [if_pos hz, show (h.toNat + 7)/8 = h.toNat / 8 by omega, hmap]; simp
  · rw [if_neg hz, show (h.toNat + 7)/8 = h.toNat / 8 + 1 by omega, List.range_succ, List.map_append, hmap]
    congr 1
    simp only [List.map_cons, List.map_nil, chunkBytes]
    have e1 : w.toNat * h.toNat = h.toNat / 8 * (8 * w.toNat) + w.toNat * (h.toNat % 8) := by
      conv_lhs => rw [← Nat.div_add_mod h.toNat 8]
      ring
    have e2 : w.toNat * (h.toNat % 8) ≤ 8 * w.toNat := by
      rw [Nat.mul_comm 8]; exact Nat.mul_le_mul_left _ (by omega)
    rw [e1, Nat.add_sub_cancel_left, Nat.min_eq_right e2]

/-- The state after DRAW's stage FRAME. -/
def drawBuilt (s : State) (w h : Dim) : State :=
  buildFrame { latchSize w h (accept (.draw w h) .draw .check s) with seq := .frame }

/-- All that the stages up to FRAME write. -/
theorem drawBuilt_eq (s : State) (w h : Dim) :
    drawBuilt s w h =
      { s with phase := .busy, kind := .draw, seq := .sendFrame, w := w, h := h, x := 0, y := 0, ex := w - 1, ey := h - 1,
               opc := 197, fb := s.fb.load (regionFrame 0 0 (w - 1) (h - 1) 197), flen := 6,
               events := s.events ++ [.accept (.draw w h)] } := rfl

/-- A DRAW that passes the check writes its frame. -/
theorem exec_draw {s : State} {w h : Dim} (hp : s.phase = .idle) (hs : sizeOk w h = true) (hw : w ≠ 0) (hh : h ≠ 0) :
    exec (.draw w h) s =
      .next (txWrite (regionFrame 0 0 (w-1) (h-1) 197) streamPixels (drawBuilt s w h)) := by
  simp only [exec, execDraw, hp]
  rcases checkSize_cases (fun t => sendFrame streamPixels (buildFrame t))
    (latchSize w h (accept (.draw w h) .draw .check s)) with ⟨h1, _⟩ | ⟨h1, _⟩ | ⟨_, _, _, h1⟩
  · simp [hs] at h1
  · simp only [degenerate, latchSize_w, latchSize_h, hs, Bool.true_and, Bool.or_eq_true,
    beq_iff_eq] at h1; rcases h1 with h1 | h1 <;> [exact absurd h1 hw; exact absurd h1 hh]
  · rw [h1, sendFrame, frameBytes_buildFrame]; rfl

theorem atChunk_zero (s : State) : AtChunk (beginPayload s) 0 := by
  refine ⟨?_, by simp, by simp⟩
  simp only [beginPayload_npix, BitVec.toNat_mul, BitVec.toNat_setWidth, beginPayload_w, beginPayload_h]
  have hb := pixels_lt s.w s.h
  have h1 := s.w.isLt; have h2 := s.h.isLt
  rw [Nat.mod_eq_of_lt (by omega : s.w.toNat < 2^32), Nat.mod_eq_of_lt (by omega : s.h.toNat < 2^32), Nat.mod_eq_of_lt hb]

theorem drawWrites_eq (m : PixMem) (w h : Dim) :
    drawWrites m w h = regionFrame 0 0 (w-1) (h-1) 197 :: (List.range ((h.toNat + 7)/8)).map (chunkBytes m w.toNat h.toNat) := by
  rw [drawWrites, payloadWrites_eq]

theorem toNat_pos {h : Dim} (hh : h ≠ 0) : 0 < h.toNat := by
  rcases Nat.eq_zero_or_pos h.toNat with h0 | h0
  · exact absurd (BitVec.eq_of_toNat_eq (by simpa using h0)) hh
  · exact h0

theorem take_okWrites : ∀ (ws : List (List Byte)) (ns : List Nat), okWrites (ws.take ns.length) ns = okWrites ws ns
  | [], ns => by simp
  | w :: ws, [] => rfl
  | w :: ws, n :: ns => by simp [okWrites]; exact take_okWrites ws ns
theorem range_okWrites (f : Nat → List Byte) (k : Nat) (ns : List Nat) (h : ns.length ≤ k) :
    okWrites ((List.range ns.length).map f) ns = okWrites ((List.range k).map f) ns := by
  rw [← take_okWrites ((List.range k).map f), ← List.map_take, List.take_range, Nat.min_eq_left h]

/-- A DRAW whose frame and first chunks are answered `Ok` stands before its next chunk. -/
theorem exec_draw_prefix {s : State} {w h : Dim} {n ns tail} (hp : s.phase = .idle) (hs : sizeOk w h = true)
    (hw : w ≠ 0) (hh : h ≠ 0) (hr : s.replies = okReplies (n::ns) tail) (hl : ns.length < (h.toNat + 7)/8) :
   ∃ t m, exec (.draw w h) s = .next (payload (m+1) t) ∧ m + 1 + ns.length = (h.toNat+7)/8 ∧ t.replies = tail ∧
     AtChunk t ns.length ∧ t.w = w ∧ t.h = h ∧ t.pix = s.pix ∧ t.phase = .busy ∧ t.result = s.result ∧
     t = { drawBuilt s w h with npix := t.npix, pixi := t.pixi, cb := t.cb, clen := t.clen, seq := t.seq,
                                inFlight := t.inFlight, replies := t.replies, events := t.events } ∧
     t.events = s.events ++ [.accept (.draw w h)] ++ okWrites ((drawWrites s.pix w h).take (n::ns).length) (n::ns) := by
    rw [exec_draw hp hs hw hh]
    have hr' : (drawBuilt s w h).replies = .answer (.ok n) :: okReplies ns tail := by simpa [okReplies, drawBuilt,
      buildFrame] using hr
    rw [txWrite_ok _ _ _ _ _ hr']
    simp only [streamPixels]
    generalize hg : ({ drawBuilt s w h with replies := okReplies ns tail, inFlight := false, events :=
      (drawBuilt s w h).events ++ [.write (regionFrame 0 0 (w-1) (h-1) 197) (.ok n)] } : State) = u
    have huh : u.h = h := by subst hg; simp [drawBuilt, buildFrame]
    have huw : u.w = w := by subst hg; simp [drawBuilt, buildFrame]
    have hup : u.pix = s.pix := by subst hg; simp [drawBuilt, buildFrame]
    have hue : u.events = s.events ++ [.accept (.draw w h), .write (regionFrame 0 0 (w-1) (h-1) 197) (.ok n)] :=
      by subst hg; simp [drawBuilt, buildFrame]
    have hupr : u.phase = .busy ∧ u.result = s.result := by subst hg; simp [drawBuilt, buildFrame]
    obtain ⟨m, hm⟩ : ∃ m, m + 1 + ns.length = (h.toNat + 7)/8 := ⟨(h.toNat+7)/8 - 1 - ns.length, by omega⟩
    obtain ⟨t, h1, h2, h3, h4, h5, h6, _⟩ := payload_ok (tail := tail) ns (m+1) (beginPayload u) 0 (atChunk_zero u)
      (by simp [huh]; omega) (by subst hg; simp)
    have hcc : chunkCount u.h = (m+1) + ns.length := by simp [chunkCount, huh]; omega
    have hdh : (drawBuilt s w h).h = u.h := by subst hg; rfl
    rw [hdh, hcc, h1]
    refine ⟨t, m, rfl, hm, h2, ?_, by rw [h5]; simpa using huw, by rw [h5]; simpa using huh, by rw [h5]; simpa using hup,
      by rw [h5]; simpa using hupr.1, by rw [h5]; simpa using hupr.2, by rw [h5]; subst hg; rfl, ?_⟩
    · rcases h4 with h4 | ⟨h4, _⟩
      · simpa using h4
      · omega
    · rw [h3, take_okWrites, drawWrites_eq]
      simp [hue, okWrites, huh, huw, hup]
      exact range_okWrites _ _ _ (by omega)

/-- One more write answered `Ok`. -/
theorem okWrites_snoc {b : List Byte} {m : Nat} : ∀ (ws : List (List Byte)) (ns : List Nat), ws[ns.length]? = some b →
    okWrites ws (ns ++ [m]) = okWrites ws ns ++ [.write b (.ok m)]
  | [], ns, h => by simp at h
  | w :: ws, [], h => by simp at h; simp [okWrites, h]
  | w :: ws, n :: ns, h => by
    have := okWrites_snoc (m := m) ws ns (by simpa using h)
    simp only [okWrites, List.cons_append, List.zipWith_cons_cons] at this ⊢
    rw [this]

/-- Writes answered `Ok`, one for each, are recorded as they are. -/
theorem writesOf_okWrites (ws : List (List Byte)) (ns : List Nat) (h : ns.length = ws.length) :
    (writesOf (okWrites ws ns)).map Prod.fst = ws := by
  induction ws generalizing ns with
  | nil => rfl
  | cons w ws ih =>
    cases ns with
    | nil => cases h
    | cons n ns =>
      show w :: (writesOf (okWrites ws ns)).map Prod.fst = _
      rw [ih ns (by simpa using h)]

/-- The write that is next. -/
theorem drawWrites_get {t : State} {k : Nat} {w h : Dim} {m : PixMem} (hc : AtChunk t k) (hw : t.w = w) (hh : t.h = h)
    (hp : t.pix = m) (hk : k < (h.toNat+7)/8) : (drawWrites m w h)[k+1]? = some (fillChunk t).cb := by
  rw [fillChunk_cb_eq hc, drawWrites_eq, hw, hh, hp]
  simp [hk]

end Sys2Proof.Machine
end

