-- ==== Sys2Proof/Laws/PerInstr.lean ====
section
/-! SUPPORT. A statement for every instruction: its encoding has as many bytes as its row of the opcode table (spec 30_encoding.md
R60, R70). -/

/-- The encoding of an instruction is as long as its format says. -/
def Sys2Proof.Laws.EncodedLength.Statement (i : Sys2Proof.Instr) : Prop :=
  (Sys2Proof.encode i).length = i.format.size

theorem Sys2Proof.Laws.EncodedLength.region (op : Sys2Proof.Opcode) (x y ex ey : Sys2Proof.Coord) :
    Sys2Proof.Laws.EncodedLength.Statement (.region op x y ex ey) := rfl

theorem Sys2Proof.Laws.EncodedLength.clear :
    Sys2Proof.Laws.EncodedLength.Statement .clear := rfl

theorem Sys2Proof.Laws.EncodedLength.toBlack :
    Sys2Proof.Laws.EncodedLength.Statement .toBlack := rfl

theorem Sys2Proof.Laws.EncodedLength.screenOff :
    Sys2Proof.Laws.EncodedLength.Statement .screenOff := rfl

theorem Sys2Proof.Laws.EncodedLength.screenOn :
    Sys2Proof.Laws.EncodedLength.Statement .screenOn := rfl

theorem Sys2Proof.Laws.EncodedLength.setBrightness (level : Sys2Proof.Byte) :
    Sys2Proof.Laws.EncodedLength.Statement (.setBrightness level) := rfl

theorem Sys2Proof.Laws.EncodedLength.setOrientation (o : Sys2Proof.Orientation) :
    Sys2Proof.Laws.EncodedLength.Statement (.setOrientation o) := rfl

theorem Sys2Proof.Laws.EncodedLength.draw (w h : Sys2Proof.Dim) :
    Sys2Proof.Laws.EncodedLength.Statement (.draw w h) := rfl

theorem Sys2Proof.Laws.EncodedLength.frameReset (x y ex ey : Sys2Proof.Coord) :
    Sys2Proof.Laws.EncodedLength.Statement (.frameReset x y ex ey) := rfl

theorem Sys2Proof.Laws.EncodedLength.frameClear (x y ex ey : Sys2Proof.Coord) :
    Sys2Proof.Laws.EncodedLength.Statement (.frameClear x y ex ey) := rfl

theorem Sys2Proof.Laws.EncodedLength.frameToBlack (x y ex ey : Sys2Proof.Coord) :
    Sys2Proof.Laws.EncodedLength.Statement (.frameToBlack x y ex ey) := rfl

theorem Sys2Proof.Laws.EncodedLength.frameScreenOff (x y ex ey : Sys2Proof.Coord) :
    Sys2Proof.Laws.EncodedLength.Statement (.frameScreenOff x y ex ey) := rfl

theorem Sys2Proof.Laws.EncodedLength.frameScreenOn (x y ex ey : Sys2Proof.Coord) :
    Sys2Proof.Laws.EncodedLength.Statement (.frameScreenOn x y ex ey) := rfl

theorem Sys2Proof.Laws.EncodedLength.frameSetBrightness (x y ex ey : Sys2Proof.Coord) :
    Sys2Proof.Laws.EncodedLength.Statement (.frameSetBrightness x y ex ey) := rfl

theorem Sys2Proof.Laws.EncodedLength.frameSetOrientation (x y ex ey : Sys2Proof.Coord) :
    Sys2Proof.Laws.EncodedLength.Statement (.frameSetOrientation x y ex ey) := rfl

theorem Sys2Proof.Laws.EncodedLength.frameDisplayBitmap (x y ex ey : Sys2Proof.Coord) :
    Sys2Proof.Laws.EncodedLength.Statement (.frameDisplayBitmap x y ex ey) := rfl

theorem Sys2Proof.Laws.EncodedLength.frameOrient11 (o : Sys2Proof.Orientation) :
    Sys2Proof.Laws.EncodedLength.Statement (.frameOrient11 o) := rfl

theorem Sys2Proof.Laws.EncodedLength.pixel (r5 : BitVec 5) (g6 : BitVec 6) (b5 : BitVec 5) :
    Sys2Proof.Laws.EncodedLength.Statement (.pixel r5 g6 b5) := rfl
end

