-- ==== Sys2Proof/Laws/Run.lean ====
section
/-! SUPPORT. Fetching stage by stage, and runs of several steps. -/

namespace Sys2Proof.Machine

/-- IDLE, the descriptor on CMD is taken. -/
theorem fetch_issue {s : State} {d : Descriptor} {rest : List HostMove} (hp : s.phase = .idle) (hh : s.host = .issue d :: rest) :
    fetch s = some (decodeCmd d, { s with host := rest }) := by
  simp only [fetch, hh, hp]

/-- At SEND_FRAME the frame in FB is taken. -/
theorem fetch_sendFrame {s : State} (hp : s.phase = .busy) (hq : s.seq = .sendFrame) (hr : resetNext s = false) :
    fetch s = (decode (frameFormat s) (frameBytes s)).toOption.map fun i => (i, s) := by
  unfold fetch
  rw [hp, hq]
  match hh : s.host with
  | [] => rfl
  | .reset :: _ => simp [resetNext, hh] at hr
  | .issue _ :: _ => rfl
  | .putPixel _ _ :: _ => rfl

/-- At FILL the next pixel is taken. -/
theorem fetch_fill {s : State} (hp : s.phase = .busy) (hq : s.seq = .fill) (hr : resetNext s = false)
    (hlt : nextPixel s < s.w.toNat * s.h.toNat) :
    fetch s = some (pixelInstr (s.pix.read (nextPixel s)), s) := by
  unfold fetch
  rw [hp, hq]
  match hh : s.host with
  | [] => simp [hlt]
  | .reset :: _ => simp [resetNext, hh] at hr
  | .issue _ :: _ => simp [hlt]
  | .putPixel _ _ :: _ => simp [hlt]

/-- At every other stage nothing is taken. -/
theorem fetch_none {s : State} (hp : s.phase = .busy) (h1 : s.seq ≠ .sendFrame) (h2 : s.seq ≠ .fill) : fetch s = none := by
  unfold fetch
  rw [hp]
  split <;> simp_all

theorem step_of_fetch {s t : State} {i : Instr} (h : fetch s = some (i, t)) : step s = exec i t := by
  simp only [step, h]

theorem step_of_none {s : State} (h : fetch s = none) : step s = advance s := by
  simp only [step, h]

/-- At SEND_CHUNK a step sends the chunk in CB. -/
theorem step_sendChunk {s : State} (hp : s.phase = .busy) (hq : s.seq = .sendChunk) (hr : resetNext s = false) :
    step s = .next (sendChunk afterChunk s) := by
  have hf := fetch_none hp (by simp [hq]) (by simp [hq])
  rw [step_of_none hf]
  rcases advance_cases hf with ⟨rest, h, _⟩ | ⟨_, _, _, h, _⟩ | ⟨h, _⟩ | ⟨_, _, h⟩
  · simp [resetNext, h] at hr
  · simp [hp] at h
  · simp [hp] at h
  · simpa [hq] using h

/-- A run is the host's run of the machine behind its interface. -/
theorem core_run_eq (k : Nat) : ∀ s : State, Sys2Proof.core.run k s = run k s := by
  induction k with
  | zero => intro s; rfl
  | succ k ih =>
    intro s
    refine (Host.Core.run.eq_2 Sys2Proof.core s k).trans ?_
    rw [run]
    cases hs : step s with
    | next t => rw [show Sys2Proof.core.step s = .next t from hs]; exact ih t
    | fault r => rw [show Sys2Proof.core.step s = .fault r from hs]; rfl
    | refused r => rw [show Sys2Proof.core.step s = .refused r from hs]; rfl

/-- A run whose first step answers a next state goes on from there. -/
theorem run_succ {s t : State} (k : Nat) (h : step s = .next t) : run (k + 1) s = run k t := by
  rw [run, h]

/-- A run after a run is one run. -/
theorem run_add (j k : Nat) (s t : State) (h : run j s = .next t) : run (j + k) s = run k t := by
  induction j generalizing s with
  | zero =>
    simp only [run, Host.Outcome.next.injEq] at h
    subst h
    rw [Nat.zero_add]
  | succ j ih =>
    rw [show j + 1 + k = (j + k) + 1 by omega, run]
    rw [run] at h
    cases hs : step s with
    | next u => rw [hs] at h; exact ih u h
    | fault r => rw [hs] at h; cases h
    | refused r => rw [hs] at h; cases h

/-- Where a step changes nothing, no run does. -/
theorem run_fixed {s : State} (h : step s = .next s) (k : Nat) : run k s = .next s := by
  induction k with
  | zero => rfl
  | succ k ih => rw [run_succ k h, ih]

end Sys2Proof.Machine
end

