-- ==== Sys2Proof/Laws/Waiting.lean ====
section
/-! SUPPORT. The frame that stands in FB, executed again as the row it decodes to, is written as it stands. -/

namespace Sys2Proof.Machine

/-- An opcode that a byte is read as has that wire value. -/
theorem wire_of_ofWire {b : Byte} {op : Opcode} (h : Opcode.ofWire b = some op) : op.wire = b := by
  unfold Opcode.ofWire at h
  repeat' split at h
  all_goals first | (cases h; subst_vars; rfl) | cases h

/-- The coordinates that six bytes are read as give those bytes again. -/
theorem regionFrame_of_fields (b0 b1 b2 b3 b4 b5 : Byte) (f : BitVec 48) (hf : f = b0 ++ b1 ++ b2 ++ b3 ++ b4 ++ b5) :
    regionFrame ((f.extractLsb' 38 10).setWidth 16) ((f.extractLsb' 28 10).setWidth 16) ((f.extractLsb' 18 10).setWidth 16)
      ((f.extractLsb' 8 10).setWidth 16) b5 = [b0, b1, b2, b3, b4, b5] := by
  subst hf
  simp only [regionFrame, List.cons.injEq, and_true]
  refine ⟨?_, ?_, ?_, ?_, ?_⟩ <;>
  · apply BitVec.eq_of_getLsbD_eq
    intro i hi
    simp only [BitVec.getLsbD_append, BitVec.getLsbD_or, BitVec.getLsbD_shiftLeft, BitVec.getLsbD_setWidth,
      BitVec.getLsbD_ushiftRight, BitVec.getLsbD_extractLsb', BitVec.getLsbD_and]
    interval_cases i <;> simp

/-- The frame row of an opcode sends its frame. -/
theorem exec_frameInstr (op : Opcode) (x y ex ey : Coord) (s : State) :
    exec (frameInstr op x y ex ey) s = sendWireFrame (regionFrame x y ex ey op.wire) s := by
  cases op <;> rfl

/-- A frame row that bytes decode to sends exactly those bytes. -/
theorem exec_decoded {f : Format} {bs : List Byte} {i : Instr} (hf : f = .r6 ∨ f = .o11) (h : decode f bs = .instr i) (s : State) :
    exec i s = sendWireFrame bs s ∧ bs.length = f.size := by
  rcases hf with rfl | rfl
  · simp only [decode] at h
    split at h
    · next b0 b1 b2 b3 b4 b5 =>
      unfold decodeR6 at h
      split at h
      · next op ho =>
        rw [joined_last] at ho
        have hw := wire_of_ofWire ho
        simp only [Decoded.instr.injEq] at h
        subst h
        refine ⟨?_, rfl⟩
        have hb := regionFrame_of_fields b0 b1 b2 b3 b4 b5 _ rfl
        rw [exec_frameInstr, hw, hb]
      · cases h
    · cases h
  · simp only [decode, decodeO11] at h
    split at h
    · next b6 _ _ _ _ =>
      split at h
      · next hb =>
        simp only [Decoded.instr.injEq] at h
        subst h
        refine ⟨?_, rfl⟩
        simp only [exec, execFrameOrient11, Orientation.code_ofCode, orientFrame_eq_o11Bytes]
        rw [← hb]
      · cases h
    · cases h

/-- Bytes that stand in FB with FLEN their count are loaded there without a change. -/
theorem loadFrame_standing {s : State} {bs : List Byte} (hb : frameBytes s = bs) (hl : bs.length = s.flen.toNat)
    (hn : bs.length = 6 ∨ bs.length = 11) (hq : s.seq = .sendFrame) : loadFrame bs s = s := by
  have hfl : BitVec.ofNat 4 bs.length = s.flen := by rw [hl]; simp
  have hfb : s.fb.load bs = s.fb := by
    rw [← hb, frameBytes, ← hl]
    rcases hn with h | h <;> rw [h] <;> rfl
  unfold loadFrame
  rw [hfl, hfb, ← hq]

/-- At SEND_FRAME the row that FB decodes to is one write of FB as it stands. -/
theorem exec_standing {s : State} {i : Instr} (hp : s.phase = .busy) (hq : s.seq = .sendFrame)
    (h : decode (frameFormat s) (frameBytes s) = .instr i) : exec i s = .next (sendFrame afterFrame s) := by
  have hf : frameFormat s = .r6 ∨ frameFormat s = .o11 := by unfold frameFormat; split <;> simp
  obtain ⟨he, hl⟩ := exec_decoded hf h s
  have hlen : (frameBytes s).length = min s.flen.toNat 11 := by simp [frameBytes, FrameBuf.bytes]
  have hsize : (frameBytes s).length = s.flen.toNat ∧ ((frameBytes s).length = 6 ∨ (frameBytes s).length = 11) := by
    by_cases hx : s.flen = 11
    · rw [hlen, hx]
      decide
    · have hr : frameFormat s = .r6 := by rw [frameFormat, if_neg hx]
      rw [hr] at hl
      have : (frameBytes s).length = 6 := hl
      omega
  rw [he, sendWireFrame, hp, hq]
  rw [loadFrame_standing rfl hsize.1 hsize.2 hq]

end Sys2Proof.Machine
end

