-- ==== Sys2Proof/Tests/Slice0.lean ====
section
/-! SUPPORT. The model's own tests and the witnesses of the statements' hypotheses. Every expected value is taken from
spec 95_test_vectors.md (vectors V, programs P) or from the rule named; none from the model. -/

namespace Sys2Proof.Tests

open Sys2Proof Sys2Proof.Machine

/-! ## Well-formedness: one ill-formed term for each check -/

theorem test_wellFormed_frame_edge : (Instr.frameDisplayBitmap 1023 1023 1023 1023).wellFormed = true := by decide

theorem test_illFormed_frame_x : (Instr.frameReset 1024 0 0 0).wellFormed = false := by decide
theorem test_illFormed_frame_y : (Instr.frameClear 0 1024 0 0).wellFormed = false := by decide
theorem test_illFormed_frame_ex : (Instr.frameToBlack 0 0 1024 0).wellFormed = false := by decide
theorem test_illFormed_frame_ey : (Instr.frameScreenOff 0 0 0 1024).wellFormed = false := by decide
theorem test_illFormed_frame_screenOn : (Instr.frameScreenOn 65535 0 0 0).wellFormed = false := by decide
theorem test_illFormed_frame_setBrightness : (Instr.frameSetBrightness 0 2048 0 0).wellFormed = false := by decide
theorem test_illFormed_frame_setOrientation : (Instr.frameSetOrientation 0 0 4096 0).wellFormed = false := by decide
theorem test_illFormed_frame_displayBitmap : (Instr.frameDisplayBitmap 0 0 0 1024).wellFormed = false := by decide

theorem test_illFormed_line_x : (AsmLine.region 65536 0 0 0 .clear).wellFormed = false := by decide
theorem test_illFormed_line_y : (AsmLine.region 0 65536 0 0 .clear).wellFormed = false := by decide
theorem test_illFormed_line_ex : (AsmLine.region 0 0 65536 0 .clear).wellFormed = false := by decide
theorem test_illFormed_line_ey : (AsmLine.region 0 0 0 65536 .clear).wellFormed = false := by decide
theorem test_illFormed_line_level : (AsmLine.setBrightness 256).wellFormed = false := by decide
theorem test_illFormed_line_w : (AsmLine.draw 65536 320).wellFormed = false := by decide
theorem test_illFormed_line_h : (AsmLine.draw 320 65536).wellFormed = false := by decide

/-! ## Decoding: the word of a vector for every constructor -/

/-- V9. -/
theorem test_decode_region : decodeTableWord 80 0x100002AA015502AA0155 = some (.region .screenOn 682 341 682 341) := by decide
/-- V88: every ignored bit set. -/
theorem test_decode_clear : decodeTableWord 80 0x3FFFFFFFFFFFFFFFFFFF = some .clear := by decide
/-- V95. -/
theorem test_decode_toBlack : decodeTableWord 80 0x40000000000000000000 = some .toBlack := by decide
/-- V94. -/
theorem test_decode_screenOff : decodeTableWord 80 0x60000000000000000000 = some .screenOff := by decide
/-- V93. -/
theorem test_decode_screenOn : decodeTableWord 80 0x80000000000000000000 = some .screenOn := by decide
/-- V89. -/
theorem test_decode_setBrightness : decodeTableWord 80 0xAE640001000200030004 = some (.setBrightness 100) := by decide
/-- V31. -/
theorem test_decode_setOrientation : decodeTableWord 80 0xC3000000000000000000 = some (.setOrientation .reverseLandscape) := by decide
/-- V74. -/
theorem test_decode_draw : decodeTableWord 80 0xE0000140000800000000 = some (.draw 320 8) := by decide
/-- V1. -/
theorem test_decode_frameReset : decodeTableWord 48 0x000000000065 = some (.frameReset 0 0 0 0) := by decide
/-- V3. -/
theorem test_decode_frameClear : decodeTableWord 48 0x0040200C0466 = some (.frameClear 1 2 3 4) := by decide
/-- V8. -/
theorem test_decode_frameToBlack : decodeTableWord 48 0x801002004067 = some (.frameToBlack 512 256 128 64) := by decide
/-- V12. -/
theorem test_decode_frameScreenOff : decodeTableWord 48 0x003FF000006C = some (.frameScreenOff 0 1023 0 0) := by decide
/-- V9. -/
theorem test_decode_frameScreenOn : decodeTableWord 48 0xAA955AA9556D = some (.frameScreenOn 682 341 682 341) := by decide
/-- V16. -/
theorem test_decode_frameSetBrightness : decodeTableWord 48 0x01010101006E = some (.frameSetBrightness 4 16 64 256) := by decide
/-- V15. -/
theorem test_decode_frameSetOrientation : decodeTableWord 48 0x00C0F0FCFF79 = some (.frameSetOrientation 3 15 63 255) := by decide
/-- V7 with V5's opcode byte: the fields of V7, opcode DisplayBitmap of R66. -/
theorem test_decode_frameDisplayBitmap : decodeTableWord 48 0x4FDDF4FDDFC5 = some (.frameDisplayBitmap 319 479 319 479) := by decide
/-- V29. -/
theorem test_decode_frameOrient11 : decodeTableWord 88 0x0000000000796503C80400 = some (.frameOrient11 .reversePortrait) := by decide
/-- V53: (25, 25, 6) is `26 CB` on the wire. -/
theorem test_decode_pixel : decodeTableWord 16 0x26CB = some (.pixel 25 25 6) := by decide

/-- The table's eight known bits of a frame row: the coordinates are zeros (log 15). -/
theorem test_decode_short_word : decodeTableWord 8 0x6C = some (.frameScreenOff 0 0 0 0) := by decide
/-- R69: byte 5 is none of the eight opcodes. -/
theorem test_decode_rejects_opcode : decode .r6 [0, 0, 0, 0, 0, 104] = .rejected .unknownOpcode := by decide
/-- R63: a trailer byte differs. -/
theorem test_decode_rejects_trailer : decode .o11 [0, 0, 0, 0, 0, 121, 100, 3, 200, 4, 1] = .rejected .notTheTemplate := by decide
/-- R60: no frame has seven bytes. -/
theorem test_decode_rejects_length : decode .r6 [0, 0, 0, 0, 0, 102, 0] = .rejected .wrongLength := by decide

/-! ## The assembler -/

/-- V4, with a comment (R76). -/
theorem test_assemble_region :
    assembleText "REGION 10, 20, 0x6D, 219, DisplayBitmap ; comment".toList = some (.region .displayBitmap 10 20 109 219) := by
  decide
/-- V92's operands. -/
theorem test_assemble_draw : assembleText "DRAW 100, 100".toList = some (.draw 100 100) := by decide
/-- R76: level does not fit 8 bits. -/
theorem test_assemble_rejects : assembleText "SET_BRIGHTNESS 256".toList = none := by decide
/-- V30. -/
theorem test_assemble_orientation : assembleText "SET_ORIENTATION Landscape".toList = some (.setOrientation .landscape) := by decide
theorem test_assemble_clear : assembleText "CLEAR".toList = some .clear := by decide

/-! ## Pure functions -/

/-- V21: all coordinates 65535. -/
theorem test_regionFrame_saturates : regionFrame 65535 65535 65535 65535 197 = [0xFF, 0xFF, 0xFF, 0xFF, 0xFF, 0xC5] := by decide
/-- V25 and V24: the ORed bits. -/
theorem test_regionFrame_ors :
    regionFrame 0 65535 0 0 102 = [0x00, 0xFF, 0xF0, 0x00, 0x00, 0x66] ∧
    regionFrame 0 0 0 65535 102 = [0x00, 0x00, 0x00, 0xFF, 0xFF, 0x66] := by decide
/-- V53, V44, V52. -/
theorem test_rgb565 : rgb565 ⟨200, 100, 50⟩ = 0xCB26 ∧ rgb565 ⟨0, 255, 0⟩ = 0x07E0 ∧ rgb565 ⟨248, 252, 248⟩ = 0xFFFF := by decide
/-- V60 to V65, V72, V73: the size check. -/
theorem test_sizeOk :
    sizeOk 320 480 = true ∧ sizeOk 480 320 = true ∧ sizeOk 100 100 = false ∧ sizeOk 319 479 = false ∧
    sizeOk 320 320 = true ∧ sizeOk 640 960 = false ∧ sizeOk 0 0 = false ∧ sizeOk 0 480 = true := by decide

/-! ## One step or one command -/

/-- The IDLE block with these answers to come. -/
def idle (rs : List Reply) : State := { State.reset with replies := rs }

/-- The BUSY block at a stage of a command, with these answers to come. -/
def busyAt (q : Seq) (k : Kind) (rs : List Reply) : State := { State.reset with phase := .busy, seq := q, kind := k, replies := rs }

/-- A draw of 1 x 320 pixels before its last chunk (pixels 312 to 319), at a stage, with this much of the chunk in CB. -/
def drawing (q : Seq) (n : Nat) (flight : Bool) (rs : List Reply) : State :=
  { State.reset with
    phase := .busy, seq := q, kind := .draw, w := 1, h := 320, npix := 320, pixi := 312,
    cb := List.replicate (2 * n) 0, clen := BitVec.ofNat 21 (2 * n), inFlight := flight, replies := rs }

/-- The transport accepts. -/
def ok (n : Nat) : Reply := .answer (.ok n)

/-- The transport fails. -/
def err : Reply := .answer .err

/-- The events of an outcome. -/
def eventsAfter : Host.Outcome State Fault Refusal → List Event
  | .next s => s.events
  | .fault _ => []
  | .refused _ => []

/-- PHASE and RESULT of an outcome. -/
def statusAfter : Host.Outcome State Fault Refusal → Option (Phase × Status)
  | .next s => some (s.phase, s.result)
  | .fault _ => none
  | .refused _ => none

/-- V18: a coordinate above 1023 is ORed into its neighbour, and the command completes with OK. -/
theorem test_region :
    eventsAfter (exec (.region .clear 0 1024 0 0) (idle [ok 6])) =
      [.accept (.region .clear 0 1024 0 0), .write [0, 0x40, 0, 0, 0, 0x66] (.ok 6), .complete .ok] := by decide
/-- V85. -/
theorem test_region_fails :
    eventsAfter (exec (.region .reset 1 2 3 4) (idle [err, ok 6])) =
      [.accept (.region .reset 1 2 3 4), .write [0, 0x40, 0x20, 0x0C, 0x04, 0x65] .err, .complete .writeError] := by decide
/-- V86: the count of `Ok(0)` is ignored. -/
theorem test_clear :
    eventsAfter (exec .clear (idle [ok 0])) = [.accept .clear, .write [0, 0, 0, 0, 0, 0x66] (.ok 0), .complete .ok] := by decide
/-- V82. -/
theorem test_clear_fails : statusAfter (exec .clear (idle [err])) = some (.idle, .writeError) := by decide
/-- R142. -/
theorem test_toBlack :
    eventsAfter (exec .toBlack (idle [ok 6])) = [.accept .toBlack, .write [0, 0, 0, 0, 0, 0x67] (.ok 6), .complete .ok] := by decide
/-- R143. -/
theorem test_screenOff :
    eventsAfter (exec .screenOff (idle [ok 6])) = [.accept .screenOff, .write [0, 0, 0, 0, 0, 0x6C] (.ok 6), .complete .ok] := by decide
/-- P1, step 1. -/
theorem test_screenOn :
    eventsAfter (exec .screenOn (idle [ok 6])) = [.accept .screenOn, .write [0, 0, 0, 0, 0, 0x6D] (.ok 6), .complete .ok] := by decide
/-- P1, step 2. -/
theorem test_setBrightness :
    eventsAfter (exec (.setBrightness 200) (idle [ok 6])) =
      [.accept (.setBrightness 200), .write [0x0D, 0xC0, 0, 0, 0, 0x6E] (.ok 6), .complete .ok] := by decide
/-- V38: the two low bits of x stand at the top of byte 1. -/
theorem test_setBrightness_low_bits :
    writesOf (eventsAfter (exec (.setBrightness 254) (idle [ok 6]))) = [([0, 0x40, 0, 0, 0, 0x6E], .ok 6)] := by decide
/-- V30: one write of eleven bytes. -/
theorem test_setOrientation :
    writesOf (eventsAfter (exec (.setOrientation .landscape) (idle [ok 11]))) =
      [([0, 0, 0, 0, 0, 0x79, 0x66, 0x03, 0xC8, 0x04, 0x00], .ok 11)] := by decide
/-- R204: without an answer the command waits. -/
theorem test_setOrientation_waits : statusAfter (exec (.setOrientation .portrait) (idle [])) = some (.busy, .none) := by decide

/-- Sixteen grey pixels, entry i being (i, i, i), as in P7. -/
def greys : PixMem := (List.range 16).foldl (fun m i => m.write i ⟨BitVec.ofNat 8 i, BitVec.ofNat 8 i, BitVec.ofNat 8 i⟩) ⟨[], [], []⟩

/-- P7, its first three writes, the third failing: nothing follows it (R123). -/
theorem test_draw :
    writesOf (eventsAfter (exec (.draw 1 320) { idle [ok 6, ok 16, err, ok 16] with pix := greys })) =
      [([0x00, 0x00, 0x00, 0x01, 0x3F, 0xC5], .ok 6),
       ([0x00, 0x00, 0x00, 0x00, 0x00, 0x00, 0x00, 0x00, 0x20, 0x00, 0x20, 0x00, 0x20, 0x00, 0x20, 0x00], .ok 16),
       ([0x41, 0x08, 0x41, 0x08, 0x41, 0x08, 0x41, 0x08, 0x61, 0x08, 0x61, 0x08, 0x61, 0x08, 0x61, 0x08], .err)] := by decide
/-- V81: the size check comes before a failing transport. -/
theorem test_draw_wrong_size :
    eventsAfter (exec (.draw 100 100) (idle [err])) = [.accept (.draw 100 100), .complete .wrongImageSize] := by decide

/-- V3's bytes, sent again at SEND_FRAME by the command that waits. -/
theorem test_frameClear :
    eventsAfter (exec (.frameClear 1 2 3 4) (busyAt .sendFrame .region [ok 6])) =
      [.write [0, 0x40, 0x20, 0x0C, 0x04, 0x66] (.ok 6), .complete .ok] := by decide
/-- V5: DRAW goes on to its payload after its frame (R121). -/
theorem test_frameDisplayBitmap :
    statusAfter (exec (.frameDisplayBitmap 0 0 319 479) (busyAt .sendFrame .draw [ok 6])) = some (.busy, .none) := by decide
/-- V1. -/
theorem test_frameReset :
    writesOf (eventsAfter (exec (.frameReset 0 0 0 0) (busyAt .sendFrame .region [err]))) = [([0, 0, 0, 0, 0, 0x65], .err)] := by decide
/-- V8. -/
theorem test_frameToBlack :
    writesOf (eventsAfter (exec (.frameToBlack 512 256 128 64) (busyAt .sendFrame .region [ok 6]))) =
      [([0x80, 0x10, 0x02, 0x00, 0x40, 0x67], .ok 6)] := by decide
/-- V14. -/
theorem test_frameScreenOff :
    writesOf (eventsAfter (exec (.frameScreenOff 0 0 0 1023) (busyAt .sendFrame .region [ok 6]))) =
      [([0x00, 0x00, 0x00, 0x03, 0xFF, 0x6C], .ok 6)] := by decide
/-- V9. -/
theorem test_frameScreenOn :
    writesOf (eventsAfter (exec (.frameScreenOn 682 341 682 341) (busyAt .sendFrame .region [ok 6]))) =
      [([0xAA, 0x95, 0x5A, 0xA9, 0x55, 0x6D], .ok 6)] := by decide
/-- V34's frame. -/
theorem test_frameSetBrightness :
    writesOf (eventsAfter (exec (.frameSetBrightness 155 0 0 0) (busyAt .sendFrame .region [ok 6]))) =
      [([0x26, 0xC0, 0, 0, 0, 0x6E], .ok 6)] := by decide
/-- V15. -/
theorem test_frameSetOrientation :
    writesOf (eventsAfter (exec (.frameSetOrientation 3 15 63 255) (busyAt .sendFrame .region [ok 6]))) =
      [([0x00, 0xC0, 0xF0, 0xFC, 0xFF, 0x79], .ok 6)] := by decide
/-- V28. -/
theorem test_frameOrient11 :
    writesOf (eventsAfter (exec (.frameOrient11 .portrait) (busyAt .sendFrame .orientation [ok 11]))) =
      [([0, 0, 0, 0, 0, 0x79, 0x64, 0x03, 0xC8, 0x04, 0x00], .ok 11)] := by decide
/-- V50: `AA 11` joins CB, and the last pixel of a chunk ends FILL (R25, R27). -/
theorem test_pixel :
    exec (.pixel 2 13 10) (drawing .fill 7 false []) =
      .next { drawing .fill 7 false [] with cb := List.replicate 14 0 ++ [0xAA, 0x11], clen := 16, seq := .sendChunk } := by rfl

/-- R192: reset frees a block that waits, and no result is delivered. -/
theorem test_reset_while_busy :
    statusAfter (step { drawing .sendChunk 8 true [] with host := [.reset] }) = some (.idle, .none) ∧
    eventsAfter (step { drawing .sendChunk 8 true [] with host := [.reset] }) = [] := by decide
/-- R27, R121: the last chunk sent, the command completes. -/
theorem test_last_chunk :
    eventsAfter (step (drawing .sendChunk 8 true [ok 16])) = [.write (List.replicate 16 0) (.ok 16), .complete .ok] := by decide

/-! ## A table word placed for the next step -/

theorem test_fetchWord_command :
    fetch (State.reset.withFetchWord 80 0x1C00000A0014006D00DB) = some (.region .displayBitmap 10 20 109 219, State.reset) := by decide
theorem test_fetchWord_frame :
    (fetch (State.reset.withFetchWord 48 0x028141B4DBC5)).map Prod.fst = some (.frameDisplayBitmap 10 20 109 219) := by decide
theorem test_fetchWord_short_frame :
    (fetch (State.reset.withFetchWord 8 0x66)).map Prod.fst = some (.frameClear 0 0 0 0) := by decide
theorem test_fetchWord_orientation :
    (fetch (State.reset.withFetchWord 88 0x0000000000796603C80400)).map Prod.fst = some (.frameOrient11 .landscape) := by decide
theorem test_fetchWord_pixel :
    (fetch (State.reset.withFetchWord 16 0xAA11)).map Prod.fst = some (.pixel 2 13 10) := by decide

/-! ## Witnesses: states and operands that meet the hypotheses of each statement -/

theorem witness_InRangeFrameLayout : rectInRange 1023 1023 1023 1023 = true ∧ rectInRange 0 0 0 0 = true := by decide

/-- V4's frame, at the edge of the range V10's, and V21's for arbitrary coordinates. -/
theorem witness_RegionFrameInverse :
    (regionFrame 10 20 109 219 197 = [0x02, 0x81, 0x41, 0xB4, 0xDB, 0xC5] ∧ rectInRange 10 20 109 219 = true ∧
      Opcode.ofWire 0xC5 = some .displayBitmap) ∧
    (regionFrame 1023 1023 1023 1023 197 = [0xFF, 0xFF, 0xFF, 0xFF, 0xFF, 0xC5] ∧ rectInRange 1023 1023 1023 1023 = true) ∧
    regionFrame 65535 65535 65535 65535 197 = [0xFF, 0xFF, 0xFF, 0xFF, 0xFF, 0xC5] := by decide

theorem witness_DecodeEncode :
    (Instr.frameClear 1023 0 0 1023).wellFormed = true ∧ (Instr.region .reset 65535 0 1024 0).wellFormed = true := by decide

/-- The three wire formats. -/
theorem witness_EncodeDecodeWire :
    (Format.r6 ≠ .cmd80 ∧ decode .r6 [0x00, 0x40, 0x20, 0x0C, 0x04, 0x66] = .instr (.frameClear 1 2 3 4)) ∧
    (Format.o11 ≠ .cmd80 ∧ decode .o11 [0, 0, 0, 0, 0, 121, 102, 3, 200, 4, 0] = .instr (.frameOrient11 .landscape)) ∧
    (Format.p2 ≠ .cmd80 ∧ decode .p2 [0xAA, 0x11] = .instr (.pixel 2 13 10)) := by decide

/-- Two different descriptors of one command (V89 to V92 and their canonical forms), for each clause. -/
theorem witness_DescriptorFieldsUsed :
    (descSel 0x07C80001000200030004 = 0 ∧ descOpsel 0x07C80001000200030004 = descOpsel 0x04000001000200030004 ∧
      descA 0x07C80001000200030004 = descA 0x04000001000200030004 ∧ descB 0x07C80001000200030004 = descB 0x04000001000200030004 ∧
      descC 0x07C80001000200030004 = descC 0x04000001000200030004 ∧ descD 0x07C80001000200030004 = descD 0x04000001000200030004) ∧
    (descSel 0xAE640001000200030004 = 5 ∧ descLevel 0xAE640001000200030004 = descLevel 0xA0640000000000000000) ∧
    (descSel 0xC2090007000700070007 = 6 ∧ descOrient 0xC2090007000700070007 = descOrient 0xC2000000000000000000) ∧
    (descSel 0xF54D00640064014001E0 = 7 ∧ descA 0xF54D00640064014001E0 = descA 0xE0000064006400000000 ∧
      descB 0xF54D00640064014001E0 = descB 0xE0000064006400000000) ∧
    (descSel 0x3FFFFFFFFFFFFFFFFFFF = 1 ∧ descSel 0x20000000000000000000 = 1) := by decide

/-- The edges of 16 and 8 bits for each number of each line form: the greatest that fits, with its command, and the least that does
not (R76); and one descriptor for each clause on unused fields. -/
theorem witness_AssemblerChecksWidths :
    assemble (.region 65535 65534 65533 65532 .clear) = some (.region .clear 65535 65534 65533 65532) ∧
    assemble (.region 65536 0 0 0 .clear) = none ∧ assemble (.region 0 65536 0 0 .clear) = none ∧
    assemble (.region 0 0 65536 0 .clear) = none ∧ assemble (.region 0 0 0 65536 .clear) = none ∧
    assemble (.setBrightness 255) = some (.setBrightness 255) ∧ assemble (.setBrightness 256) = none ∧
    assemble (.draw 65535 320) = some (.draw 65535 320) ∧ assemble (.draw 320 65535) = some (.draw 320 65535) ∧
    assemble (.draw 65536 320) = none ∧ assemble (.draw 320 65536) = none ∧
    (descSel 0x20000000000000000000 = 1 ∧ descSel 0xA0640000000000000000 = 5 ∧ descSel 0xC2000000000000000000 = 6 ∧
      descSel 0xE0000064006400000000 = 7) := by decide

/-- A dimension at each edge; a chunk about to be filled in one go, PIXI at NPIX too; and, with `witness_MachineInv`, a chunk at
SEND_CHUNK and a pixel at FILL. -/
theorem witness_StreamerNeverOverflows :
    ((1 : Dim) ≠ 0 ∧ (65535 : Dim) ≠ 0) ∧
    (drawing .fill 0 false []).pixi.toNat ≤ (drawing .fill 0 false []).npix.toNat ∧
    ({ drawing .fill 0 false [] with pixi := 320, npix := 320 } : State).pixi.toNat ≤ 320 ∧
    ((drawing .sendChunk 8 true []).phase = .busy ∧ (drawing .sendChunk 8 true []).seq = .sendChunk) ∧
    ((drawing .fill 7 false [ok 16]).phase = .busy ∧ (drawing .fill 7 false [ok 16]).seq = .fill) := by decide

/-- The inputs of every statement about a command of one frame: IDLE, with each kind of answer to come. -/
theorem witness_oneFrame :
    ((idle [ok 6]).phase = .idle ∧ (idle [ok 6]).replies = .answer (.ok 6) :: []) ∧
    ((idle [err, ok 6]).phase = .idle ∧ (idle [err, ok 6]).replies = .answer .err :: [ok 6]) ∧
    ((idle [.pending, err]).phase = .idle ∧ (idle [.pending, err]).replies = .pending :: [err]) ∧
    ((idle []).phase = .idle ∧ (idle []).replies = []) := by decide

theorem witness_RegionRuns : (idle [ok 6]).phase = .idle ∧ (idle [ok 6]).replies = .answer (.ok 6) :: [] ∧ descSel 0x04000001000200030004 = 0 := by decide
theorem witness_ClearRuns : (idle [ok 6]).phase = .idle ∧ (idle [ok 6]).replies = .answer (.ok 6) :: [] ∧ descSel 0x3FFFFFFFFFFFFFFFFFFF = 1 := by decide
theorem witness_ToBlackRuns : (idle [err]).phase = .idle ∧ (idle [err]).replies = .answer .err :: [] ∧ descSel 0x40000000000000000000 = 2 := by decide
theorem witness_ScreenOffRuns : (idle [.pending]).phase = .idle ∧ (idle [.pending]).replies = .pending :: [] ∧ descSel 0x60000000000000000000 = 3 := by decide
theorem witness_ScreenOnRuns : (idle []).phase = .idle ∧ (idle []).replies = [] ∧ descSel 0x80000000000000000000 = 4 := by decide
theorem witness_SetBrightnessRuns :
    (idle [ok 6]).phase = .idle ∧ (idle [ok 6]).replies = .answer (.ok 6) :: [] ∧ descSel 0xA0640000000000000000 = 5 ∧
    regionFrame (brightnessX 100) 0 0 0 110 = [0x26, 0xC0, 0, 0, 0, 0x6E] := by decide
theorem witness_SetOrientationRuns :
    (idle [ok 11]).phase = .idle ∧ (idle [ok 11]).replies = .answer (.ok 11) :: [] ∧ descSel 0xC2090007000700070007 = 6 := by decide

/-- Each of the five pairs. -/
theorem witness_CommandsEqualToRegion :
    (idle [ok 6]).phase = .idle ∧ Instr.region .clear 0 0 0 0 = .region .clear 0 0 0 0 ∧
    Instr.setBrightness 7 = .setBrightness 7 ∧
    Instr.region .setBrightness 248 0 0 0 = .region .setBrightness (BitVec.ofNat 16 (255 - (7 : Byte).toNat)) 0 0 0 := by decide

/-- A command while BUSY, and a step while BUSY with a descriptor waiting on CMD. -/
theorem witness_BusyIgnoresCmd :
    ((Instr.draw 320 480).format = .cmd80 ∧ (busyAt .sendFrame .region []).phase = .busy) ∧
    ((drawing .sendChunk 8 true [ok 16]).phase = .busy ∧
      resetNext { drawing .sendChunk 8 true [ok 16] with host := [.issue 0] } = false ∧
      statusAfter (step { drawing .sendChunk 8 true [ok 16] with host := [.issue 0] }) = some (.idle, .ok)) := by decide

theorem witness_DrawWrongSize : (idle [err]).phase = .idle ∧ sizeOk 100 100 = false ∧ sizeOk 0 0 = false := by decide

/-- Each of the four pairs, and their neighbours that are not degenerate. -/
theorem witness_DrawDegenerateRefused :
    (idle []).phase = .idle ∧ degenerate 0 480 = true ∧ degenerate 0 320 = true ∧ degenerate 320 0 = true ∧
    degenerate 480 0 = true ∧ degenerate 1 480 = false ∧ degenerate 0 0 = false := by decide

/-- V67 (a full chunk and a remainder) and V74 (one chunk and none). -/
theorem witness_DrawCompletes :
    ((idle (okReplies [6, 5120, 640] [err])).phase = .idle ∧ sizeOk 320 9 = true ∧ (320 : Dim) ≠ 0 ∧ (9 : Dim) ≠ 0 ∧
      (idle (okReplies [6, 5120, 640] [err])).replies = okReplies [6, 5120, 640] [err] ∧
      [6, 5120, 640].length = 1 + ((9 : Dim).toNat + 7) / 8) ∧
    ((idle (okReplies [6, 5120] [])).replies = okReplies [6, 5120] [] ∧ sizeOk 320 8 = true ∧ (8 : Dim) ≠ 0 ∧
      [6, 5120].length = 1 + ((8 : Dim).toNat + 7) / 8) := by decide

/-- V76 (the first write fails) and V79 (the last). -/
theorem witness_DrawFailsAtNthWrite :
    ((idle [err]).phase = .idle ∧ sizeOk 320 480 = true ∧ (320 : Dim) ≠ 0 ∧ (480 : Dim) ≠ 0 ∧
      (idle [err]).replies = okReplies [] (.answer .err :: []) ∧ ([] : List Nat).length ≤ ((480 : Dim).toNat + 7) / 8) ∧
    (sizeOk 320 9 = true ∧ (9 : Dim) ≠ 0 ∧ (idle [ok 6, ok 5120, err]).replies = okReplies [6, 5120] (.answer .err :: []) ∧
      [6, 5120].length ≤ ((9 : Dim).toNat + 7) / 8) := by decide

/-- Waiting at the frame with an exhausted tape, and at the last chunk with a pending reply. -/
theorem witness_DrawWaitsForAnswer :
    ((idle []).phase = .idle ∧ sizeOk 320 480 = true ∧ (320 : Dim) ≠ 0 ∧ (480 : Dim) ≠ 0 ∧
      (idle []).replies = okReplies [] [] ∧ ([] : List Nat).length ≤ ((480 : Dim).toNat + 7) / 8) ∧
    (sizeOk 320 9 = true ∧ (9 : Dim) ≠ 0 ∧ (idle [ok 6, ok 5120, .pending, err]).replies = okReplies [6, 5120] (.pending :: [err]) ∧
      [6, 5120].length ≤ ((9 : Dim).toNat + 7) / 8) := by decide

theorem witness_DrawFrame : statusAfter (exec (.draw 320 480) (idle [])) = some (.busy, .none) := by decide

/-- A draw of 320 x 1 that completes, and a SET_ORIENTATION. -/
theorem witness_WriteTotals :
    ((idle [ok 6, ok 640]).phase = .idle ∧ (Instr.draw 320 1).format = .cmd80 ∧
      statusAfter (exec (.draw 320 1) (idle [ok 6, ok 640])) = some (.idle, .ok)) ∧
    ((Instr.setOrientation .portrait).format = .cmd80 ∧
      statusAfter (exec (.setOrientation .portrait) (idle [ok 11])) = some (.idle, .ok)) := by decide

/-- SEND_FRAME, for a command of one frame and for DRAW, with each kind of answer to come. -/
theorem witness_RegionFramesSend :
    ((busyAt .sendFrame .region [ok 6]).phase = .busy ∧ (busyAt .sendFrame .region [ok 6]).seq = .sendFrame ∧
      (busyAt .sendFrame .region [ok 6]).replies = .answer (.ok 6) :: [] ∧ (busyAt .sendFrame .region [ok 6]).kind ≠ .draw) ∧
    ((busyAt .sendFrame .draw [ok 6]).kind = .draw ∧ (busyAt .sendFrame .draw [ok 6]).replies = .answer (.ok 6) :: []) ∧
    (busyAt .sendFrame .region [err]).replies = .answer .err :: [] ∧
    (busyAt .sendFrame .region [.pending, ok 6]).replies = .pending :: [ok 6] ∧
    (busyAt .sendFrame .region []).replies = [] := by decide

theorem witness_OrientationFrameSends :
    (busyAt .sendFrame .orientation [ok 11]).phase = .busy ∧ (busyAt .sendFrame .orientation [ok 11]).seq = .sendFrame ∧
    (busyAt .sendFrame .orientation [ok 11]).replies = .answer (.ok 11) :: [] ∧
    (busyAt .sendFrame .orientation [ok 11]).kind ≠ .draw := by decide

theorem witness_PixelJoinsChunk : (drawing .fill 7 false []).phase = .busy ∧ (drawing .fill 7 false []).seq = .fill := by decide

/-- A frame row at another stage and while IDLE, a pixel row at another stage. -/
theorem witness_WireRowsOnlyAtTheirStage :
    ((Instr.frameClear 0 0 0 0).format = .r6 ∧ ¬ ((idle [ok 6]).phase = .busy ∧ (idle [ok 6]).seq = .sendFrame)) ∧
    ((Instr.frameOrient11 .portrait).format = .o11 ∧ ¬ ((busyAt .fill .draw []).phase = .busy ∧ (busyAt .fill .draw []).seq = .sendFrame)) ∧
    ((Instr.pixel 0 0 0).format = .p2 ∧ ¬ ((busyAt .sendFrame .draw []).phase = .busy ∧ (busyAt .sendFrame .draw []).seq = .fill)) := by
  decide

/-- The block that waits with V4's frame. -/
def waiting : State := { loadFrame [2, 129, 65, 180, 219, 197] (busyAt .sendFrame .region []) with inFlight := true }

theorem witness_WaitingFrameUnchanged :
    waiting.phase = .busy ∧ waiting.seq = .sendFrame ∧
    decode (frameFormat waiting) (frameBytes waiting) = .instr (.frameDisplayBitmap 10 20 109 219) ∧ waiting.replies = [] ∧
    ({ waiting with replies := [.pending, ok 6] } : State).replies = .pending :: [ok 6] := by decide

/-- Each of the three stages at which an instruction is taken. -/
theorem witness_StepRunsDecoded :
    ((placeCommand 0x20000000000000000000 State.reset).phase = .idle ∧
      (placeCommand 0x20000000000000000000 State.reset).host = .issue 0x20000000000000000000 :: [] ∧
      decode .cmd80 (descBytes 0x20000000000000000000) = .instr .clear) ∧
    (waiting.phase = .busy ∧ waiting.seq = .sendFrame ∧ resetNext waiting = false ∧
      decode (frameFormat waiting) (frameBytes waiting) = .instr (.frameDisplayBitmap 10 20 109 219)) ∧
    ((drawing .fill 7 false []).phase = .busy ∧ (drawing .fill 7 false []).seq = .fill ∧
      resetNext (drawing .fill 7 false []) = false ∧
      (drawing .fill 7 false []).pixi.toNat + (drawing .fill 7 false []).clen.toNat / 2 <
        (drawing .fill 7 false []).w.toNat * (drawing .fill 7 false []).h.toNat) := by decide

/-- A chunk sent with each kind of answer to come: with pixels remaining after it, as the last one, and waiting twice. -/
theorem witness_ResumedChunkSends :
    ((drawing .sendChunk 8 true [ok 16]).phase = .busy ∧ (drawing .sendChunk 8 true [ok 16]).seq = .sendChunk ∧
      resetNext (drawing .sendChunk 8 true [ok 16]) = false ∧
      (drawing .sendChunk 8 true [ok 16]).replies = .answer (.ok 16) :: [] ∧
      (drawing .sendChunk 8 true [ok 16]).npix.toNat ≤
        ((drawing .sendChunk 8 true [ok 16]).pixi + BitVec.ofNat 32 ((drawing .sendChunk 8 true [ok 16]).clen.toNat / 2)).toNat) ∧
    (({ drawing .sendChunk 8 true [ok 16] with pixi := 304 } : State).pixi +
        BitVec.ofNat 32 ((drawing .sendChunk 8 true [ok 16]).clen.toNat / 2)).toNat <
      (drawing .sendChunk 8 true [ok 16]).npix.toNat ∧
    (drawing .sendChunk 8 true [err, ok 16]).replies = .answer .err :: [ok 16] ∧
    (drawing .sendChunk 8 true [.pending, .pending, ok 16]).replies = List.replicate (1 + 1) .pending ++ [ok 16] ∧
    (drawing .sendChunk 8 true []).replies = [] := by decide

theorem witness_HardwareReset : ({ waiting with host := [.reset, .issue 0] } : State).host = .reset :: [.issue 0] := by decide

theorem witness_FillPixelReads :
    ({ State.reset with host := [.putPixel 3 ⟨255, 0, 0⟩] } : State).phase = .idle ∧
    ({ State.reset with host := [.putPixel 3 ⟨255, 0, 0⟩] } : State).host = .putPixel 3 ⟨255, 0, 0⟩ :: [] ∧
    ({ State.reset with host := [.putPixel 3 ⟨255, 0, 0⟩] } : State).pix.wf := by decide

/-- BUSY, and IDLE with a descriptor next. -/
theorem witness_PixNeverWritten :
    (waiting.phase = .busy ∧ statusAfter (step waiting) = some (.busy, .none)) ∧
    (fillsNext (placeCommand 0x20000000000000000000 (idle [ok 6])) = false ∧
      statusAfter (step (placeCommand 0x20000000000000000000 (idle [ok 6]))) = some (.idle, .ok)) := by decide

/-- A step that begins a command and one that ends it. -/
theorem witness_OneResultPerCommand :
    (resetNext (placeCommand 0x20000000000000000000 State.reset) = false ∧
      statusAfter (step (placeCommand 0x20000000000000000000 State.reset)) = some (.busy, .none)) ∧
    (resetNext { waiting with replies := [ok 6] } = false ∧
      statusAfter (step { waiting with replies := [ok 6] }) = some (.idle, .ok)) := by decide

theorem witness_ResultOnlyByComplete :
    resetNext { waiting with replies := [err] } = false ∧
    statusAfter (step { waiting with replies := [err] }) = some (.idle, .writeError) := by decide

/-- A step that delivers a result. -/
theorem witness_ResultAndPhaseCodes :
    resetNext { waiting with replies := [ok 6] } = false ∧
    statusAfter (step { waiting with replies := [ok 6] }) = some (.idle, .ok) ∧
    resultsOf (eventsAfter (step { waiting with replies := [ok 6] })) = [.ok] := by decide

theorem witness_WriteErrorEndsCommand :
    statusAfter (step { waiting with replies := [err, ok 6] }) = some (.idle, .writeError) ∧
    writesOf (eventsAfter (step { waiting with replies := [err, ok 6] })) = [([2, 129, 65, 180, 219, 197], .err)] := by decide

/-- The invariant in the middle of a draw's payload, with a write in flight and with pixels missing, and at SEND_FRAME. -/
theorem witness_MachineInv :
    MachineInv (drawing .sendChunk 8 true []) ∧ MachineInv (drawing .fill 7 false [ok 16]) ∧ MachineInv waiting := by
  refine ⟨⟨by decide, by decide, by decide, by decide, by decide, fun _ _ => ⟨by decide, by decide, by decide, by decide, by decide, by decide⟩, by decide, by decide⟩,
    ⟨by decide, by decide, by decide, by decide, by decide, fun _ _ => ⟨by decide, by decide, by decide, by decide, by decide, by decide⟩, by decide, by decide⟩,
    ⟨by decide, by decide, by decide, by decide, by decide, fun _ h => absurd h (by decide), by decide, by decide⟩⟩

/-- With `witness_MachineInv`: steps from those states that answer a next state, a write among their events. -/
theorem witness_WriteSizes :
    writesOf (eventsAfter (step (drawing .sendChunk 8 true [ok 16]))) = [(List.replicate 16 0, .ok 16)] ∧
    statusAfter (step (drawing .sendChunk 8 true [ok 16])) = some (.idle, .ok) := by decide

/-- With `witness_MachineInv`: the steps answer next states. -/
theorem witness_StepKeepsInv :
    statusAfter (step (drawing .sendChunk 8 true [])) = some (.busy, .none) ∧
    statusAfter (step (drawing .fill 7 false [ok 16])) = some (.busy, .none) ∧
    statusAfter (step waiting) = some (.busy, .none) := by decide

/-- A command of each kind that FrameLengthByOpcode tells apart, completed. -/
theorem witness_FrameLengthByOpcode :
    (idle [ok 11]).phase = .idle ∧ (Instr.setOrientation .portrait).format = .cmd80 ∧
    (writesOf (eventsAfter (exec (.setOrientation .portrait) (idle [ok 11])))).head? =
      some ([0, 0, 0, 0, 0, 0x79, 0x64, 0x03, 0xC8, 0x04, 0x00], .ok 11) ∧
    (writesOf (eventsAfter (exec (.draw 320 480) (idle [ok 6])))).head? = some ([0, 0, 4, 0xFD, 0xDF, 0xC5], .ok 6) ∧
    (statusAfter (exec (.setOrientation .portrait) (idle [])) = some (.busy, .none) ∧
      writesOf (eventsAfter (exec (.setOrientation .portrait) (idle []))) = []) ∧
    (waiting.phase = .busy ∧ waiting.seq = .sendFrame ∧ resetNext waiting = false ∧
      statusAfter (step waiting) = some (.busy, .none) ∧
      statusAfter (step { waiting with replies := [ok 6] }) = some (.idle, .ok)) := by decide

theorem witness_FrameLengthByOpcode_notRegion : ∀ op x y ex ey, Instr.draw 320 480 ≠ .region op x y ex ey := by
  intro op x y ex ey h; cases h

/-- The record of the draw of 1 x 320 before its last chunk: its frame and 39 chunks, all answered. -/
def recorded (q : Seq) (n : Nat) (flight : Bool) (rs : List Reply) : State :=
  { drawing q n flight rs with
    events := [.accept (.draw 1 320)] ++ okWrites (drawWrites ⟨[], [], []⟩ 1 320) (List.replicate 40 16) }

/-- It meets the invariant of the record. -/
theorem recorded_record (q : Seq) (n : Nat) (flight : Bool) (rs : List Reply) (hq : q = .fill ∨ q = .sendChunk) :
    RecordInv (recorded q n flight rs) := fun _ =>
  ⟨.draw 1 320, [], List.replicate 40 16, rfl, rfl, fun h => (by rcases hq with rfl | rfl <;> cases h),
    fun _ => ⟨rfl, show 40 = 1 + (312 : PixIdx).toNat / (8 * (1 : Dim).toNat) by decide⟩⟩

/-- Both invariants, resumed at the last chunk with each kind of answer, at FILL, and at SEND_FRAME with a command's frame (the IDLE
states of the other witnesses meet RecordInv, as nothing runs). -/
theorem witness_CommandRecordKept :
    (MachineInv (recorded .sendChunk 8 true [ok 16]) ∧ RecordInv (recorded .sendChunk 8 true [ok 16]) ∧
      (recorded .sendChunk 8 true [ok 16]).phase = .busy ∧ resetNext (recorded .sendChunk 8 true [ok 16]) = false ∧
      statusAfter (step (recorded .sendChunk 8 true [ok 16])) = some (.idle, .ok)) ∧
    (RecordInv (recorded .sendChunk 8 true [err]) ∧
      statusAfter (step (recorded .sendChunk 8 true [err])) = some (.idle, .writeError)) ∧
    (RecordInv (recorded .fill 7 false []) ∧ statusAfter (step (recorded .fill 7 false [])) = some (.busy, .none)) ∧
    RecordInv { waiting with events := [.accept (.region .displayBitmap 10 20 109 219)] } := by
  refine ⟨⟨⟨by decide, by decide, by decide, by decide, by decide,
      fun _ _ => ⟨by decide, by decide, by decide, by decide, by decide, by decide⟩, by decide, by decide⟩,
    recorded_record _ _ _ _ (.inr rfl), by decide, by decide, by decide⟩,
    ⟨recorded_record _ _ _ _ (.inr rfl), by decide⟩, ⟨recorded_record _ _ _ _ (.inl rfl), by decide⟩, ?_⟩
  exact fun _ => ⟨.region .displayBitmap 10 20 109 219, [], [], rfl, rfl,
    fun _ => ⟨rfl, rfl, fun h => (by cases h), fun _ w h he => (by cases he)⟩,
    fun h => (by rcases h with h | h <;> cases h)⟩

/-- A state of the invariant whose host issues the degenerate DRAW 0, 480 (V75): the step is refused. -/
theorem witness_NoFaultUnderInv :
    MachineInv (placeCommand 0xE000000001E000000000 State.reset) ∧
    step (placeCommand 0xE000000001E000000000 State.reset) = .refused .degenerateDraw := by
  refine ⟨⟨by decide, by decide, by decide, by decide, by decide, fun h => absurd h (by decide), by decide, by decide⟩, by rfl⟩

/-- A state of the invariant whose host issues DRAW 320, 480. -/
theorem witness_RunsAreSafe :
    MachineInv (placeCommand 0xE000014001E000000000 State.reset) ∧
    hostAvoidsDegenerate (placeCommand 0xE000014001E000000000 State.reset) := by
  refine ⟨⟨by decide, by decide, by decide, by decide, by decide, fun h => absurd h (by decide), by decide, by decide⟩, ?_⟩
  intro d hd w h hw
  simp only [placeCommand, State.reset, List.mem_singleton, HostMove.issue.injEq] at hd
  subst hd
  have hd : decodeCmd 0xE000014001E000000000 = .draw 320 480 := by decide
  rw [hd] at hw
  cases hw
  decide

/-- R208: the end of a run of no command, of one that completed, of one that waits (R174), of one whose last command a reset took
(R192), and of one with a command left. -/
theorem test_runEnded :
    RunEnded State.reset ∧
    RunEnded { State.reset with events := [.accept .clear, .write [0, 0, 0, 0, 0, 102] .err, .complete .writeError] } ∧
    ¬ RunEnded waiting ∧ ¬ RunEnded { State.reset with events := [.accept .clear] } ∧
    ¬ RunEnded (placeCommand 0x20000000000000000000 State.reset) :=
  ⟨⟨by decide, by decide, by decide⟩, ⟨by decide, by decide, by decide⟩, fun h => absurd h.idle (by decide),
    fun h => absurd h.completed (by decide), fun h => absurd h.noneLeft (by decide)⟩

/-- DRAW 320, 480 with exactly its 61 answers, and an ended run whose host fills a pixel and resets. -/
theorem witness_AnsweredRunsEnd :
    ((idle (List.replicate 61 (ok 6))).phase = .idle ∧
      commandOpen false (placeCommand 0xE000014001E000000000 (idle (List.replicate 61 (ok 6)))).events = false ∧
      hostAvoidsDegenerate (placeCommand 0xE000014001E000000000 (idle (List.replicate 61 (ok 6)))) ∧
      writeBounds (commandsOf (placeCommand 0xE000014001E000000000 (idle (List.replicate 61 (ok 6)))).host) = 61 ∧
      (List.replicate 61 (ok 6)).length = 61 ∧ ∀ r ∈ List.replicate 61 (ok 6), r ≠ .pending) ∧
    RunEnded { State.reset with host := [.putPixel 3 ⟨255, 0, 0⟩, .reset], events := [.accept .clear, .complete .ok] } := by
  refine ⟨⟨by decide, by decide, witness_RunsAreSafe.2, by decide, by decide, ?_⟩, ⟨by decide, by decide, by decide⟩⟩
  intro r hr
  rw [List.eq_of_mem_replicate hr]
  decide

/-- BUSY states that differ in dead latches: X and LVL while a chunk is sent, FB[6] while a region frame waits. -/
theorem witness_DeadLatchesDoNotMatter :
    (SameOutside (drawing .sendChunk 8 true []) { drawing .sendChunk 8 true [] with x := 0, lvl := 7 } ∧
      SameLive (drawing .sendChunk 8 true []) { drawing .sendChunk 8 true [] with x := 0, lvl := 7 }) ∧
    (SameOutside waiting { waiting with fb := { waiting.fb with b6 := 0 } } ∧
      SameLive waiting { waiting with fb := { waiting.fb with b6 := 0 } }) := by
  refine ⟨⟨⟨rfl, rfl, rfl, rfl, rfl, rfl⟩, fun _ => ⟨rfl, rfl, fun _ => ⟨rfl, rfl⟩, fun _ => ⟨rfl, rfl⟩, fun h => absurd h (by decide),
    fun _ => ⟨rfl, rfl⟩, fun _ => ⟨rfl, rfl, rfl, rfl, rfl, rfl⟩⟩⟩, ⟨⟨rfl, rfl, rfl, rfl, rfl, rfl⟩, fun _ => ⟨rfl, rfl, fun _ => ⟨rfl, rfl⟩,
    fun _ => ⟨rfl, rfl⟩, fun h => absurd h (by decide), fun _ => ⟨rfl, rfl⟩, fun _ => ⟨rfl, rfl, rfl, rfl, rfl, rfl⟩⟩⟩⟩

/-- Two reset states with different latches. -/
theorem witness_RunsIgnoreResetLatches :
    State.reset.phase = .idle ∧ SameOutside State.reset { State.reset with x := 0, fb := ⟨0, 0, 0, 0, 0, 0, 0, 0, 0, 0, 0⟩, cb := [] } := by
  unfold SameOutside
  decide

theorem witness_NeverAnsweredNeverEnds :
    waiting.phase = .busy ∧ waiting.inFlight = true ∧ waiting.replies = [] ∧ resetNext waiting = false ∧
    (drawing .sendChunk 8 true []).phase = .busy ∧ (drawing .sendChunk 8 true []).inFlight = true ∧
    (drawing .sendChunk 8 true []).replies = [] ∧ resetNext (drawing .sendChunk 8 true []) = false := by decide

theorem witness_SteppedFillIsRangeBytes :
    (drawing .fill 0 false []).phase = .busy ∧ (drawing .fill 0 false []).seq = .fill ∧ (drawing .fill 0 false []).cb = [] ∧
    (drawing .fill 0 false []).clen = 0 ∧ resetNext (drawing .fill 0 false []) = false ∧
    (drawing .fill 0 false []).npix.toNat = (drawing .fill 0 false []).w.toNat * (drawing .fill 0 false []).h.toNat ∧
    (drawing .fill 0 false []).pixi.toNat < (drawing .fill 0 false []).npix.toNat ∧ (drawing .fill 0 false []).w ≠ 0 := by decide

/-- A draw of 1 x 320 whose 40 chunks are all answered, the last with `Err`. -/
theorem witness_SteppedPayloadAgrees :
    (drawing .fill 0 false (List.replicate 39 (ok 16) ++ [err])).phase = .busy ∧
    (drawing .fill 0 false (List.replicate 39 (ok 16) ++ [err])).kind = .draw ∧
    (drawing .fill 0 false (List.replicate 39 (ok 16) ++ [err])).w ≠ 0 ∧
    (drawing .fill 0 false (List.replicate 39 (ok 16) ++ [err])).h ≠ 0 ∧
    resetNext (drawing .fill 0 false (List.replicate 39 (ok 16) ++ [err])) = false ∧
    chunkCount (drawing .fill 0 false (List.replicate 39 (ok 16) ++ [err])).h ≤
      (drawing .fill 0 false (List.replicate 39 (ok 16) ++ [err])).replies.length ∧
    ∀ r ∈ (drawing .fill 0 false (List.replicate 39 (ok 16) ++ [err])).replies.take
        (chunkCount (drawing .fill 0 false (List.replicate 39 (ok 16) ++ [err])).h), r ≠ .pending := by decide

end Sys2Proof.Tests
end

/-! # Proofs: what a step does, stage by stage -/

namespace Sys2Proof.Machine

/-! ## A step by phase and stage -/

theorem decoded_eq_instr {r : Decoded} {i : Instr} (h : r.toOption = some i) : r = .instr i := by
  cases r with
  | instr j => rw [Option.some.inj h]
  | rejected _ => cases h

theorem resetNext_eq_false {s : State} (h : ¬ ∃ rest, s.host = .reset :: rest) : resetNext s = false := by
  unfold resetNext
  split
  · next rest hh => exact absurd ⟨rest, hh⟩ h
  · rfl

/-- Reset comes before anything else. -/
theorem step_reset {s : State} {rest : List HostMove} (h : s.host = .reset :: rest) :
    step s = .next (hardReset { s with host := rest }) := by
  rw [step_of_none (by simp [fetch, h])]
  simp [advance, h]

theorem step_issue {s : State} {d : Descriptor} {rest : List HostMove} (hp : s.phase = .idle)
    (hh : s.host = .issue d :: rest) : step s = exec (decodeCmd d) { s with host := rest } :=
  step_of_fetch (fetch_issue hp hh)

theorem step_putPixel {s : State} {j : Nat} {p : Pixel} {rest : List HostMove} (hp : s.phase = .idle)
    (hh : s.host = .putPixel j p :: rest) : step s = .next { s with host := rest, pix := s.pix.write j p } := by
  rw [step_of_none (by simp [fetch, hh, hp])]
  simp [advance, hh, hp]

theorem step_quiet {s : State} (hp : s.phase = .idle) (hh : s.host = []) : step s = .next s := by
  rw [step_of_none (by simp [fetch, hh, hp])]
  simp [advance, hh, hp]

/-- What the stage that the sequencer stands at does (R27). -/
def stageStep (s : State) : Host.Outcome State Fault Refusal :=
  match s.seq with
  | .check => checkSize id s
  | .frame => .next (buildFrame s)
  | .sendFrame => if frameReady s then .next (sendFrame afterFrame s) else .fault .noFrame
  | .fill =>
    if nextPixel s < s.w.toNat * s.h.toNat then .next (fillPixel (rgb565 (s.pix.read (nextPixel s))) s)
    else .fault .pixelOutside
  | .sendChunk => .next (sendChunk afterChunk s)
  | .done => .next (complete .ok s)

theorem exec_pixelInstr {s : State} (p : Pixel) (hp : s.phase = .busy) (hq : s.seq = .fill) :
    exec (pixelInstr p) s = .next (fillPixel (rgb565 p) s) := by
  rw [← packFields_pixel]
  simp only [pixelInstr, exec, execPixel, hp, hq]

/-- A step of a BUSY block that is not reset is its stage. -/
theorem step_busy {s : State} (hp : s.phase = .busy) (hr : resetNext s = false) : step s = stageStep s := by
  rcases step_cases s with ⟨i, u, hf, hs⟩ | ⟨hf, hs⟩ <;> rw [hs, stageStep]
  · rcases fetch_cases hf with ⟨_, ⟨_, _, hi, _⟩ | ⟨_, hq, hd, rfl⟩ | ⟨_, hq, hlt, rfl, rfl⟩⟩
    · simp [hp] at hi
    · simp [hq, frameReady, hd, exec_standing hp hq (decoded_eq_instr hd)]
    · simp [hq, hlt, exec_pixelInstr _ hp hq]
  · rcases advance_cases hf with ⟨_, h, _⟩ | ⟨_, _, _, h, _⟩ | ⟨h, _⟩ | ⟨_, _, h⟩
    · simp [resetNext, h] at hr
    · simp [hp] at h
    · simp [hp] at h
    · rcases h with ⟨hq, ha⟩ | ⟨hq, ha⟩ | ⟨hq, hd, ha⟩ | ⟨hq, hn, ha⟩ | ⟨hq, ha⟩ | ⟨hq, ha⟩ <;> rw [ha, hq]
      · simp [frameReady, hd]
      · simp [hn]

/-- A chunk begins empty at FILL (R25, R121). -/
def emptyChunk (s : State) : State := { s with cb := [], clen := 0, seq := .fill }

/-- After a chunk that is not the last, the next begins empty (R121). -/
theorem afterChunk_more {s : State} (h : (advancePixi s).pixi.toNat < (advancePixi s).npix.toNat) :
    afterChunk s = emptyChunk (advancePixi s) := if_pos h

theorem afterChunk_last {s : State} (h : ¬ (advancePixi s).pixi.toNat < (advancePixi s).npix.toNat) :
    afterChunk s = complete .ok (advancePixi s) := if_neg h

/-! ## Commands by their operands -/

/-- The path of R27 that a command follows. -/
def commandKind : Instr → Kind
  | .setOrientation _ => .orientation
  | .draw _ _ => .draw
  | _ => .region

/-- What a command latches (R95, R121, R141 to R146). The wire rows latch nothing. -/
def commandLatch : Instr → State → State
  | .region op x y ex ey => latchRegion x y ex ey (opcodeRom op.tag)
  | .clear => latchRegion 0 0 0 0 (Opcode.wire .clear)
  | .toBlack => latchRegion 0 0 0 0 (Opcode.wire .toBlack)
  | .screenOff => latchRegion 0 0 0 0 (Opcode.wire .screenOff)
  | .screenOn => latchRegion 0 0 0 0 (Opcode.wire .screenOn)
  | .setBrightness level => latchLevel level
  | .setOrientation o => latchOrientation o.code
  | .draw w h => latchSize w h
  | _ => id

@[simp] theorem commandLatch_phase (i : Instr) (s : State) : (commandLatch i s).phase = s.phase := by cases i <;> rfl
@[simp] theorem commandLatch_result (i : Instr) (s : State) : (commandLatch i s).result = s.result := by cases i <;> rfl
@[simp] theorem commandLatch_kind (i : Instr) (s : State) : (commandLatch i s).kind = s.kind := by cases i <;> rfl
@[simp] theorem commandLatch_inFlight (i : Instr) (s : State) : (commandLatch i s).inFlight = s.inFlight := by cases i <;> rfl
@[simp] theorem commandLatch_pix (i : Instr) (s : State) : (commandLatch i s).pix = s.pix := by cases i <;> rfl
@[simp] theorem commandLatch_host (i : Instr) (s : State) : (commandLatch i s).host = s.host := by cases i <;> rfl
@[simp] theorem commandLatch_replies (i : Instr) (s : State) : (commandLatch i s).replies = s.replies := by cases i <;> rfl
@[simp] theorem commandLatch_events (i : Instr) (s : State) : (commandLatch i s).events = s.events := by cases i <;> rfl

/-- A command of a region frame latches one of the eight opcodes (R67). -/
theorem commandLatch_opc {i : Instr} (hi : i.format = .cmd80) (hk : commandKind i = .region) (s : State) :
    ∃ op : Opcode, (commandLatch i s).opc = op.wire := by
  cases i
  case region op x y ex ey => exact ⟨op, opcodeRom_tag op⟩
  case clear => exact ⟨.clear, rfl⟩
  case toBlack => exact ⟨.toBlack, rfl⟩
  case screenOff => exact ⟨.screenOff, rfl⟩
  case screenOn => exact ⟨.screenOn, rfl⟩
  case setBrightness => exact ⟨.setBrightness, rfl⟩
  case setOrientation => cases hk
  case draw => cases hk
  all_goals cases hi

/-- Every command but DRAW is a command of one frame. -/
theorem exec_oneFrame {i : Instr} (hi : i.format = .cmd80) (hd : commandKind i ≠ .draw) (s : State) :
    exec i s = frameCommand i (commandKind i) (commandLatch i) s := by
  cases i
  case draw => exact absurd rfl hd
  case region => rfl
  case clear => rfl
  case toBlack => rfl
  case screenOff => rfl
  case screenOn => rfl
  case setBrightness => rfl
  case setOrientation => rfl
  all_goals cases hi

theorem exec_draw_idle {s : State} (w h : Dim) (hp : s.phase = .idle) :
    exec (.draw w h) s = checkSize (fun t => sendFrame streamPixels (buildFrame t))
      (commandLatch (.draw w h) (accept (.draw w h) .draw .check s)) := by
  simp only [exec, execDraw, hp]
  rfl

/-- The command that is a DRAW by its path is one. -/
theorem eq_draw_of_kind {i : Instr} (h : commandKind i = .draw) : ∃ w hh, i = .draw w hh := by
  cases i
  case draw w hh => exact ⟨w, hh, rfl⟩
  all_goals cases h

/-- A command offered to a BUSY block changes nothing (R26). -/
theorem exec_command_busy {i : Instr} {s : State} (hi : i.format = .cmd80) (hp : s.phase = .busy) : exec i s = .next s := by
  by_cases hd : commandKind i = .draw
  · obtain ⟨w, h, rfl⟩ := eq_draw_of_kind hd
    simp only [exec, execDraw, hp]
  · rcases frameCommand_cases i (commandKind i) (commandLatch i) s with ⟨_, h⟩ | ⟨h, _⟩
    · rw [exec_oneFrame hi hd, h]
    · simp [hp] at h

end Sys2Proof.Machine

/-! # Proofs: the invariant of the machine -/

namespace Sys2Proof.Machine

/-! ## The invariant at each place where a step can end -/

/-- IDLE, the invariant asks for PIX and for quiet only. -/
theorem machineInv_idle {s : State} (hx : s.pix.wf) (hp : s.phase = .idle) (hf : s.inFlight = false) : MachineInv s where
  pixCanonical := hx
  idleQuiet _ := hf
  busyStage h := by simp [hp] at h
  frameStands h := by simp [hp] at h
  drawSize h := by simp [hp] at h
  payloadStands h := by simp [hp] at h
  filling h := by simp [hp] at h
  chunkWhole h := by simp [hp] at h

theorem machineInv_complete {s : State} (st : Status) (hx : s.pix.wf) (hf : s.inFlight = false) :
    MachineInv (complete st s) :=
  machineInv_idle hx rfl hf

/-- The size of a running DRAW has passed the check (R110, R120). -/
def DrawSized (s : State) : Prop := sizeOk s.w s.h = true ∧ s.w ≠ 0 ∧ s.h ≠ 0

theorem DrawSized.wide {s : State} (h : DrawSized s) : s.w ≠ 0 := h.2.1

theorem DrawSized.high {s : State} (h : DrawSized s) : s.h ≠ 0 := h.2.2

theorem machineInv_sendFrame {s : State} (hx : s.pix.wf) (hp : s.phase = .busy) (hq : s.seq = .sendFrame)
    (hf : frameReady s = true) (hd : s.kind = .draw → DrawSized s) : MachineInv s where
  pixCanonical := hx
  idleQuiet h := by simp [hp] at h
  busyStage _ := .inl hq
  frameStands _ _ := hf
  drawSize _ := hd
  payloadStands _ h := by simp [hq] at h
  filling _ h := by simp [hq] at h
  chunkWhole _ h := by simp [hq] at h

theorem machineInv_fill {s : State} (hx : s.pix.wf) (hp : s.phase = .busy) (hq : s.seq = .fill) (hd : DrawSized s)
    (hpay : PayloadInv s) (hf : s.inFlight = false) (hl : s.clen.toNat < 2 * chunkPixels s) : MachineInv s where
  pixCanonical := hx
  idleQuiet h := by simp [hp] at h
  busyStage _ := .inr (.inl hq)
  frameStands _ h := by simp [hq] at h
  drawSize _ _ := hd
  payloadStands _ _ := hpay
  filling _ _ := ⟨hf, hl⟩
  chunkWhole _ h := by simp [hq] at h

theorem machineInv_sendChunk {s : State} (hx : s.pix.wf) (hp : s.phase = .busy) (hq : s.seq = .sendChunk)
    (hd : DrawSized s) (hpay : PayloadInv s) (hl : s.clen.toNat = 2 * chunkPixels s) : MachineInv s where
  pixCanonical := hx
  idleQuiet h := by simp [hp] at h
  busyStage _ := .inr (.inr hq)
  frameStands _ h := by simp [hq] at h
  drawSize _ _ := hd
  payloadStands _ _ := hpay
  filling _ h := by simp [hq] at h
  chunkWhole _ _ := hl

/-- A write keeps the invariant if waiting for it does and what follows its `Ok` does: `Err` ends the command. -/
theorem machineInv_txWrite {bs : List Byte} {f : State → State} {s : State} (hx : s.pix.wf)
    (hok : ∀ rest es, MachineInv (f { s with replies := rest, inFlight := false, events := es }))
    (hwait : ∀ rest, MachineInv { s with replies := rest, inFlight := true }) : MachineInv (txWrite bs f s) := by
  rcases txWrite_cases bs f s with ⟨n, rest, _, h⟩ | ⟨rest, _, h⟩ | ⟨rest, _, h⟩ <;> rw [h]
  · exact hok _ _
  · exact machineInv_complete _ hx rfl
  · exact hwait rest

/-! ## DRAW's payload -/

/-- A DRAW of a size that passed the check runs, and no write of it is in flight. -/
structure DrawRuns (s : State) : Prop where
  pixCanonical : s.pix.wf
  busy : s.phase = .busy
  kindDraw : s.kind = .draw
  sized : DrawSized s
  quiet : s.inFlight = false

/-- The payload stands at the beginning of a chunk with pixels remaining (R114). -/
structure ChunkDue (s : State) : Prop where
  pixelCount : s.npix.toNat = s.w.toNat * s.h.toNat
  pixelsRemain : s.pixi.toNat < s.npix.toNat
  chunkStart : s.pixi.toNat % (8 * s.w.toNat) = 0

theorem PayloadInv.chunkDue {s : State} (h : PayloadInv s) : ChunkDue s := ⟨h.pixelCount, h.pixelsRemain, h.chunkStart⟩

theorem AtChunk.chunkDue {s : State} {j : Nat} (h : AtChunk s j) (hw : s.w ≠ 0) (hj : j * 8 < s.h.toNat) : ChunkDue s where
  pixelCount := h.pixelCount
  pixelsRemain := by
    rw [h.pixelCount, h.start, show j * (8 * s.w.toNat) = s.w.toNat * (j * 8) by ring]
    exact Nat.mul_lt_mul_of_pos_left hj (toNat_pos hw)
  chunkStart := by rw [h.start, Nat.mul_mod_left]

theorem chunkPixels_pos {s : State} (hw : s.w ≠ 0) (h : s.pixi.toNat < s.npix.toNat) : 0 < chunkPixels s := by
  have := toNat_pos hw
  rw [chunkPixels_eq_min]
  omega

theorem payloadInv_fillChunk {s : State} (hk : s.kind = .draw) (h : ChunkDue s) : PayloadInv (fillChunk s) where
  kindDraw := hk
  pixelCount := h.pixelCount
  pixelsRemain := h.pixelsRemain
  chunkStart := h.chunkStart
  clenEven := by rw [fillChunk_clen_toNat]; omega
  chunkBytes := by rw [fillChunk_clen_toNat, Nat.mul_div_cancel_left _ two_pos]; rfl

/-- Where a chunk is due, the empty chunk that FILL begins with meets the invariant. -/
theorem machineInv_emptyChunk {s : State} (hr : DrawRuns s) (hd : ChunkDue s) :
    MachineInv (emptyChunk s) := by
  refine machineInv_fill hr.pixCanonical hr.busy rfl hr.sized ?_ hr.quiet ?_
  · exact ⟨hr.kindDraw, hd.pixelCount, hd.pixelsRemain, hd.chunkStart, rfl, by simp [emptyChunk, rangeBytes]⟩
  · exact Nat.mul_pos two_pos (chunkPixels_pos (s := s) hr.sized.wide hd.pixelsRemain)

theorem machineInv_beginPayload {s : State} (hr : DrawRuns s) : MachineInv (beginPayload s) := by
  refine machineInv_emptyChunk (s := beginPayload s) ⟨hr.pixCanonical, hr.busy, hr.kindDraw, hr.sized, hr.quiet⟩ ?_
  exact (atChunk_zero s).chunkDue hr.sized.wide (by simpa using toNat_pos hr.sized.high)

/-- A whole chunk waits for its answer. -/
theorem machineInv_chunkWaits {s : State} (hr : DrawRuns s) (hd : ChunkDue s) (rest : List Reply) :
    MachineInv { fillChunk s with replies := rest, inFlight := true } := by
  obtain ⟨hk, hn, hp, hc, he, hb⟩ := payloadInv_fillChunk hr.kindDraw hd
  exact machineInv_sendChunk hr.pixCanonical hr.busy rfl hr.sized ⟨hk, hn, hp, hc, he, hb⟩ (fillChunk_clen_toNat s)

/-- DRAW's loop over the chunks that are due ends in a state of the invariant. -/
theorem machineInv_payload : ∀ (n : Nat) (s : State), DrawRuns s →
    (n ≠ 0 → ∃ j, AtChunk s j ∧ n + j = (s.h.toNat + 7) / 8) → MachineInv (payload n s)
  | 0, _, hr, _ => machineInv_complete _ hr.pixCanonical hr.quiet
  | n + 1, s, hr, hn => by
    obtain ⟨j, hj, hcount⟩ := hn (Nat.succ_ne_zero n)
    have hdue : ChunkDue s := hj.chunkDue hr.sized.wide (by omega)
    rw [payload, sendChunk]
    refine machineInv_txWrite (s := fillChunk s) hr.pixCanonical (fun rest es => ?_) (machineInv_chunkWaits hr hdue)
    refine machineInv_payload n _ ⟨hr.pixCanonical, hr.busy, hr.kindDraw, hr.sized, rfl⟩ fun hn0 => ⟨j + 1, ?_, ?_⟩
    · obtain ⟨ha, hb, hc⟩ := next_chunk (n := 0) (rest := rest) hj (by omega)
      exact ⟨ha, hb, hc⟩
    · simp only [advancePixi_h, fillChunk_h]
      omega

theorem machineInv_streamPixels {s : State} (hr : DrawRuns s) : MachineInv (streamPixels s) :=
  machineInv_payload _ _ ⟨hr.pixCanonical, hr.busy, hr.kindDraw, hr.sized, hr.quiet⟩ fun _ => ⟨0, atChunk_zero s, rfl⟩

/-- After a chunk that is not the last, PIXI stands at the beginning of the next. -/
theorem chunkDue_advancePixi {s : State} (h : ChunkDue s) (hl : s.clen.toNat = 2 * chunkPixels s)
    (hmore : (advancePixi s).pixi.toNat < s.npix.toNat) : ChunkDue (advancePixi s) where
  pixelCount := h.pixelCount
  pixelsRemain := hmore
  chunkStart := by
    have hle := chunkPixels_le (Nat.le_of_lt h.pixelsRemain)
    rw [advancePixi_toNat (by omega), hl, Nat.mul_div_cancel_left _ two_pos] at hmore ⊢
    have hfull : chunkPixels s = 8 * s.w.toNat := by
      rw [chunkPixels_eq_min] at hmore ⊢
      omega
    rw [hfull, advancePixi_w, Nat.add_mod_right, h.chunkStart]

theorem machineInv_afterChunk {s : State} (hr : DrawRuns s) (hd : ChunkDue s) (hl : s.clen.toNat = 2 * chunkPixels s) :
    MachineInv (afterChunk s) := by
  by_cases hmore : (advancePixi s).pixi.toNat < (advancePixi s).npix.toNat
  · rw [afterChunk_more hmore]
    exact machineInv_emptyChunk (s := advancePixi s) ⟨hr.pixCanonical, hr.busy, hr.kindDraw, hr.sized, hr.quiet⟩
      (chunkDue_advancePixi hd hl hmore)
  · rw [afterChunk_last hmore]
    exact machineInv_complete _ hr.pixCanonical hr.quiet

/-! ## FILL -/

theorem fillPixel_clen_toNat {s : State} (p : BitVec 16) (h : s.clen.toNat < 2 * chunkPixels s) :
    (fillPixel p s).clen.toNat = s.clen.toNat + 2 := by
  have := chunkPixels_lt s
  rw [fillPixel_clen, BitVec.toNat_add, show (2 : BitVec 21).toNat = 2 from rfl]
  omega

/-- The next pixel's bytes make the bytes of the chunk so far one pixel longer. -/
theorem payloadInv_fillPixel {s : State} (h : PayloadInv s) (hl : s.clen.toNat < 2 * chunkPixels s) :
    PayloadInv (fillPixel (rgb565 (s.pix.read (nextPixel s))) s) where
  kindDraw := h.kindDraw
  pixelCount := h.pixelCount
  pixelsRemain := h.pixelsRemain
  chunkStart := h.chunkStart
  clenEven := by
    have := h.clenEven
    rw [fillPixel_clen_toNat _ hl]
    omega
  chunkBytes := by
    rw [fillPixel_clen_toNat _ hl, Nat.add_div_right _ two_pos]
    simp only [fillPixel_cb, fillPixel_pix, fillPixel_pixi]
    rw [rangeBytes_append _ _ (s.clen.toNat / 2) 1, ← h.chunkBytes]
    simp [rangeBytes, pixelBytes, nextPixel]

theorem machineInv_fillPixel {s : State} (h : MachineInv s) (hp : s.phase = .busy) (hq : s.seq = .fill) :
    MachineInv (fillPixel (rgb565 (s.pix.read (nextPixel s))) s) := by
  have hpay := h.payloadStands hp (.inl hq)
  obtain ⟨hquiet, hl⟩ := h.filling hp hq
  have hsized := h.drawSize hp hpay.kindDraw
  have hinv := payloadInv_fillPixel hpay hl
  have heven := hpay.clenEven
  by_cases hfull : 2 * chunkPixels s ≤ s.clen.toNat + 2
  · refine machineInv_sendChunk h.pixCanonical hp (if_pos hfull) hsized hinv ?_
    rw [fillPixel_clen_toNat _ hl]
    show s.clen.toNat + 2 = 2 * chunkPixels s
    omega
  · refine machineInv_fill h.pixCanonical hp (if_neg hfull) hsized hinv hquiet ?_
    rw [fillPixel_clen_toNat _ hl]
    exact Nat.lt_of_not_le hfull

/-! ## Frames and commands -/

theorem machineInv_afterFrame {s : State} (hx : s.pix.wf) (hp : s.phase = .busy) (hf : s.inFlight = false)
    (hd : s.kind = .draw → DrawSized s) : MachineInv (afterFrame s) := by
  unfold afterFrame
  split
  · exact machineInv_complete _ hx hf
  · exact machineInv_complete _ hx hf
  · next hk => exact machineInv_beginPayload ⟨hx, hp, hk, hd hk, hf⟩

/-- One write of a frame that stands in FB keeps the invariant, if what follows its `Ok` does. -/
theorem machineInv_sendFrameWith {f : State → State} {s : State} (hx : s.pix.wf) (hp : s.phase = .busy)
    (hq : s.seq = .sendFrame) (hf : frameReady s = true) (hd : s.kind = .draw → DrawSized s)
    (hok : ∀ rest es, MachineInv (f { s with replies := rest, inFlight := false, events := es })) :
    MachineInv (sendFrame f s) :=
  machineInv_txWrite hx hok fun _ => machineInv_sendFrame hx hp hq hf hd

/-- A DRAW of an IDLE block: a wrong size completes, a size that passes sends DRAW's frame. -/
theorem machineInv_draw {w h : Dim} {s t : State} (hx : s.pix.wf) (hp : s.phase = .idle) (hf : s.inFlight = false)
    (he : exec (.draw w h) s = .next t) : MachineInv t := by
  rw [exec_draw_idle w h hp] at he
  rcases checkSize_cases (fun t => sendFrame streamPixels (buildFrame t))
    (commandLatch (.draw w h) (accept (.draw w h) .draw .check s)) with ⟨_, hc⟩ | ⟨_, hc⟩ | ⟨h1, h2, h3, hc⟩ <;>
    rw [hc] at he <;> cases he
  · exact machineInv_complete _ (by simpa using hx) (by simpa using hf)
  · have hsized : DrawSized (drawBuilt s w h) := ⟨h1, h2, h3⟩
    have hready : frameReady (drawBuilt s w h) = true := frameReady_buildFrame _ fun hk => by cases hk
    exact machineInv_sendFrameWith (s := drawBuilt s w h) hx rfl rfl hready (fun _ => hsized) fun _ _ =>
      machineInv_streamPixels ⟨hx, rfl, rfl, hsized, rfl⟩

/-- Every other command of an IDLE block sends its one frame. -/
theorem machineInv_oneFrame {i : Instr} {s t : State} (hi : i.format = .cmd80) (hd : commandKind i ≠ .draw)
    (hx : s.pix.wf) (hp : s.phase = .idle) (he : exec i s = .next t) : MachineInv t := by
  rcases frameCommand_cases i (commandKind i) (commandLatch i) s with ⟨hb, _⟩ | ⟨_, hc⟩
  · simp [hp] at hb
  rw [exec_oneFrame hi hd, hc] at he
  cases he
  obtain ⟨hpix, _, _, _, _, _, hphase, hkind, _⟩ := buildFrame_keeps (commandLatch i (accept i (commandKind i) .frame s))
  simp only [commandLatch_pix, accept_pix, commandLatch_phase, accept_phase, commandLatch_kind, accept_kind]
    at hpix hphase hkind
  rw [← hpix] at hx
  rw [← hkind] at hd
  refine machineInv_sendFrameWith hx hphase (buildFrame_seq _) ?_ (fun hk => absurd hk hd) fun _ _ =>
    machineInv_afterFrame hx hphase rfl fun hk => absurd hk hd
  exact frameReady_buildFrame _ fun hk => commandLatch_opc hi (by simpa using hk) _

/-- Executing a command keeps the invariant. -/
theorem machineInv_command {i : Instr} {s t : State} (hi : i.format = .cmd80) (h : MachineInv s) (he : exec i s = .next t) :
    MachineInv t := by
  cases hp : s.phase with
  | busy =>
    rw [exec_command_busy hi hp] at he
    cases he
    exact h
  | idle =>
    by_cases hd : commandKind i = .draw
    · obtain ⟨w, hh, rfl⟩ := eq_draw_of_kind hd
      exact machineInv_draw h.pixCanonical hp (h.idleQuiet hp) he
    · exact machineInv_oneFrame hi hd h.pixCanonical hp he

/-- The stage of a BUSY block keeps the invariant. -/
theorem machineInv_stageStep {s t : State} (h : MachineInv s) (hp : s.phase = .busy) (hs : stageStep s = .next t) :
    MachineInv t := by
  have hx := h.pixCanonical
  rcases h.busyStage hp with hq | hq | hq <;> simp only [stageStep, hq] at hs
  · have hready := h.frameStands hp hq
    rw [if_pos hready] at hs
    cases hs
    exact machineInv_sendFrameWith hx hp hq hready (h.drawSize hp) fun _ _ =>
      machineInv_afterFrame hx hp rfl (h.drawSize hp)
  · split at hs <;> cases hs
    exact machineInv_fillPixel h hp hq
  · cases hs
    have hpay := h.payloadStands hp (.inr hq)
    obtain ⟨hk, hn, hr, hc, he, hb⟩ := hpay
    have hsized := h.drawSize hp hk
    have hl := h.chunkWhole hp hq
    exact machineInv_txWrite hx (fun _ _ => machineInv_afterChunk ⟨hx, hp, hk, hsized, rfl⟩ ⟨hn, hr, hc⟩ hl)
      fun _ => machineInv_sendChunk hx hp hq hsized ⟨hk, hn, hr, hc, he, hb⟩ hl

/-- Settles O50: by where the step comes from: reset, a move of the host to the IDLE block, or the stage of a BUSY one. -/
theorem stepKeepsInv : Obligations.StepKeepsInv := by
  intro s t h hs
  have hx := h.pixCanonical
  by_cases hr : ∃ rest, s.host = .reset :: rest
  · obtain ⟨rest, hr⟩ := hr
    rw [step_reset hr] at hs
    cases hs
    exact machineInv_idle hx rfl rfl
  cases hp : s.phase with
  | busy =>
    rw [step_busy hp (resetNext_eq_false hr)] at hs
    exact machineInv_stageStep h hp hs
  | idle =>
    have hquiet := h.idleQuiet hp
    match hh : s.host with
    | [] =>
      rw [step_quiet hp hh] at hs
      cases hs
      exact h
    | .reset :: rest => exact absurd ⟨rest, hh⟩ hr
    | .putPixel j p :: rest =>
      rw [step_putPixel hp hh] at hs
      cases hs
      exact machineInv_idle (PixMem.write_wf _ hx j p) hp hquiet
    | .issue d :: rest =>
      rw [step_issue hp hh] at hs
      exact machineInv_command (decodeCmd_format d) (machineInv_idle (s := { s with host := rest }) hx hp hquiet) hs

/-- Settles O49. -/
theorem resetInv : Obligations.ResetInv := machineInv_idle (by simp [State.reset, PixMem.wf, Memory.wf]) rfl rfl

end Sys2Proof.Machine

/-! # Proofs: no behaviour depends on a dead latch -/

namespace Sys2Proof.Machine

/-- Two states that agree outside and in what the running command has still to read (R33). -/
def Agree (s t : State) : Prop := SameOutside s t ∧ SameLive s t

theorem SameOutside.phase {s t : State} (h : SameOutside s t) : s.phase = t.phase := h.1

theorem SameOutside.pix {s t : State} (h : SameOutside s t) : s.pix = t.pix := h.2.2.1

/-- IDLE, nothing is still to be read. -/
theorem agree_of_idle {s t : State} (h : SameOutside s t) (hp : s.phase = .idle) : Agree s t :=
  ⟨h, fun hb => by simp [hp] at hb⟩

theorem agree_complete {s t : State} (st : Status) (h : SameOutside s t) : Agree (complete st s) (complete st t) := by
  obtain ⟨_, _, hx, hh, hrep, he⟩ := h
  exact agree_of_idle ⟨rfl, rfl, hx, hh, hrep, by simp [he]⟩ rfl

/-- The same write from two states that agree: waiting, both wait; answered `Err`, both complete; so only what follows an `Ok`
is left to compare. -/
theorem agree_txWrite {bs : List Byte} {f g : State → State} {s t : State} (h : SameOutside s t) (hl : SameLive s t)
    (hok : ∀ rest es, SameOutside { s with replies := rest, inFlight := false, events := es }
        { t with replies := rest, inFlight := false, events := es } →
      Agree (f { s with replies := rest, inFlight := false, events := es })
        (g { t with replies := rest, inFlight := false, events := es })) :
    Agree (txWrite bs f s) (txWrite bs g t) := by
  obtain ⟨hp, hr, hx, hh, hrep, he⟩ := h
  rcases txWrite_cases bs f s with ⟨n, rest, hs, h1⟩ | ⟨rest, hs, h1⟩ | ⟨rest, hs | ⟨hs, rfl⟩, h1⟩ <;>
    rw [h1] <;> rw [hrep] at hs
  · rw [txWrite_ok bs g t n rest hs, he]
    exact hok rest _ ⟨hp, hr, hx, hh, rfl, rfl⟩
  · rw [txWrite_err bs g t rest hs]
    exact agree_complete _ ⟨hp, hr, hx, hh, rfl, by simp [he]⟩
  · rw [txWrite_pending bs g t rest hs]
    exact ⟨⟨hp, hr, hx, hh, rfl, he⟩, hl⟩
  · rw [txWrite_nil bs g t hs]
    exact ⟨⟨hp, hr, hx, hh, hs.symm, he⟩, hl⟩

/-! ## The payload -/

/-- What DRAW's payload reads at the beginning of a chunk. -/
structure SamePayload (s t : State) : Prop where
  kind : s.kind = t.kind
  w : s.w = t.w
  h : s.h = t.h
  npix : s.npix = t.npix
  pixi : s.pixi = t.pixi

/-- Inside the payload CB and CLEN are still to be read too. -/
theorem SamePayload.sameLive {s t : State} (h : SamePayload s t) (hq : s.seq = .fill ∨ s.seq = .sendChunk)
    (hseq : s.seq = t.seq) (hcb : s.cb = t.cb) (hclen : s.clen = t.clen) : SameLive s t := by
  refine fun _ => ⟨hseq, h.kind, fun _ => ⟨h.w, h.h⟩, fun _ => ⟨h.w, h.h⟩, ?_, ?_,
    fun _ => ⟨h.w, h.h, h.npix, h.pixi, hcb, hclen⟩⟩ <;>
  · intro hx
    rcases hq with hq | hq <;> simp [hq] at hx

theorem SamePayload.chunkPixels {s t : State} (h : SamePayload s t) : chunkPixels s = chunkPixels t :=
  chunkPixels_congr h.w h.npix h.pixi

theorem SamePayload.fillChunk_cb {s t : State} (h : SamePayload s t) (hx : s.pix = t.pix) :
    (fillChunk s).cb = (fillChunk t).cb := by
  simp only [Machine.fillChunk_cb, hx, h.pixi, h.chunkPixels]

theorem SamePayload.fillChunk {s t : State} (h : SamePayload s t) (hx : s.pix = t.pix) :
    SameLive (fillChunk s) (fillChunk t) := by
  have hpay : SamePayload (Machine.fillChunk s) (Machine.fillChunk t) := ⟨h.kind, h.w, h.h, h.npix, h.pixi⟩
  exact hpay.sameLive (.inr rfl) rfl (h.fillChunk_cb hx) (by simp only [fillChunk_clen, h.chunkPixels])

/-- PIXI grows alike where CLEN agrees. -/
theorem SamePayload.advancePixi {s t : State} (h : SamePayload s t) (hc : s.clen = t.clen) :
    SamePayload (advancePixi s) (advancePixi t) :=
  ⟨h.kind, h.w, h.h, h.npix, by simp only [advancePixi_pixi, h.pixi, hc]⟩

/-- DRAW's loop reads nothing else. -/
theorem agree_payload : ∀ (n : Nat) {s t : State}, SameOutside s t → SamePayload s t → Agree (payload n s) (payload n t)
  | 0, _, _, h, _ => agree_complete .ok h
  | n + 1, s, t, h, hpay => by
    rw [payload, payload, sendChunk, sendChunk, hpay.fillChunk_cb h.pix]
    refine agree_txWrite (s := fillChunk s) (t := fillChunk t) h (hpay.fillChunk h.pix) fun rest es ho => ?_
    refine agree_payload n ho (SamePayload.advancePixi ⟨hpay.kind, hpay.w, hpay.h, hpay.npix, hpay.pixi⟩ ?_)
    simp only [fillChunk_clen, hpay.chunkPixels]

theorem samePayload_beginPayload {s t : State} (hk : s.kind = t.kind) (hw : s.w = t.w) (hh : s.h = t.h) :
    SamePayload (beginPayload s) (beginPayload t) :=
  ⟨hk, hw, hh, by simp only [beginPayload_npix, hw, hh], rfl⟩

theorem agree_streamPixels {s t : State} (h : SameOutside s t) (hk : s.kind = t.kind) (hw : s.w = t.w) (hh : s.h = t.h) :
    Agree (streamPixels s) (streamPixels t) := by
  rw [streamPixels, streamPixels, hh]
  exact agree_payload _ h (samePayload_beginPayload hk hw hh)

theorem agree_afterChunk {s t : State} (h : SameOutside s t) (hpay : SamePayload s t) (hc : s.clen = t.clen) :
    Agree (afterChunk s) (afterChunk t) := by
  have ha := hpay.advancePixi hc
  by_cases hmore : (advancePixi s).pixi.toNat < (advancePixi s).npix.toNat
  · rw [afterChunk_more hmore, afterChunk_more (by rwa [← ha.pixi, ← ha.npix])]
    have hnext : SamePayload (emptyChunk (advancePixi s)) (emptyChunk (advancePixi t)) := ⟨ha.kind, ha.w, ha.h, ha.npix, ha.pixi⟩
    exact ⟨h, hnext.sameLive (.inl rfl) rfl rfl rfl⟩
  · rw [afterChunk_last hmore, afterChunk_last (by rwa [← ha.pixi, ← ha.npix])]
    exact agree_complete .ok h

theorem agree_fillPixel {s t : State} (p : BitVec 16) (h : SameOutside s t) (hpay : SamePayload s t) (hcb : s.cb = t.cb)
    (hc : s.clen = t.clen) : Agree (fillPixel p s) (fillPixel p t) := by
  have hnext : SamePayload (fillPixel p s) (fillPixel p t) := ⟨hpay.kind, hpay.w, hpay.h, hpay.npix, hpay.pixi⟩
  refine ⟨h, hnext.sameLive ?_ ?_ (by simp only [fillPixel_cb, hcb]) (by simp only [fillPixel_clen, hc])⟩
  · rw [fillPixel_seq]
    split <;> simp
  · simp only [fillPixel_seq, hpay.chunkPixels, hc]

/-! ## Frames -/

/-- What FRAME reads, by the kind of the running command (R27). -/
structure SameOperands (s t : State) : Prop where
  kind : s.kind = t.kind
  size : s.kind = .draw → s.w = t.w ∧ s.h = t.h
  rectangle : s.kind = .region → s.x = t.x ∧ s.y = t.y ∧ s.ex = t.ex ∧ s.ey = t.ey ∧ s.opc = t.opc
  orient : s.kind = .orientation → s.ori = t.ori

theorem agree_afterFrame {s t : State} (h : SameOutside s t) (hk : s.kind = t.kind)
    (hd : s.kind = .draw → s.w = t.w ∧ s.h = t.h) : Agree (afterFrame s) (afterFrame t) := by
  unfold afterFrame
  rw [← hk]
  cases hs : s.kind with
  | region => exact agree_complete .ok h
  | orientation => exact agree_complete .ok h
  | draw =>
    obtain ⟨hw, hh⟩ := hd hs
    exact ⟨h, (samePayload_beginPayload hk hw hh).sameLive (.inl rfl) rfl rfl rfl⟩

theorem SameOperands.frameBytes_buildFrame {s t : State} (h : SameOperands s t) :
    frameBytes (buildFrame s) = frameBytes (buildFrame t) := by
  rw [Machine.frameBytes_buildFrame, Machine.frameBytes_buildFrame, ← h.kind]
  cases hs : s.kind with
  | region => obtain ⟨hx, hy, hex, hey, ho⟩ := h.rectangle hs; simp only [hx, hy, hex, hey, ho]
  | orientation => simp only [h.orient hs]
  | draw => obtain ⟨hw, hh⟩ := h.size hs; simp only [hw, hh]

/-- FLEN depends on the kind of the command alone (R24). -/
theorem buildFrame_flen (s : State) : (buildFrame s).flen = if s.kind = .orientation then 11 else 6 := by
  unfold buildFrame
  cases s.kind <;> rfl

/-- At SEND_FRAME, FB up to FLEN is still to be read, and the size of a DRAW. -/
theorem sameLive_sendFrame {s t : State} (hq : s.seq = .sendFrame) (hseq : s.seq = t.seq) (hk : s.kind = t.kind)
    (hd : s.kind = .draw → s.w = t.w ∧ s.h = t.h) (hfl : s.flen = t.flen) (hfb : frameBytes s = frameBytes t) :
    SameLive s t :=
  fun _ => ⟨hseq, hk, hd, fun h => by simp [hq] at h, fun h => by simp [hq] at h, fun _ => ⟨hfl, hfb⟩,
    fun h => by simp [hq] at h⟩

theorem SameOutside.buildFrame {s t : State} (h : SameOutside s t) : SameOutside (buildFrame s) (buildFrame t) := by
  obtain ⟨hp, hr, hx, hh, hrep, he⟩ := h
  simp only [SameOutside, buildFrame_keeps, hp, hr, hx, hh, hrep, he, and_self]

theorem SameOperands.sameLive_buildFrame {s t : State} (h : SameOperands s t) : SameLive (buildFrame s) (buildFrame t) := by
  refine sameLive_sendFrame (buildFrame_seq s) (by simp) (by simp only [buildFrame_keeps, h.kind]) ?_
    (by simp only [buildFrame_flen, h.kind]) h.frameBytes_buildFrame
  simpa only [buildFrame_keeps] using h.size

/-- One write of a frame that agrees, if what follows its `Ok` agrees. -/
theorem agree_sendFrame {f g : State → State} {s t : State} (h : SameOutside s t) (hl : SameLive s t)
    (hfb : frameBytes s = frameBytes t)
    (hok : ∀ rest es, SameOutside { s with replies := rest, inFlight := false, events := es }
        { t with replies := rest, inFlight := false, events := es } →
      Agree (f { s with replies := rest, inFlight := false, events := es })
        (g { t with replies := rest, inFlight := false, events := es })) :
    Agree (sendFrame f s) (sendFrame g t) := by
  rw [sendFrame, sendFrame, hfb]
  exact agree_txWrite h hl hok

/-! ## The size check and commands -/

/-- CHECK reads W and H. -/
theorem agree_checkSize {f : State → State} {s t : State} (h : SameOutside s t) (hw : s.w = t.w) (hh : s.h = t.h)
    (hok : Agree (f { s with seq := .frame }) (f { t with seq := .frame })) :
    OutcomesAgree (checkSize f s) (checkSize f t) := by
  unfold checkSize
  generalize f { s with seq := .frame } = u at hok ⊢
  generalize f { t with seq := .frame } = v at hok ⊢
  rw [hw, hh]
  split
  · split
    · rfl
    · exact hok
  · exact agree_complete .wrongImageSize h

/-- A command latches every operand that its frame is built from. -/
theorem sameOperands_commandLatch {i : Instr} {s t : State} (hi : i.format = .cmd80) (hs : s.kind = commandKind i)
    (ht : t.kind = commandKind i) : SameOperands (commandLatch i s) (commandLatch i t) := by
  refine ⟨by simp [hs, ht], ?_, ?_, ?_⟩ <;> rw [commandLatch_kind, hs] <;> intro hk
  · obtain ⟨w, h, rfl⟩ := eq_draw_of_kind hk
    exact ⟨rfl, rfl⟩
  · cases i
    case setOrientation => cases hk
    case draw => cases hk
    case region => exact ⟨rfl, rfl, rfl, rfl, rfl⟩
    case clear => exact ⟨rfl, rfl, rfl, rfl, rfl⟩
    case toBlack => exact ⟨rfl, rfl, rfl, rfl, rfl⟩
    case screenOff => exact ⟨rfl, rfl, rfl, rfl, rfl⟩
    case screenOn => exact ⟨rfl, rfl, rfl, rfl, rfl⟩
    case setBrightness => exact ⟨rfl, rfl, rfl, rfl, rfl⟩
    all_goals cases hi
  · cases i
    case setOrientation => rfl
    all_goals cases hk

theorem SameOutside.accepted {s t : State} (h : SameOutside s t) (i : Instr) (k : Kind) (q : Seq) :
    SameOutside (commandLatch i (accept i k q s)) (commandLatch i (accept i k q t)) := by
  obtain ⟨_, hr, hx, hh, hrep, he⟩ := h
  simp [SameOutside, hr, hx, hh, hrep, he]

/-- A command of an IDLE block reads no latch that it has not written. -/
theorem agree_command {i : Instr} {s t : State} (hi : i.format = .cmd80) (hp : s.phase = .idle) (h : SameOutside s t) :
    OutcomesAgree (exec i s) (exec i t) := by
  have hpt : t.phase = .idle := h.phase ▸ hp
  by_cases hd : commandKind i = .draw
  · obtain ⟨w, hh, rfl⟩ := eq_draw_of_kind hd
    rw [exec_draw_idle w hh hp, exec_draw_idle w hh hpt]
    have hbuilt : SameOutside (drawBuilt s w hh) (drawBuilt t w hh) :=
      SameOutside.buildFrame (h.accepted (.draw w hh) .draw .frame)
    have hops : SameOperands (commandLatch (.draw w hh) (accept (.draw w hh) .draw .frame s))
      (commandLatch (.draw w hh) (accept (.draw w hh) .draw .frame t)) := sameOperands_commandLatch rfl rfl rfl
    exact agree_checkSize (h.accepted ..) rfl rfl
      (agree_sendFrame hbuilt hops.sameLive_buildFrame hops.frameBytes_buildFrame fun _ _ ho =>
        agree_streamPixels ho rfl rfl rfl)
  · rw [exec_oneFrame hi hd, exec_oneFrame hi hd]
    have hops : SameOperands (commandLatch i (accept i (commandKind i) .frame s))
      (commandLatch i (accept i (commandKind i) .frame t)) := sameOperands_commandLatch hi rfl rfl
    simp only [frameCommand, hp, hpt]
    refine agree_sendFrame (h.accepted ..).buildFrame hops.sameLive_buildFrame hops.frameBytes_buildFrame fun _ _ ho => ?_
    exact agree_afterFrame ho (by simp [buildFrame_keeps]) (by simp [buildFrame_keeps, hd])

/-! ## Steps and runs -/

theorem frameReady_of_same {s t : State} (hfl : s.flen = t.flen) (hfb : frameBytes s = frameBytes t) :
    frameReady s = frameReady t := by
  simp only [frameReady, frameFormat, hfl, hfb]

/-- Each stage reads only what is still to be read. -/
theorem agree_stageStep {s t : State} (h : SameOutside s t) (hl : SameLive s t) (hp : s.phase = .busy) :
    OutcomesAgree (stageStep s) (stageStep t) := by
  obtain ⟨hseq, hkind, hdraw, hcheck, hframe, hsend, hpayload⟩ := hl hp
  have hx := h.pix
  unfold stageStep
  rw [← hseq]
  cases hq : s.seq with
  | check =>
    obtain ⟨hw, hh⟩ := hcheck hq
    refine agree_checkSize h hw hh ⟨h, fun _ => ⟨rfl, hkind, hdraw, fun _ => ⟨hw, hh⟩, fun _ => hframe (.inl hq), ?_, ?_⟩⟩ <;>
    simp
  | frame =>
    obtain ⟨hrect, hori⟩ := hframe (.inr hq)
    have hops : SameOperands s t := ⟨hkind, hdraw, hrect, hori⟩
    exact ⟨h.buildFrame, hops.sameLive_buildFrame⟩
  | sendFrame =>
    obtain ⟨hfl, hfb⟩ := hsend hq
    simp only [frameReady_of_same hfl hfb]
    split
    · exact agree_sendFrame h hl hfb fun _ _ ho => agree_afterFrame ho hkind hdraw
    · rfl
  | fill =>
    obtain ⟨hw, hh, hn, hpixi, hcb, hc⟩ := hpayload (.inl hq)
    have hnext : nextPixel s = nextPixel t := by simp only [nextPixel, hpixi, hc]
    simp only [hnext, hw, hh, hx]
    split
    · exact agree_fillPixel _ h ⟨hkind, hw, hh, hn, hpixi⟩ hcb hc
    · rfl
  | sendChunk =>
    obtain ⟨hw, hh, hn, hpixi, hcb, hc⟩ := hpayload (.inr hq)
    simp only [sendChunk, hcb]
    exact agree_txWrite h hl fun _ _ ho => agree_afterChunk ho ⟨hkind, hw, hh, hn, hpixi⟩ hc
  | done => exact agree_complete .ok h

/-- Settles O55: by where the step comes from. The latches read are those of the stage, or those the command has written. -/
theorem deadLatchesDoNotMatter : Obligations.DeadLatchesDoNotMatter := by
  intro s t h hl
  obtain ⟨hp, hr, hx, hh, hrep, he⟩ := h
  by_cases hreset : ∃ rest, s.host = .reset :: rest
  · obtain ⟨rest, hs⟩ := hreset
    rw [step_reset hs, step_reset (hh ▸ hs)]
    exact agree_of_idle ⟨rfl, rfl, hx, rfl, hrep, he⟩ rfl
  cases hs : s.phase with
  | busy =>
    rw [step_busy hs (resetNext_eq_false hreset), step_busy (hp ▸ hs) (resetNext_eq_false (hh ▸ hreset))]
    exact agree_stageStep ⟨hp, hr, hx, hh, hrep, he⟩ hl hs
  | idle =>
    have ht : t.phase = .idle := hp ▸ hs
    match hm : s.host with
    | [] =>
      rw [step_quiet hs hm, step_quiet ht (hh ▸ hm)]
      exact ⟨⟨hp, hr, hx, hh, hrep, he⟩, hl⟩
    | .reset :: rest => exact absurd ⟨rest, hm⟩ hreset
    | .putPixel j p :: rest =>
      rw [step_putPixel hs hm, step_putPixel ht (hh ▸ hm)]
      exact agree_of_idle ⟨hp, hr, congrArg (·.write j p) hx, rfl, hrep, he⟩ hs
    | .issue d :: rest =>
      rw [step_issue hs hm, step_issue ht (hh ▸ hm)]
      exact agree_command (s := { s with host := rest }) (t := { t with host := rest }) (decodeCmd_format d) hs
        ⟨hp, hr, hx, rfl, hrep, he⟩

/-- Runs from states that agree, agree. -/
theorem outcomesAgree_run : ∀ (k : Nat) {s t : State}, Agree s t → OutcomesAgree (run k s) (run k t)
  | 0, _, _, h => h
  | k + 1, s, t, h => by
    have hstep := deadLatchesDoNotMatter s t h.1 h.2
    rw [run, run]
    revert hstep
    cases step s <;> cases step t <;> intro hstep
    case next.next => exact outcomesAgree_run k hstep
    case fault.fault => exact hstep
    case refused.refused => exact hstep
    all_goals exact False.elim hstep

/-- Settles O56: IDLE states have no live latch, and a step of states that agree agrees. -/
theorem runsIgnoreResetLatches : Obligations.RunsIgnoreResetLatches :=
  fun _ _ hp h k => outcomesAgree_run k (agree_of_idle h hp)

end Sys2Proof.Machine

/-! # Proofs: commands while BUSY, results, waiting frames -/

namespace Sys2Proof.Machine

/-! ## Results -/

/-- From `s` to `t` no result is delivered and RESULT stays, or one is, which RESULT then holds (R28, R161). -/
def DeliversResult (s t : State) : Prop :=
  ∃ es, t.events = s.events ++ es ∧
    ((resultsOf es = [] ∧ t.result = s.result) ∨ (resultsOf es = [t.result] ∧ t.result ≠ .none ∧ t.phase = .idle))

theorem DeliversResult.of_same {s t : State} (he : t.events = s.events) (hr : t.result = s.result) : DeliversResult s t :=
  ⟨[], by simp [he], .inl ⟨rfl, hr⟩⟩

theorem deliversResult_complete {st : Status} (s : State) (h : st ≠ .none) : DeliversResult s (complete st s) :=
  ⟨[.complete st], rfl, .inr ⟨rfl, h, rfl⟩⟩

/-- An acceptance before it delivers nothing. -/
theorem DeliversResult.after_accept {s u t : State} {i : Instr} (h : DeliversResult u t)
    (he : u.events = s.events ++ [.accept i]) (hr : u.result = s.result) : DeliversResult s t := by
  obtain ⟨es, hes, hres⟩ := h
  rw [hr] at hres
  exact ⟨.accept i :: es, by rw [hes, he, List.append_assoc]; rfl, hres⟩

theorem Continues.deliversResult {s t : State} (h : Continues s t) : DeliversResult s t := by
  obtain ⟨_, _, _, _, es, he, _, ⟨_, hr, hes, _⟩ | ⟨hp, hr, hes, _⟩ | ⟨hp, hr, pre, b, rfl, _, hpre⟩⟩ := h
  · exact ⟨es, he, .inl ⟨hes, hr⟩⟩
  · exact ⟨es, he, .inr ⟨by rw [hes, hr], by simp [hr], hp⟩⟩
  · exact ⟨_, he, .inr ⟨by simp [hpre, hr, resultsOf], by simp [hr], hp⟩⟩

theorem Executes.deliversResult {i : Instr} {s t : State} (h : Executes i s t) : DeliversResult s t := by
  rcases h with rfl | ⟨_, u, _, _, _, hr, he, hc | rfl⟩ | ⟨_, hc⟩
  · exact .of_same rfl rfl
  · exact hc.deliversResult.after_accept he hr
  · exact (deliversResult_complete u (by decide)).after_accept he hr
  · exact hc.deliversResult

/-- Apart from reset, a step delivers at most one result. -/
theorem step_deliversResult {s t : State} (hr : resetNext s = false) (hs : step s = .next t) : DeliversResult s t := by
  rcases step_advances hs with ⟨rest, hh, _⟩ | ⟨_, _, _, _, _, rfl⟩ | rfl | ⟨_, d, rest, _, he⟩ | ⟨_, hc | rfl⟩
  · simp [resetNext, hh] at hr
  · exact .of_same rfl rfl
  · exact .of_same rfl rfl
  · exact he.deliversResult
  · exact hc.deliversResult
  · exact deliversResult_complete s (by decide)

/-- Settles O44. -/
theorem resultOnlyByComplete : Obligations.ResultOnlyByComplete := fun _ _ => step_deliversResult

/-- Each 2-bit code is one status (R162). -/
theorem status_of_code (c : BitVec 2) : ∃ st : Status, st.code = c ∧ ∀ st' : Status, st'.code = c → st' = st := by
  have inj : ∀ st st' : Status, st'.code = st.code → st' = st := by
    intro st st'
    cases st <;> cases st' <;> decide
  have surj : c = Status.none.code ∨ c = Status.ok.code ∨ c = Status.wrongImageSize.code ∨ c = Status.writeError.code := by
    revert c
    decide
  rcases surj with rfl | rfl | rfl | rfl <;> exact ⟨_, rfl, inj _⟩

/-- Settles O45: the codes by evaluation, the delivered result from O44. -/
theorem resultAndPhaseCodes : Obligations.ResultAndPhaseCodes := by
  refine ⟨rfl, rfl, rfl, rfl, rfl, rfl, status_of_code, rfl, rfl, fun s t hr hs => ?_⟩
  obtain ⟨es, he, ⟨hes, _⟩ | ⟨hes, hne, _⟩⟩ := step_deliversResult hr hs
  · exact ⟨es, he, by simp [hes]⟩
  · refine ⟨es, he, ?_⟩
    rw [hes]
    intro st hst
    rw [List.mem_singleton.mp hst]
    refine ⟨rfl, fun h0 => hne ?_⟩
    cases hres : t.result <;> simp [hres, Status.code] at h0 ⊢

/-- Settles O39. -/
theorem resetLeaves : Obligations.ResetLeaves := ⟨rfl, rfl, rfl, rfl, step_quiet rfl rfl⟩

/-! ## BUSY -/

/-- Settles O24: a command by `exec_command_busy`, a step because a running command keeps PIX and the host's moves. -/
theorem busyIgnoresCmd : Obligations.BusyIgnoresCmd := by
  refine ⟨fun i s hi hp => exec_command_busy hi hp, fun s t hp hr hs => ?_⟩
  rcases step_advances hs with ⟨rest, hh, _⟩ | ⟨_, _, _, hi, _⟩ | rfl | ⟨hi, _⟩ | ⟨_, ⟨hpix, hhost, _⟩ | rfl⟩
  · simp [resetNext, hh] at hr
  · simp [hp] at hi
  · exact ⟨rfl, rfl⟩
  · simp [hp] at hi
  · exact ⟨hhost, hpix⟩
  · exact ⟨rfl, rfl⟩

/-- Settles O36: the row that FB decodes to writes FB as it stands, and an unanswered write changes no frame. -/
theorem waitingFrameUnchanged : Obligations.WaitingFrameUnchanged := by
  intro s i hp hq hd
  rw [exec_standing hp hq hd]
  exact ⟨fun rest h => congrArg _ (txWrite_pending _ _ _ rest h), fun h => congrArg _ (txWrite_nil _ _ _ h)⟩

/-- Settles O37: each clause is what is fetched at its place. -/
theorem stepRunsDecoded : Obligations.StepRunsDecoded := by
  refine ⟨fun s d rest i hp hh hd => ?_, fun s i hp hq hr hd => ?_, fun s hp hq hr hlt => ?_⟩
  · rw [decode_descBytes] at hd
    cases hd
    exact step_issue hp hh
  · exact step_of_fetch (by rw [fetch_sendFrame hp hq hr, hd]; rfl)
  · exact step_of_fetch (fetch_fill hp hq hr hlt)

end Sys2Proof.Machine

/-! # Proofs: the stepped payload and the payload in one go -/

namespace Sys2Proof.Machine

/-! ## FILL, pixel by pixel -/

/-- The chunk that begins at PIXI with its first `k` pixels converted. -/
def partChunk (s : State) (k : Nat) : State :=
  { s with cb := rangeBytes s.pix s.pixi.toNat k, clen := BitVec.ofNat 21 (2 * k),
           seq := if chunkPixels s ≤ k then .sendChunk else .fill }

theorem partChunk_zero {s : State} (hq : s.seq = .fill) (hcb : s.cb = []) (hc : s.clen = 0) (hpos : 0 < chunkPixels s) :
    partChunk s 0 = s := by
  rw [partChunk, if_neg (by omega), ← hq]
  simp only [rangeBytes, ← hcb]
  rw [show BitVec.ofNat 21 (2 * 0) = s.clen from hc.symm]

theorem partChunk_whole (s : State) : partChunk s (chunkPixels s) = fillChunk s := by
  rw [partChunk, if_pos (Nat.le_refl _)]
  rfl

theorem partChunk_clen_toNat {s : State} {k : Nat} (hk : k < chunkPixels s) : (partChunk s k).clen.toNat = 2 * k := by
  have := chunkPixels_lt s
  simp only [partChunk, BitVec.toNat_ofNat]
  omega

/-- One more pixel. -/
theorem fillPixel_partChunk {s : State} {k : Nat} (hk : k < chunkPixels s) :
    fillPixel (rgb565 (s.pix.read (s.pixi.toNat + k))) (partChunk s k) = partChunk s (k + 1) := by
  have hcb : rangeBytes s.pix s.pixi.toNat (k + 1) =
      rangeBytes s.pix s.pixi.toNat k ++ serLE16 (rgb565 (s.pix.read (s.pixi.toNat + k))) := by
    rw [rangeBytes_append]
    simp [rangeBytes, pixelBytes]
  have hclen : BitVec.ofNat 21 (2 * (k + 1)) = BitVec.ofNat 21 (2 * k) + BitVec.ofNat 21 2 := by
    rw [Nat.mul_add, BitVec.ofNat_add]
  have hfull : (2 * chunkPixels s ≤ 2 * k + 2) = (chunkPixels s ≤ k + 1) := propext (by omega)
  unfold fillPixel
  rw [show chunkPixels (partChunk s k) = chunkPixels s from rfl, partChunk_clen_toNat hk]
  simp only [partChunk, hcb, hclen, hfull]

/-- A step at FILL converts the next pixel. -/
theorem step_partChunk {s : State} {k : Nat} (hp : s.phase = .busy) (hr : resetNext s = false)
    (hn : s.npix.toNat = s.w.toNat * s.h.toNat) (hle : s.pixi.toNat ≤ s.npix.toNat) (hk : k < chunkPixels s) :
    step (partChunk s k) = .next (partChunk s (k + 1)) := by
  have hq : (partChunk s k).seq = .fill := if_neg (by omega)
  have hnext : nextPixel (partChunk s k) = s.pixi.toNat + k := by
    rw [nextPixel, partChunk_clen_toNat hk, params_bytesPerPixel, Nat.mul_div_cancel_left _ two_pos]
    rfl
  have hlt : s.pixi.toNat + k < s.w.toNat * s.h.toNat := by
    have := chunkPixels_le hle
    omega
  rw [step_busy (s := partChunk s k) hp hr, stageStep, hq, ← fillPixel_partChunk hk]
  simp only [hnext]
  exact if_pos hlt

theorem run_partChunk {s : State} (hp : s.phase = .busy) (hr : resetNext s = false)
    (hn : s.npix.toNat = s.w.toNat * s.h.toNat) (hle : s.pixi.toNat ≤ s.npix.toNat) :
    ∀ k ≤ chunkPixels s, run k (partChunk s 0) = .next (partChunk s k)
  | 0, _ => rfl
  | k + 1, hk => by
    rw [run_add k 1 _ _ (run_partChunk hp hr hn hle k (by omega)), run_succ 0 (step_partChunk hp hr hn hle hk)]
    rfl

/-- Settles O59: by induction on the pixels converted. -/
theorem steppedFillIsRangeBytes : Obligations.SteppedFillIsRangeBytes := by
  intro s hp hq hcb hc hr hn hlt hw
  have hrun := run_partChunk hp hr hn (Nat.le_of_lt hlt) _ (Nat.le_refl _)
  rwa [partChunk_zero hq hcb hc (chunkPixels_pos hw hlt), partChunk_whole] at hrun

/-! ## Chunk by chunk -/

/-- One chunk of the stepped payload: filled, then sent. -/
theorem run_chunk {s : State} {j : Nat} (hp : s.phase = .busy) (hr : resetNext s = false) (hw : s.w ≠ 0) (h : AtChunk s j)
    (hj : j * 8 < s.h.toNat) : run (chunkPixels s + 1) (emptyChunk s) = .next (sendChunk afterChunk (fillChunk s)) := by
  have hd := h.chunkDue hw hj
  have hfill : run (chunkPixels s) (emptyChunk s) = .next (fillChunk s) :=
    steppedFillIsRangeBytes (emptyChunk s) hp rfl rfl rfl hr hd.pixelCount hd.pixelsRemain hw
  rw [run_add _ 1 _ _ hfill, run_succ (s := fillChunk s) 0 (step_sendChunk hp rfl hr)]
  rfl

/-- A chunk that reaches the last row leaves nothing to send. -/
theorem afterSend_pixi_last {s : State} {j m : Nat} {rest : List Reply} (h : AtChunk s j) (hj : j * 8 < s.h.toNat)
    (hl : s.h.toNat ≤ (j + 1) * 8) : (afterSend s m rest).pixi.toNat = s.npix.toNat := by
  rcases Nat.lt_or_eq_of_le hl with hlt | heq
  · rw [last_chunk h hj hlt]
  · rw [(next_chunk h (Nat.le_of_eq heq.symm)).start, h.pixelCount, heq]
    show (j + 1) * (8 * s.w.toNat) = s.w.toNat * ((j + 1) * 8)
    ring

/-- The payload runs without reset, and its next `n` writes are answered at once. -/
structure ChunksAnswered (n : Nat) (s : State) : Prop where
  busy : s.phase = .busy
  noReset : resetNext s = false
  wide : s.w ≠ 0
  enough : n ≤ s.replies.length
  noPending : ∀ r ∈ s.replies.take n, r ≠ .pending

theorem ChunksAnswered.afterSend {n m : Nat} {s : State} {rest : List Reply} (h : ChunksAnswered (n + 1) s)
    (hs : s.replies = .answer (.ok m) :: rest) : ChunksAnswered n (afterSend s m rest) := by
  obtain ⟨hp, hr, hw, hl, hn⟩ := h
  rw [hs] at hl hn
  exact ⟨hp, hr, hw, Nat.le_of_succ_le_succ hl, fun r hm => hn r (List.mem_cons_of_mem _ hm)⟩

/-- One chunk that is answered: `Err` ends the stepped payload and the loop in one go alike; after `Ok` the stepped payload begins
the next chunk or completes, and the loop goes on. -/
theorem run_chunk_answered {n : Nat} {s : State} {j : Nat} (h : ChunksAnswered (n + 1) s) (hj : AtChunk s j)
    (hlt : j * 8 < s.h.toNat) :
    run (chunkPixels s + 1) (emptyChunk s) = .next (payload (n + 1) s) ∨
    ∃ m rest, s.replies = .answer (.ok m) :: rest ∧ payload (n + 1) s = payload n (afterSend s m rest) ∧
      run (chunkPixels s + 1) (emptyChunk s) =
        .next (if (afterSend s m rest).pixi.toNat < s.npix.toNat then emptyChunk (afterSend s m rest)
          else complete .ok (afterSend s m rest)) := by
  rw [run_chunk h.busy h.noReset h.wide hj hlt, payload, sendChunk, sendChunk]
  match hs : s.replies with
  | [] =>
    have hl := h.enough
    simp [hs] at hl
  | .pending :: rest => exact absurd rfl (h.noPending .pending (by simp [hs]))
  | .answer .err :: rest =>
    refine .inl ?_
    rw [txWrite_err _ _ (fillChunk s) rest hs, txWrite_err _ _ (fillChunk s) rest hs]
  | .answer (.ok m) :: rest =>
    refine .inr ⟨m, rest, rfl, ?_, ?_⟩ <;> rw [txWrite_ok _ _ (fillChunk s) m rest hs] <;> rfl

/-- The payload in one go is reached chunk by chunk, if its writes are answered. -/
theorem run_payload (n : Nat) : ∀ {s : State} {j : Nat}, ChunksAnswered (n + 1) s → AtChunk s j →
    n + 1 + j = (s.h.toNat + 7) / 8 → ∃ k, run k (emptyChunk s) = .next (payload (n + 1) s) := by
  induction n with
  | zero =>
    intro s j h hj hcount
    rcases run_chunk_answered h hj (by omega) with hrun | ⟨m, rest, _, hpay, hrun⟩
    · exact ⟨_, hrun⟩
    · have hlast := afterSend_pixi_last (m := m) (rest := rest) hj (by omega) (by omega)
      refine ⟨_, hrun.trans ?_⟩
      rw [hpay, if_neg (by omega)]
      rfl
  | succ n ih =>
    intro s j h hj hcount
    rcases run_chunk_answered h hj (by omega) with hrun | ⟨m, rest, hs, hpay, hrun⟩
    · exact ⟨_, hrun⟩
    · have hnext := next_chunk (n := m) (rest := rest) hj (by omega)
      have hh : (afterSend s m rest).h = s.h := rfl
      have hmore : (afterSend s m rest).pixi.toNat < s.npix.toNat :=
        (hnext.chunkDue h.wide (by rw [hh]; omega)).pixelsRemain
      rw [if_pos hmore] at hrun
      obtain ⟨k, hk⟩ := ih (h.afterSend hs) hnext (by rw [hh]; omega)
      exact ⟨_, (run_add _ k _ _ hrun).trans (by rw [hk, hpay])⟩

/-- Settles O60: by induction on the chunks, each filled as in O59 and then sent. -/
theorem steppedPayloadAgrees : Obligations.SteppedPayloadAgrees := by
  intro s hp _ hw hh hr hl hn
  have hpos := toNat_pos hh
  obtain ⟨n, hcount⟩ : ∃ n, chunkCount s.h = n + 1 := Nat.exists_eq_succ_of_ne_zero (by
    show (s.h.toNat + 7) / 8 ≠ 0
    omega)
  rw [hcount] at hl hn
  rw [streamPixels, hcount]
  exact run_payload n (s := beginPayload s) ⟨hp, hr, hw, hl, hn⟩ (atChunk_zero s) hcount.symm

end Sys2Proof.Machine

/-! # Proofs: what a running command has recorded -/

namespace Sys2Proof.Machine

/-! ## Where a next state comes from -/

/-- A step is reset, the stage of a BUSY block, or a move of the host to an IDLE one (R26, R27, R192, R195). -/
theorem step_origin {s t : State} (hs : step s = .next t) :
    (∃ rest, s.host = .reset :: rest ∧ t = hardReset { s with host := rest }) ∨
    (s.phase = .busy ∧ resetNext s = false ∧ stageStep s = .next t) ∨
    (s.phase = .idle ∧ t = s) ∨
    (∃ j p rest, s.phase = .idle ∧ s.host = .putPixel j p :: rest ∧ t = { s with host := rest, pix := s.pix.write j p }) ∨
    (∃ d rest, s.phase = .idle ∧ s.host = .issue d :: rest ∧ exec (decodeCmd d) { s with host := rest } = .next t) := by
  by_cases hr : ∃ rest, s.host = .reset :: rest
  · obtain ⟨rest, hh⟩ := hr
    rw [step_reset hh] at hs
    cases hs
    exact .inl ⟨rest, hh, rfl⟩
  have hphase : s.phase = .busy ∨ s.phase = .idle := by cases s.phase <;> simp
  rcases hphase with hp | hp
  · have hr := resetNext_eq_false hr
    rw [step_busy hp hr] at hs
    exact .inr (.inl ⟨hp, hr, hs⟩)
  · match hh : s.host with
    | [] =>
      rw [step_quiet hp hh] at hs
      cases hs
      exact .inr (.inr (.inl ⟨hp, rfl⟩))
    | .reset :: rest => exact absurd ⟨rest, hh⟩ hr
    | .putPixel j p :: rest =>
      rw [step_putPixel hp hh] at hs
      cases hs
      exact .inr (.inr (.inr (.inl ⟨j, p, rest, hp, rfl, rfl⟩)))
    | .issue d :: rest =>
      rw [step_issue hp hh] at hs
      exact .inr (.inr (.inr (.inr ⟨d, rest, hp, rfl, hs⟩)))

/-! ## How a command goes on from its record -/

/-- A command that has ended: all its writes answered `Ok`, or the first of them and then one answered `Err` (R123, R164). -/
def RecordEnds (m : PixMem) (i : Instr) (pre : List Event) (t : State) : Prop :=
  ∃ ns, (t.result = .ok ∧ ns.length = (commandWrites m i).length ∧
      t.events = pre ++ .accept i :: (okWrites (commandWrites m i) ns ++ [.complete .ok])) ∨
    (t.result = .writeError ∧ ∃ b, (commandWrites m i)[ns.length]? = some b ∧
      t.events = pre ++ .accept i :: (okWrites (commandWrites m i) ns ++ [.write b .err, .complete .writeError]))

/-- A command accepted after the events `pre` either runs on with its record kept, or has ended after exactly its writes. -/
def RecordGoesOn (m : PixMem) (i : Instr) (pre : List Event) (t : State) : Prop :=
  (t.phase = .busy ∧ t.pix = m ∧ ∃ ns, RunningRecord t i pre ns) ∨ (t.phase = .idle ∧ RecordEnds m i pre t)

/-- The events of a command whose first writes were answered `Ok` with the counts `ns`. -/
def Recorded (s : State) (i : Instr) (pre : List Event) (ns : List Nat) : Prop :=
  s.events = pre ++ .accept i :: okWrites (commandWrites s.pix i) ns

theorem recorded_accepted {s : State} {i : Instr} {pre : List Event} (h : s.events = pre ++ [.accept i]) :
    Recorded s i pre [] := by
  rw [Recorded, h, okWrites, List.zipWith_nil_right]

theorem Recorded.append {s : State} {i : Instr} {pre : List Event} {ns : List Nat} (h : Recorded s i pre ns) (es : List Event) :
    s.events ++ es = pre ++ .accept i :: (okWrites (commandWrites s.pix i) ns ++ es) := by
  rw [h, List.append_assoc]
  rfl

theorem RecordGoesOn.recordInv {m : PixMem} {i : Instr} {pre : List Event} {t : State} (h : RecordGoesOn m i pre t) :
    RecordInv t := by
  intro hp
  rcases h with ⟨_, _, ns, hrun⟩ | ⟨hi, _⟩
  · exact ⟨i, pre, ns, hrun⟩
  · simp [hp] at hi

theorem RecordGoesOn.ends {m : PixMem} {i : Instr} {pre : List Event} {t : State} (h : RecordGoesOn m i pre t)
    (hp : t.phase = .idle) : RecordEnds m i pre t := by
  rcases h with ⟨hb, _⟩ | ⟨_, hends⟩
  · simp [hp] at hb
  · exact hends

theorem recordInv_idle {s : State} (hp : s.phase = .idle) : RecordInv s := fun hb => by simp [hp] at hb

/-- Completing with OK after the last write ends the record. -/
theorem recordGoesOn_complete {s : State} {i : Instr} {pre : List Event} {ns : List Nat} (he : Recorded s i pre ns)
    (hall : ns.length = (commandWrites s.pix i).length) : RecordGoesOn s.pix i pre (complete .ok s) :=
  .inr ⟨rfl, ns, .inl ⟨rfl, hall, he.append _⟩⟩

/-- The command's next write: `Err` ends the record, and what follows its `Ok`, or waits for it, has to go on. -/
theorem recordGoesOn_txWrite {bs : List Byte} {f : State → State} {s : State} {i : Instr} {pre : List Event} {ns : List Nat}
    (he : Recorded s i pre ns) (hb : (commandWrites s.pix i)[ns.length]? = some bs)
    (hok : ∀ (n : Nat) (rest : List Reply) (es : List Event),
      Recorded { s with replies := rest, inFlight := false, events := es } i pre (ns ++ [n]) →
      RecordGoesOn s.pix i pre (f { s with replies := rest, inFlight := false, events := es }))
    (hwait : ∀ rest, RecordGoesOn s.pix i pre { s with replies := rest, inFlight := true }) :
    RecordGoesOn s.pix i pre (txWrite bs f s) := by
  rcases txWrite_cases bs f s with ⟨n, rest, _, h⟩ | ⟨rest, _, h⟩ | ⟨rest, _, h⟩ <;> rw [h]
  · refine hok n rest _ ?_
    rw [Recorded, okWrites_snoc _ _ hb]
    exact he.append _
  · refine .inr ⟨rfl, ns, .inr ⟨rfl, bs, hb, ?_⟩⟩
    rw [complete_events, List.append_assoc]
    exact he.append _
  · exact hwait rest

/-- A record says nothing of the tape or of the write in flight. -/
theorem RunningRecord.waits {s : State} {i : Instr} {pre : List Event} {ns : List Nat} (h : RunningRecord s i pre ns)
    (rest : List Reply) : RunningRecord { s with replies := rest, inFlight := true } i pre ns :=
  ⟨h.command, h.record, h.atFrame, h.atPayload⟩

/-! ## The payload -/

theorem commandWrites_draw_length (m : PixMem) (w h : Dim) :
    (commandWrites m (.draw w h)).length = 1 + (h.toNat + 7) / 8 := by
  rw [commandWrites, drawWrites_eq, List.length_cons, List.length_map, List.length_range, Nat.add_comm]

/-- Before chunk `j` PIXI has counted `j` chunks. -/
theorem AtChunk.chunksSent {s : State} {j : Nat} (h : AtChunk s j) (hw : s.w ≠ 0) : s.pixi.toNat / (8 * s.w.toNat) = j := by
  have := toNat_pos hw
  rw [h.start, Nat.mul_div_cancel _ (by omega)]

/-- At FILL or SEND_CHUNK the record of a DRAW is its frame and the chunks before PIXI. -/
theorem runningRecord_payload {s : State} {i : Instr} {pre : List Event} {ns : List Nat} {j : Nat}
    (hq : s.seq = .fill ∨ s.seq = .sendChunk) (hi : i = .draw s.w s.h) (hw : s.w ≠ 0) (hj : AtChunk s j)
    (hn : ns.length = 1 + j) (he : Recorded s i pre ns) : RunningRecord s i pre ns where
  command := by rw [hi]; rfl
  record := he
  atFrame h := by rcases hq with hq | hq <;> simp [hq] at h
  atPayload _ := ⟨hi, by rw [hj.chunksSent hw, hn]⟩

/-- DRAW's loop over its remaining chunks: each is the next of its writes. -/
theorem recordGoesOn_payload {i : Instr} {pre : List Event} : ∀ (n : Nat) {s : State} {j : Nat} {ns : List Nat},
    s.phase = .busy → s.w ≠ 0 → i = .draw s.w s.h → ns.length = 1 + j → Recorded s i pre ns →
    n + j = (s.h.toNat + 7) / 8 → (n ≠ 0 → AtChunk s j) → RecordGoesOn s.pix i pre (payload n s)
  | 0, s, j, ns, _, _, hi, hn, he, hcount, _ => by
    refine recordGoesOn_complete he ?_
    rw [hi, commandWrites_draw_length]
    omega
  | n + 1, s, j, ns, hp, hw, hi, hn, he, hcount, hj => by
    have hj := hj (Nat.succ_ne_zero n)
    have hnext : (commandWrites s.pix i)[ns.length]? = some (fillChunk s).cb := by
      rw [hi, hn, Nat.add_comm]
      exact drawWrites_get hj rfl rfl rfl (by omega)
    have hfilled : AtChunk (fillChunk s) j := ⟨hj.pixelCount, hj.start, hj.within⟩
    rw [payload, sendChunk]
    refine recordGoesOn_txWrite (s := fillChunk s) he hnext (fun m rest es hes => ?_) fun rest => ?_
    · refine recordGoesOn_payload n (j := j + 1) hp hw hi (by simp [hn]; omega) hes ?_ fun hn0 => ?_
      · simp only [advancePixi_h, fillChunk_h]
        omega
      · obtain ⟨ha, hb, hc⟩ := next_chunk (n := 0) (rest := rest) hj (by omega)
        exact ⟨ha, hb, hc⟩
    · exact .inl ⟨hp, rfl, ns, (runningRecord_payload (s := fillChunk s) (.inr rfl) hi hw hfilled hn he).waits rest⟩

/-- DRAW after its frame. -/
theorem recordGoesOn_streamPixels {s : State} {i : Instr} {pre : List Event} {n : Nat} (hp : s.phase = .busy) (hw : s.w ≠ 0)
    (hi : i = .draw s.w s.h) (he : Recorded s i pre [n]) : RecordGoesOn s.pix i pre (streamPixels s) :=
  recordGoesOn_payload (s := beginPayload s) _ hp hw hi rfl he rfl fun _ => atChunk_zero s

/-- The width of a running DRAW is not 0 (R120). -/
theorem MachineInv.wide {s : State} (h : MachineInv s) (hp : s.phase = .busy) (hk : s.kind = .draw) : s.w ≠ 0 :=
  DrawSized.wide (h.drawSize hp hk)

/-- Inside the payload PIXI stands before a chunk with rows remaining. -/
theorem PayloadInv.atChunk {s : State} (h : PayloadInv s) :
    AtChunk s (s.pixi.toNat / (8 * s.w.toNat)) ∧ s.pixi.toNat / (8 * s.w.toNat) * 8 < s.h.toNat := by
  have hstart := Nat.div_mul_cancel (Nat.dvd_of_mod_eq_zero h.chunkStart)
  have hlt : s.pixi.toNat / (8 * s.w.toNat) * 8 < s.h.toNat := by
    refine Nat.lt_of_mul_lt_mul_left (a := s.w.toNat) ?_
    rw [← h.pixelCount, show ∀ j, s.w.toNat * (j * 8) = j * (8 * s.w.toNat) by intro j; ring, hstart]
    exact h.pixelsRemain
  exact ⟨⟨h.pixelCount, hstart.symm, Nat.le_of_lt hlt⟩, hlt⟩

/-- A whole chunk that waits in CB is the chunk that PIXI stands at. -/
theorem PayloadInv.whole_chunk {s : State} (h : PayloadInv s) (hl : s.clen.toNat = 2 * chunkPixels s) :
    s.cb = (fillChunk s).cb := by
  rw [h.chunkBytes, hl, Nat.mul_div_cancel_left _ two_pos]
  rfl

/-- Once a whole chunk was answered `Ok`, PIXI stands where the loop in one go has it. -/
theorem advancePixi_pixi_whole {s : State} (hl : s.clen.toNat = 2 * chunkPixels s) (n : Nat) (rest : List Reply) :
    (advancePixi s).pixi = (afterSend s n rest).pixi := by
  simp only [afterSend, advancePixi_pixi, fillChunk_pixi, fillChunk_clen_toNat, hl]

/-- After chunk `j` the next begins, or all of DRAW's writes were answered. -/
theorem recordGoesOn_afterChunk {s : State} {i : Instr} {pre : List Event} {ns : List Nat} {j : Nat} (hp : s.phase = .busy)
    (hw : s.w ≠ 0) (hi : i = .draw s.w s.h) (hj : AtChunk s j) (hlt : j * 8 < s.h.toNat)
    (hl : s.clen.toNat = 2 * chunkPixels s) (hn : ns.length = 1 + (j + 1)) (he : Recorded s i pre ns) :
    RecordGoesOn s.pix i pre (afterChunk s) := by
  have hsame := advancePixi_pixi_whole hl 0 []
  by_cases hrows : (j + 1) * 8 < s.h.toNat
  · obtain ⟨hcount, hstart, hwithin⟩ := next_chunk (n := 0) (rest := []) hj (Nat.le_of_lt hrows)
    have hnext : AtChunk (advancePixi s) (j + 1) := ⟨hcount, hsame ▸ hstart, hwithin⟩
    rw [afterChunk_more (hnext.chunkDue hw hrows).pixelsRemain]
    exact .inl ⟨hp, rfl, ns, runningRecord_payload (s := emptyChunk (advancePixi s)) (.inl rfl) hi hw
      ⟨hnext.pixelCount, hnext.start, hnext.within⟩ hn he⟩
  · have hlast := afterSend_pixi_last (m := 0) (rest := []) hj hlt (Nat.le_of_not_lt hrows)
    rw [afterChunk_last (by rw [hsame, hlast]; exact Nat.lt_irrefl _)]
    refine recordGoesOn_complete (s := advancePixi s) he ?_
    rw [hn, hi, commandWrites_draw_length]
    omega

/-- A chunk that waits in CB is the next write of its DRAW. -/
theorem recordGoesOn_sendChunk {s : State} {i : Instr} {pre : List Event} {ns : List Nat} (hp : s.phase = .busy)
    (hq : s.seq = .sendChunk) (hw : s.w ≠ 0) (hpay : PayloadInv s) (hl : s.clen.toNat = 2 * chunkPixels s)
    (h : RunningRecord s i pre ns) : RecordGoesOn s.pix i pre (sendChunk afterChunk s) := by
  obtain ⟨hi, hn⟩ := h.atPayload (.inr hq)
  obtain ⟨hj, hlt⟩ := hpay.atChunk
  have hnext : (commandWrites s.pix i)[ns.length]? = some s.cb := by
    rw [hi, hn, Nat.add_comm, hpay.whole_chunk hl]
    exact drawWrites_get hj rfl rfl rfl (by omega)
  refine recordGoesOn_txWrite h.record hnext (fun m rest es hes => ?_) fun rest => .inl ⟨hp, rfl, ns, h.waits rest⟩
  exact recordGoesOn_afterChunk hp hw hi ⟨hj.pixelCount, hj.start, hj.within⟩ hlt hl (by simp [hn]; omega) hes

/-- A pixel that joins CB changes nothing of the record. -/
theorem runningRecord_fillPixel {s : State} {i : Instr} {pre : List Event} {ns : List Nat} (p : BitVec 16)
    (hq : s.seq = .fill) (h : RunningRecord s i pre ns) : RunningRecord (fillPixel p s) i pre ns where
  command := h.command
  record := h.record
  atFrame hs := by
    rw [fillPixel_seq] at hs
    split at hs <;> cases hs
  atPayload _ := h.atPayload (.inl hq)

/-! ## Frames and commands -/

/-- A command writes its frame first. -/
theorem commandWrites_head {i : Instr} (m : PixMem) : (commandWrites m i)[0]? = some (commandFrame i) := by
  cases i <;> rfl

/-- A command that is no DRAW writes its frame alone. -/
theorem commandWrites_oneFrame {i : Instr} (hi : ∀ w h, i ≠ .draw w h) (m : PixMem) : commandWrites m i = [commandFrame i] := by
  cases i
  case draw w h => exact absurd rfl (hi w h)
  all_goals rfl

/-- At SEND_FRAME the command's frame is its next write. -/
theorem RunningRecord.sendFrame {f : State → State} {s : State} {i : Instr} {pre : List Event} {ns : List Nat}
    (h : RunningRecord s i pre ns) (hp : s.phase = .busy) (hq : s.seq = .sendFrame)
    (hok : ∀ (n : Nat) (rest : List Reply) (es : List Event),
      Recorded { s with replies := rest, inFlight := false, events := es } i pre [n] →
      RecordGoesOn s.pix i pre (f { s with replies := rest, inFlight := false, events := es })) :
    RecordGoesOn s.pix i pre (Machine.sendFrame f s) := by
  obtain ⟨rfl, hframe, -⟩ := h.atFrame hq
  rw [Machine.sendFrame, hframe]
  exact recordGoesOn_txWrite h.record (commandWrites_head s.pix) hok fun rest => .inl ⟨hp, rfl, [], h.waits rest⟩

/-- After its frame a DRAW begins its payload, and every other command has ended. -/
theorem recordGoesOn_afterFrame {s : State} {i : Instr} {pre : List Event} {n : Nat} (hp : s.phase = .busy)
    (hdraw : s.kind = .draw → i = .draw s.w s.h ∧ s.w ≠ 0) (hone : s.kind ≠ .draw → ∀ w h, i ≠ .draw w h)
    (he : Recorded s i pre [n]) : RecordGoesOn s.pix i pre (afterFrame s) := by
  have hend : s.kind ≠ .draw → RecordGoesOn s.pix i pre (complete .ok s) := fun hk =>
    recordGoesOn_complete he (by rw [commandWrites_oneFrame (hone hk)]; rfl)
  unfold afterFrame
  split
  · next hk => exact hend (by simp [hk])
  · next hk => exact hend (by simp [hk])
  · next hk =>
    obtain ⟨hi, hw⟩ := hdraw hk
    exact .inl ⟨hp, rfl, [n], runningRecord_payload (s := beginPayload s) (.inl rfl) hi hw (atChunk_zero s) rfl he⟩

/-- FRAME builds the frame of a command from what it latched. -/
theorem frameBytes_built {i : Instr} (hi : i.format = .cmd80) (hd : commandKind i ≠ .draw) (q : Seq) (s : State) :
    frameBytes (buildFrame (commandLatch i (accept i (commandKind i) q s))) = commandFrame i := by
  rw [frameBytes_buildFrame]
  cases i
  case draw => exact absurd rfl hd
  case region op x y ex ey => exact congrArg (regionFrame x y ex ey) (opcodeRom_tag op)
  case clear | toBlack | screenOff | screenOn | setBrightness | setOrientation => rfl
  all_goals cases hi

/-- An accepted command of one frame sends it. -/
theorem recordGoesOn_oneFrame {i : Instr} {s t : State} (hi : i.format = .cmd80) (hd : commandKind i ≠ .draw)
    (hp : s.phase = .idle) (he : exec i s = .next t) : RecordGoesOn s.pix i s.events t := by
  rcases frameCommand_cases i (commandKind i) (commandLatch i) s with ⟨hb, _⟩ | ⟨_, hc⟩
  · simp [hp] at hb
  rw [exec_oneFrame hi hd, hc] at he
  cases he
  have hframe := frameBytes_built hi hd .frame s
  have hone : ∀ w h, i ≠ .draw w h := fun w h hx => hd (by rw [hx]; rfl)
  obtain ⟨hpix, _, _, _, _, hev, hphase, hkind, _⟩ := buildFrame_keeps (commandLatch i (accept i (commandKind i) .frame s))
  have hseq := buildFrame_seq (commandLatch i (accept i (commandKind i) .frame s))
  simp only [commandLatch_pix, accept_pix, commandLatch_phase, accept_phase, commandLatch_kind, accept_kind,
    commandLatch_events, accept_events] at hpix hphase hkind hev
  generalize buildFrame (commandLatch i (accept i (commandKind i) .frame s)) = u at *
  have hrun : RunningRecord u i s.events [] :=
    ⟨hi, recorded_accepted hev, fun _ => ⟨rfl, hframe, fun hk => absurd (hkind.symm.trans hk) hd, fun _ => hone⟩,
      fun h => by simp [hseq] at h⟩
  rw [← hpix]
  refine hrun.sendFrame hphase hseq fun n rest es hes => ?_
  exact recordGoesOn_afterFrame hphase (fun hk => absurd (hkind.symm.trans hk) hd) (fun _ => hone) hes

/-- Everything that an accepted DRAW can do: its size is wrong, or it sends its frame and then its payload. -/
theorem exec_draw_next {w h : Dim} {s t : State} (hp : s.phase = .idle) (he : exec (.draw w h) s = .next t) :
    t = complete .wrongImageSize (latchSize w h (accept (.draw w h) .draw .check s)) ∨
    (w ≠ 0 ∧ t = sendFrame streamPixels (drawBuilt s w h)) := by
  rw [exec_draw_idle w h hp] at he
  rcases checkSize_cases (fun t => sendFrame streamPixels (buildFrame t))
    (commandLatch (.draw w h) (accept (.draw w h) .draw .check s)) with ⟨_, hc⟩ | ⟨_, hc⟩ | ⟨_, hw, _, hc⟩ <;>
    rw [hc] at he <;> cases he
  · exact .inl rfl
  · exact .inr ⟨hw, rfl⟩

/-- A DRAW that passed the size check sends its frame and its payload. -/
theorem recordGoesOn_drawBuilt {w h : Dim} (s : State) (hw : w ≠ 0) :
    RecordGoesOn s.pix (.draw w h) s.events (sendFrame streamPixels (drawBuilt s w h)) := by
  have hframe : frameBytes (drawBuilt s w h) = commandFrame (.draw w h) := frameBytes_buildFrame _
  have hrun : RunningRecord (drawBuilt s w h) (.draw w h) s.events [] :=
    ⟨rfl, rfl, fun _ => ⟨rfl, hframe, fun _ => rfl, fun hk => absurd rfl hk⟩, fun h => by rcases h with h | h <;> cases h⟩
  exact hrun.sendFrame rfl rfl fun n rest es hes => recordGoesOn_streamPixels rfl hw rfl hes

/-- An accepted command of an IDLE block has the wrong size, runs on with its record, or has ended. -/
theorem recordGoesOn_command {i : Instr} {s t : State} (hi : i.format = .cmd80) (hp : s.phase = .idle)
    (he : exec i s = .next t) :
    (t.phase = .idle ∧ t.result = .wrongImageSize ∧ t.events = s.events ++ [.accept i, .complete .wrongImageSize]) ∨
    RecordGoesOn s.pix i s.events t := by
  by_cases hd : commandKind i = .draw
  · obtain ⟨w, h, rfl⟩ := eq_draw_of_kind hd
    rcases exec_draw_next hp he with rfl | ⟨hw, rfl⟩
    · exact .inl ⟨rfl, rfl, by simp⟩
    · exact .inr (recordGoesOn_drawBuilt s hw)
  · exact .inr (recordGoesOn_oneFrame hi hd hp he)

/-- The stage of a BUSY block goes on with the record of the running command. -/
theorem recordGoesOn_stageStep {i : Instr} {pre : List Event} {ns : List Nat} {s t : State} (h : MachineInv s)
    (hp : s.phase = .busy) (hrun : RunningRecord s i pre ns) (hs : stageStep s = .next t) : RecordGoesOn s.pix i pre t := by
  rcases h.busyStage hp with hq | hq | hq <;> simp only [stageStep, hq] at hs
  · rw [if_pos (h.frameStands hp hq)] at hs
    cases hs
    obtain ⟨-, -, hdraw, hone⟩ := hrun.atFrame hq
    refine hrun.sendFrame hp hq fun n rest es hes => recordGoesOn_afterFrame hp (fun hk => ⟨hdraw hk, h.wide hp hk⟩) hone hes
  · split at hs <;> cases hs
    exact .inl ⟨hp, rfl, ns, runningRecord_fillPixel _ hq hrun⟩
  · cases hs
    have hpay := h.payloadStands hp (.inr hq)
    exact recordGoesOn_sendChunk hp hq (h.wide hp hpay.kindDraw) hpay (h.chunkWhole hp hq) hrun

/-! ## Totals -/

/-- The bytes of a DRAW: its frame, and two for each pixel (R58). -/
theorem drawWrites_bytes (m : PixMem) (w h : Dim) : ((drawWrites m w h).map List.length).sum = 6 + 2 * w.toNat * h.toNat := by
  have hrows : 2 * w.toNat * h.toNat = h.toNat / 8 * (2 * (8 * w.toNat)) + 2 * (w.toNat * (h.toNat % 8)) := by
    conv_lhs => rw [← Nat.div_add_mod h.toNat 8]
    ring
  rw [hrows, drawWrites, payloadWrites]
  by_cases hz : h.toNat % 8 = 0
  · simp [hz, Function.comp_def]
  · simp [hz, Function.comp_def]

/-- A command that has written all its writes has the totals of R58. -/
theorem commandTotals_of_writes {i : Instr} {m : PixMem} {es : List Event} (hi : i.format = .cmd80)
    (h : (writesOf es).map Prod.fst = commandWrites m i) : commandTotals i es := by
  have hlength : (writesOf es).length = (commandWrites m i).length := by rw [← h, List.length_map]
  have hbytes : bytesWritten es = ((commandWrites m i).map List.length).sum := by
    rw [← h, List.map_map]
    rfl
  cases i
  case draw w hh =>
    exact ⟨hlength.trans (commandWrites_draw_length m w hh), hbytes.trans (drawWrites_bytes m w hh)⟩
  case region | clear | toBlack | screenOff | screenOn | setBrightness | setOrientation => exact ⟨hlength, hbytes⟩
  all_goals cases hi

/-- So has one whose writes were all answered `Ok`. -/
theorem commandTotals_okWrites {i : Instr} {m : PixMem} {ns : List Nat} (hi : i.format = .cmd80)
    (hn : ns.length = (commandWrites m i).length) :
    commandTotals i (okWrites (commandWrites m i) ns ++ [.complete .ok]) := by
  refine commandTotals_of_writes (m := m) hi ?_
  rw [writesOf_append, writesOf, writesOf, List.append_nil, writesOf_okWrites _ _ hn]

/-- Settles O51: a command accepted begins a record, and each stage of a running one goes on with it. -/
theorem commandRecordKept : Obligations.CommandRecordKept := by
  refine ⟨recordInv_idle rfl, fun s t h hrec hs => ?_⟩
  have idle (hi : s.phase = .idle) (ht : RecordInv t) {Q : Prop} : RecordInv t ∧ (s.phase = .busy → Q) :=
    ⟨ht, fun hb => by simp [hi] at hb⟩
  rcases step_origin hs with
    ⟨rest, hh, rfl⟩ | ⟨hp, _, hst⟩ | ⟨hi, rfl⟩ | ⟨_, _, _, hi, _, rfl⟩ | ⟨d, rest, hi, _, he⟩
  · exact ⟨recordInv_idle rfl, fun _ hr => by simp [resetNext, hh] at hr⟩
  · obtain ⟨i, pre, ns, hrun⟩ := hrec hp
    have hgo := recordGoesOn_stageStep h hp hrun hst
    refine ⟨hgo.recordInv, fun _ _ ht => ?_⟩
    obtain ⟨ms, ⟨hres, hall, he⟩ | ⟨hres, b, hb, he⟩⟩ := hgo.ends ht
    · exact ⟨i, pre, ms, _, hrun.command, he, .inl ⟨hres, hall, rfl, commandTotals_okWrites hrun.command hall⟩⟩
    · exact ⟨i, pre, ms, _, hrun.command, he, .inr ⟨hres, b, hb, rfl⟩⟩
  · exact idle hi hrec
  · exact idle hi (recordInv_idle hi)
  · refine idle hi ?_
    rcases recordGoesOn_command (s := { s with host := rest }) (decodeCmd_format d) hi he with ⟨ht, _⟩ | hgo
    · exact recordInv_idle ht
    · exact hgo.recordInv

/-- Settles O31: a command that has ended with OK in its step has written all its writes. -/
theorem writeTotals : Obligations.WriteTotals := by
  intro s t i hp hi he ht hok
  rcases recordGoesOn_command hi hp he with ⟨_, hres, _⟩ | hgo
  · simp [hok] at hres
  obtain ⟨ns, ⟨_, hall, hes⟩ | ⟨hres, _⟩⟩ := hgo.ends ht
  · exact ⟨_, hes, commandTotals_okWrites hi hall⟩
  · simp [hok] at hres

end Sys2Proof.Machine

/-! # Proofs: PIX and the lengths of writes -/

namespace Sys2Proof.Machine

/-! ## PIX -/

theorem Continues.pix {s t : State} (h : Continues s t) : t.pix = s.pix := h.1

theorem Executes.pix {i : Instr} {s t : State} (h : Executes i s t) : t.pix = s.pix := by
  rcases h with rfl | ⟨_, u, _, hpix, _, _, _, hc | rfl⟩ | ⟨_, hc⟩
  · rfl
  · exact hc.pix.trans hpix
  · exact hpix
  · exact hc.pix

/-- Settles O42: of all that a step can do, only the host's fill touches PIX. -/
theorem pixNeverWritten : Obligations.PixNeverWritten := by
  intro s t h hs
  rcases step_advances hs with ⟨_, _, rfl⟩ | ⟨_, _, _, hp, hh, _⟩ | rfl | ⟨_, _, _, _, he⟩ | ⟨_, hc | rfl⟩
  · rfl
  · simp [hp, fillsNext, hh] at h
  · rfl
  · exact he.pix
  · exact hc.pix
  · rfl

/-! ## W and H -/

/-- A stage leaves W and H as they are. -/
def KeepsSize (f : State → State) : Prop := ∀ s, (f s).w = s.w ∧ (f s).h = s.h

theorem KeepsSize.txWrite {f : State → State} (hf : KeepsSize f) (bs : List Byte) : KeepsSize (Machine.txWrite bs f) := by
  intro s
  rcases txWrite_cases bs f s with ⟨n, rest, _, h⟩ | ⟨rest, _, h⟩ | ⟨rest, _, h⟩ <;> rw [h]
  · exact hf _
  · exact ⟨rfl, rfl⟩
  · exact ⟨rfl, rfl⟩

theorem KeepsSize.sendFrame {f : State → State} (hf : KeepsSize f) : KeepsSize (Machine.sendFrame f) :=
  fun s => hf.txWrite (frameBytes s) s

theorem keepsSize_payload : ∀ n, KeepsSize (payload n)
  | 0, _ => ⟨rfl, rfl⟩
  | n + 1, s =>
    KeepsSize.txWrite (f := fun t => payload n (advancePixi t)) (fun t => keepsSize_payload n (advancePixi t)) _ (fillChunk s)

theorem keepsSize_streamPixels : KeepsSize streamPixels := fun s => keepsSize_payload _ (beginPayload s)

theorem keepsSize_afterFrame : KeepsSize afterFrame := by
  intro s
  unfold afterFrame
  split <;> exact ⟨rfl, rfl⟩

theorem keepsSize_afterChunk : KeepsSize afterChunk := by
  intro s
  by_cases h : (advancePixi s).pixi.toNat < (advancePixi s).npix.toNat
  · rw [afterChunk_more h]
    exact ⟨rfl, rfl⟩
  · rw [afterChunk_last h]
    exact ⟨rfl, rfl⟩

/-! ## What a step writes -/

/-- From `s` to `t` events are added, and each write among them carries bytes with the property. -/
def Writes (P : List Byte → Prop) (s t : State) : Prop :=
  ∃ es, t.events = s.events ++ es ∧ ∀ b a, (b, a) ∈ writesOf es → P b

theorem writes_of_same {P : List Byte → Prop} {s t : State} (h : t.events = s.events) : Writes P s t :=
  ⟨[], by simp [h], fun _ _ hb => by cases hb⟩

theorem writes_complete (P : List Byte → Prop) (st : Status) (s : State) : Writes P s (complete st s) :=
  ⟨[.complete st], rfl, fun _ _ hb => by cases hb⟩

theorem Writes.mono {P Q : List Byte → Prop} {s t : State} (h : Writes P s t) (hPQ : ∀ b, P b → Q b) : Writes Q s t := by
  obtain ⟨es, he, hw⟩ := h
  exact ⟨es, he, fun b a hb => hPQ b (hw b a hb)⟩

theorem writes_txWrite {P : List Byte → Prop} {bs : List Byte} {f : State → State} (hb : P bs) (hf : ∀ t, Writes P t (f t))
    (s : State) : Writes P s (txWrite bs f s) := by
  rcases txWrite_cases bs f s with ⟨n, rest, _, h⟩ | ⟨rest, _, h⟩ | ⟨rest, _, h⟩ <;> rw [h]
  · obtain ⟨es, he, hw⟩ := hf { s with replies := rest, inFlight := false, events := s.events ++ [.write bs (.ok n)] }
    refine ⟨.write bs (.ok n) :: es, by simpa using he, fun b a hm => ?_⟩
    rcases List.mem_cons.mp hm with hm | hm
    · cases hm
      exact hb
    · exact hw b a hm
  · refine ⟨[.write bs .err, .complete .writeError], by simp, fun b a hm => ?_⟩
    cases List.mem_singleton.mp hm
    exact hb
  · exact writes_of_same rfl

theorem writes_afterFrame (P : List Byte → Prop) (s : State) : Writes P s (afterFrame s) := by
  unfold afterFrame
  split
  · exact writes_complete P .ok s
  · exact writes_complete P .ok s
  · exact writes_of_same rfl

theorem writes_afterChunk (P : List Byte → Prop) (s : State) : Writes P s (afterChunk s) := by
  by_cases h : (advancePixi s).pixi.toNat < (advancePixi s).npix.toNat
  · rw [afterChunk_more h]
    exact writes_of_same rfl
  · rw [afterChunk_last h]
    exact writes_complete P .ok (advancePixi s)

theorem mem_of_okWrites {b : List Byte} {a : Answer} {ws : List (List Byte)} {ns : List Nat}
    (h : (b, a) ∈ writesOf (okWrites ws ns)) : b ∈ ws := by
  induction ws generalizing ns with
  | nil => cases h
  | cons w ws ih =>
    cases ns with
    | nil => cases h
    | cons n ns =>
      rcases List.mem_cons.mp h with h | h
      · cases h
        exact List.mem_cons_self
      · exact List.mem_cons_of_mem w (ih h)

/-- A command accepted at `s` writes nothing but its own writes. -/
theorem RecordGoesOn.writes {i : Instr} {s t : State} (h : RecordGoesOn s.pix i s.events t) :
    Writes (· ∈ commandWrites s.pix i) s t := by
  rcases h with ⟨_, hpix, ns, hrun⟩ | ⟨_, ns, ⟨_, _, he⟩ | ⟨_, b, hb, he⟩⟩
  · exact ⟨_, hrun.record, fun b a hm => hpix ▸ mem_of_okWrites hm⟩
  · refine ⟨_, he, fun b a hm => ?_⟩
    rw [writesOf, writesOf_append] at hm
    exact mem_of_okWrites (by simpa [writesOf] using hm)
  · refine ⟨_, he, fun c a hm => ?_⟩
    rw [writesOf, writesOf_append] at hm
    rcases List.mem_append.mp hm with hm | hm
    · exact mem_of_okWrites hm
    · cases List.mem_singleton.mp hm
      exact List.mem_of_getElem? hb

/-! ## Lengths -/

/-- Bytes of one of the lengths of R47, and at least one. -/
def AllowedWrite (w h : Dim) (b : List Byte) : Prop := writeSizeAllowed w h b.length ∧ b ≠ []

theorem allowedWrite_frame {w h : Dim} {b : List Byte} (hb : b.length = 6 ∨ b.length = 11) : AllowedWrite w h b := by
  refine ⟨hb.elim .inl fun hb => .inr (.inl hb), List.ne_nil_of_length_pos (by omega)⟩

/-- A chunk has eight rows, or the `H mod 8` that remain (R114, R115). -/
theorem allowedWrite_chunkBytes {w h : Dim} {j : Nat} (m : PixMem) (hw : w ≠ 0) (hj : j * 8 < h.toNat) :
    AllowedWrite w h (chunkBytes m w.toNat h.toNat j) := by
  have hpos := toNat_pos hw
  have hleft : w.toNat * h.toNat - j * (8 * w.toNat) = w.toNat * (h.toNat - j * 8) := by
    rw [Nat.mul_sub, show w.toNat * (j * 8) = j * (8 * w.toNat) by ring]
  have hlen : (chunkBytes m w.toNat h.toNat j).length = 2 * (w.toNat * min 8 (h.toNat - j * 8)) := by
    rw [chunkBytes, rangeBytes_length, hleft, Nat.mul_comm 8, Nat.mul_min_mul_left]
  have hrows : 0 < w.toNat * min 8 (h.toNat - j * 8) := Nat.mul_pos hpos (by omega)
  refine ⟨?_, List.ne_nil_of_length_pos (by omega)⟩
  rw [hlen, ← Nat.mul_assoc]
  by_cases hfull : 8 ≤ h.toNat - j * 8
  · rw [Nat.min_eq_left hfull]
    exact .inr (.inr (.inl rfl))
  · have hrest : h.toNat - j * 8 = h.toNat % 8 := by omega
    rw [Nat.min_eq_right (by omega), hrest]
    exact .inr (.inr (.inr ⟨by omega, rfl⟩))

theorem allowedWrite_drawWrites {w h : Dim} {m : PixMem} {b : List Byte} (hw : w ≠ 0) (hb : b ∈ drawWrites m w h) :
    AllowedWrite w h b := by
  rw [drawWrites_eq] at hb
  rcases List.mem_cons.mp hb with rfl | hb
  · exact allowedWrite_frame (.inl rfl)
  · obtain ⟨j, hj, rfl⟩ := List.mem_map.mp hb
    have := List.mem_range.mp hj
    exact allowedWrite_chunkBytes m hw (by omega)

theorem commandFrame_length {i : Instr} (hi : i.format = .cmd80) :
    (commandFrame i).length = 6 ∨ (commandFrame i).length = 11 := by
  cases i
  case region | clear | toBlack | screenOff | screenOn | setBrightness | draw => exact .inl rfl
  case setOrientation => exact .inr rfl
  all_goals cases hi

/-- A frame that stands in FB has one of the two lengths of R60. -/
theorem frameReady_length {s : State} (h : frameReady s = true) : (frameBytes s).length = 6 ∨ (frameBytes s).length = 11 := by
  obtain ⟨i, hi⟩ := Option.isSome_iff_exists.mp h
  by_cases hfl : s.flen = 11
  · have hf : frameFormat s = .o11 := if_pos hfl
    rw [hf] at hi
    exact .inr (exec_decoded (.inr rfl) (decoded_eq_instr hi) s).2
  · have hf : frameFormat s = .r6 := if_neg hfl
    rw [hf] at hi
    exact .inl (exec_decoded (.inl rfl) (decoded_eq_instr hi) s).2

/-- A command of an IDLE block writes its frame, and a DRAW its chunks. -/
theorem writes_command {i : Instr} {s t : State} (hi : i.format = .cmd80) (hp : s.phase = .idle) (he : exec i s = .next t) :
    Writes (AllowedWrite t.w t.h) s t := by
  by_cases hd : commandKind i = .draw
  · obtain ⟨w, h, rfl⟩ := eq_draw_of_kind hd
    rcases exec_draw_next hp he with rfl | ⟨hw, ht⟩
    · exact ⟨[.accept (.draw w h), .complete .wrongImageSize], by simp, fun _ _ hb => by cases hb⟩
    · obtain ⟨htw, hth⟩ := keepsSize_streamPixels.sendFrame (drawBuilt s w h)
      rw [← ht] at htw hth
      rw [htw, hth]
      exact (ht ▸ recordGoesOn_drawBuilt s hw).writes.mono fun b hb => allowedWrite_drawWrites hw hb
  · have hone : ∀ w h, i ≠ .draw w h := fun w h hx => hd (by rw [hx]; rfl)
    refine (recordGoesOn_oneFrame hi hd hp he).writes.mono fun b hb => ?_
    rw [commandWrites_oneFrame hone] at hb
    rw [List.mem_singleton.mp hb]
    exact allowedWrite_frame (commandFrame_length hi)

/-- The stage of a BUSY block writes the frame in FB, the chunk in CB, or nothing. -/
theorem writes_stageStep {s t : State} (h : MachineInv s) (hp : s.phase = .busy) (hs : stageStep s = .next t) :
    Writes (AllowedWrite t.w t.h) s t := by
  rcases h.busyStage hp with hq | hq | hq <;> simp only [stageStep, hq] at hs
  · have hready := h.frameStands hp hq
    rw [if_pos hready] at hs
    cases hs
    exact writes_txWrite (allowedWrite_frame (frameReady_length hready)) (writes_afterFrame _) s
  · split at hs <;> cases hs
    exact writes_of_same rfl
  · cases hs
    have hpay := h.payloadStands hp (.inr hq)
    obtain ⟨hj, hlt⟩ := hpay.atChunk
    obtain ⟨hw, hh⟩ := keepsSize_afterChunk.txWrite s.cb s
    rw [sendChunk, hw, hh]
    refine writes_txWrite ?_ (writes_afterChunk _) s
    rw [hpay.whole_chunk (h.chunkWhole hp hq), fillChunk_cb_eq hj]
    exact allowedWrite_chunkBytes s.pix (h.wide hp hpay.kindDraw) hlt

/-- Settles O47: by where the step comes from. -/
theorem writeSizes : Obligations.WriteSizes := by
  intro s t h hs
  rcases step_origin hs with ⟨_, _, rfl⟩ | ⟨hp, _, hst⟩ | ⟨_, rfl⟩ | ⟨_, _, _, _, _, rfl⟩ | ⟨d, rest, hp, _, he⟩
  · exact writes_of_same rfl
  · exact writes_stageStep h hp hst
  · exact writes_of_same rfl
  · exact writes_of_same rfl
  · exact writes_command (s := { s with host := rest }) (decodeCmd_format d) hp he

end Sys2Proof.Machine

/-! # Proofs: the counts of the transport's answers -/

namespace Sys2Proof.Machine

/-- A stage does the same whatever the counts are (R46). -/
def IgnoresCounts (g : State → State) : Prop := ∀ (f : Nat → Nat) (s : State), g (s.recount f) = (g s).recount f

/-! ## Writes and stages -/

theorem ignoresCounts_complete (st : Status) : IgnoresCounts (complete st) := by
  intro f s
  simp only [complete, State.recount, List.map_append]
  rfl

/-- The tape answers alike, so what follows an `Ok` has to ignore the counts, and its own is recorded only. -/
theorem IgnoresCounts.txWrite {g : State → State} (hg : IgnoresCounts g) (bs : List Byte) :
    IgnoresCounts (Machine.txWrite bs g) := by
  intro f s
  rcases txWrite_cases bs g s with ⟨n, rest, hs, h⟩ | ⟨rest, hs, h⟩ | ⟨rest, hs | ⟨hs, rfl⟩, h⟩ <;> rw [h]
  · rw [txWrite_ok bs g (s.recount f) (f n) (rest.map (Reply.recount f)) (by simp [State.recount, hs, Reply.recount]), ← hg]
    simp only [State.recount, List.map_append]
    rfl
  · rw [txWrite_err bs g (s.recount f) (rest.map (Reply.recount f)) (by simp [State.recount, hs, Reply.recount]),
      ← ignoresCounts_complete]
    simp only [State.recount, List.map_append]
    rfl
  · exact txWrite_pending bs g (s.recount f) (rest.map (Reply.recount f)) (by simp [State.recount, hs, Reply.recount])
  · rw [txWrite_nil bs g (s.recount f) (by simp [State.recount, hs])]
    simp only [State.recount, hs, List.map_nil]

theorem IgnoresCounts.sendFrame {g : State → State} (hg : IgnoresCounts g) : IgnoresCounts (Machine.sendFrame g) :=
  fun f s => hg.txWrite (frameBytes s) f s

theorem ignoresCounts_payload : ∀ n, IgnoresCounts (payload n)
  | 0 => ignoresCounts_complete .ok
  | n + 1 => fun f s =>
    IgnoresCounts.txWrite (g := fun t => payload n (advancePixi t)) (fun f t => ignoresCounts_payload n f (advancePixi t)) _ f
      (fillChunk s)

theorem ignoresCounts_streamPixels : IgnoresCounts streamPixels := fun f s => ignoresCounts_payload _ f (beginPayload s)

theorem ignoresCounts_buildFrame : IgnoresCounts buildFrame := by
  intro f s
  have hk : (s.recount f).kind = s.kind := rfl
  unfold buildFrame
  rw [hk]
  cases s.kind <;> rfl

theorem ignoresCounts_afterFrame : IgnoresCounts afterFrame := by
  intro f s
  have hk : (s.recount f).kind = s.kind := rfl
  unfold afterFrame
  rw [hk]
  cases s.kind
  · exact ignoresCounts_complete .ok f s
  · exact ignoresCounts_complete .ok f s
  · rfl

theorem ignoresCounts_afterChunk : IgnoresCounts afterChunk := by
  intro f s
  by_cases h : (advancePixi s).pixi.toNat < (advancePixi s).npix.toNat
  · rw [afterChunk_more h]
    exact afterChunk_more (s := s.recount f) h
  · rw [afterChunk_last h, ← ignoresCounts_complete]
    exact afterChunk_last (s := s.recount f) h

theorem ignoresCounts_accept (i : Instr) (k : Kind) (q : Seq) : IgnoresCounts (accept i k q) := by
  intro f s
  simp only [accept, State.recount, List.map_append]
  rfl

theorem ignoresCounts_commandLatch (i : Instr) : IgnoresCounts (commandLatch i) := by
  intro f s
  cases i <;> rfl

/-- The size check does the same, if what follows it does. -/
theorem checkSize_recount {g : State → State} (hg : IgnoresCounts g) (f : Nat → Nat) (s : State) :
    checkSize g (s.recount f) = recountOutcome f (checkSize g s) := by
  have hsize : (s.recount f).w = s.w ∧ (s.recount f).h = s.h := ⟨rfl, rfl⟩
  unfold checkSize
  rw [hsize.1, hsize.2]
  split
  · split
    · rfl
    · exact congrArg Host.Outcome.next (hg f { s with seq := .frame })
  · exact congrArg Host.Outcome.next (ignoresCounts_complete .wrongImageSize f s)

/-! ## Commands and steps -/

theorem exec_recount {i : Instr} {s : State} (hi : i.format = .cmd80) (hp : s.phase = .idle) (f : Nat → Nat) :
    exec i (s.recount f) = recountOutcome f (exec i s) := by
  have hp' : (s.recount f).phase = .idle := hp
  by_cases hd : commandKind i = .draw
  · obtain ⟨w, h, rfl⟩ := eq_draw_of_kind hd
    rw [exec_draw_idle w h hp, exec_draw_idle w h hp', ignoresCounts_accept, ignoresCounts_commandLatch]
    refine checkSize_recount (fun f t => ?_) f _
    rw [ignoresCounts_buildFrame, ignoresCounts_streamPixels.sendFrame]
  · rw [exec_oneFrame hi hd, exec_oneFrame hi hd]
    simp only [frameCommand, hp, hp']
    rw [ignoresCounts_accept, ignoresCounts_commandLatch, ignoresCounts_buildFrame, ignoresCounts_afterFrame.sendFrame]
    rfl

theorem stageStep_recount (f : Nat → Nat) (s : State) : stageStep (s.recount f) = recountOutcome f (stageStep s) := by
  have hq : (s.recount f).seq = s.seq := rfl
  unfold stageStep
  rw [hq]
  cases s.seq with
  | check => exact checkSize_recount (fun _ _ => rfl) f s
  | frame => exact congrArg Host.Outcome.next (ignoresCounts_buildFrame f s)
  | sendFrame =>
    by_cases hr : frameReady s = true
    · simp only [if_pos hr, if_pos (show frameReady (s.recount f) = true from hr)]
      exact congrArg Host.Outcome.next (ignoresCounts_afterFrame.sendFrame f s)
    · simp only [if_neg hr, if_neg (show ¬ frameReady (s.recount f) = true from hr)]
      rfl
  | fill =>
    by_cases hl : nextPixel s < s.w.toNat * s.h.toNat
    · simp only [if_pos hl, if_pos (show nextPixel (s.recount f) < (s.recount f).w.toNat * (s.recount f).h.toNat from hl)]
      rfl
    · simp only [if_neg hl, if_neg (show ¬ nextPixel (s.recount f) < (s.recount f).w.toNat * (s.recount f).h.toNat from hl)]
      rfl
  | sendChunk => exact congrArg Host.Outcome.next (ignoresCounts_afterChunk.txWrite s.cb f s)
  | done => exact congrArg Host.Outcome.next (ignoresCounts_complete .ok f s)

/-- Settles O57: by where the step comes from; every stage ignores the counts. -/
theorem shortWritesUnnoticed : Obligations.ShortWritesUnnoticed := by
  intro f s
  by_cases hr : ∃ rest, s.host = .reset :: rest
  · obtain ⟨rest, hh⟩ := hr
    rw [step_reset hh, step_reset (s := s.recount f) hh]
    rfl
  cases hp : s.phase with
  | busy =>
    have hr := resetNext_eq_false hr
    rw [step_busy hp hr, step_busy (s := s.recount f) hp hr, stageStep_recount]
  | idle =>
    match hh : s.host with
    | [] =>
      rw [step_quiet hp hh, step_quiet (s := s.recount f) hp hh]
      rfl
    | .reset :: rest => exact absurd ⟨rest, hh⟩ hr
    | .putPixel j p :: rest =>
      rw [step_putPixel hp hh, step_putPixel (s := s.recount f) hp hh]
      rfl
    | .issue d :: rest =>
      rw [step_issue hp hh, step_issue (s := s.recount f) hp hh]
      exact exec_recount (s := { s with host := rest }) (decodeCmd_format d) hp f

end Sys2Proof.Machine

/-! # Proofs: the encoder and the decoder are inverse -/

namespace Sys2Proof.Machine

/-! ## Commands -/

/-- The canonical descriptor of a command, with zeros in the fields it does not use (R71). The wire rows have none. -/
def canonicalDesc : Instr → Descriptor
  | .region op x y ex ey => descOf 0 op.tag 0 0 x y ex ey
  | .clear => descOf 1 0 0 0 0 0 0 0
  | .toBlack => descOf 2 0 0 0 0 0 0 0
  | .screenOff => descOf 3 0 0 0 0 0 0 0
  | .screenOn => descOf 4 0 0 0 0 0 0 0
  | .setBrightness level => descOf 5 0 0 level 0 0 0 0
  | .setOrientation o => descOf 6 0 o.code 0 0 0 0 0
  | .draw w h => descOf 7 0 0 0 w h 0 0
  | _ => 0

theorem encode_command {i : Instr} (hi : i.format = .cmd80) : encode i = descBytes (canonicalDesc i) := by
  cases i
  case region | clear | toBlack | screenOff | screenOn | setBrightness | setOrientation | draw => rfl
  all_goals cases hi

theorem decodeCmd_canonicalDesc {i : Instr} (hi : i.format = .cmd80) : decodeCmd (canonicalDesc i) = i := by
  cases i
  case region | clear | toBlack | screenOff | screenOn | setBrightness | setOrientation | draw =>
    simp [canonicalDesc, decodeCmd, fields_desc]
  all_goals cases hi

theorem decode_encode_command {i : Instr} (hi : i.format = .cmd80) : decode .cmd80 (encode i) = .instr i := by
  rw [encode_command hi, decode_descBytes, decodeCmd_canonicalDesc hi]

/-! ## Region frames -/

/-- The rows of the format of six bytes are the frame rows of the eight opcodes (R61). -/
theorem eq_frameInstr {i : Instr} (hi : i.format = .r6) : ∃ op x y ex ey, i = frameInstr op x y ex ey := by
  cases i
  case frameReset x y ex ey => exact ⟨.reset, x, y, ex, ey, rfl⟩
  case frameClear x y ex ey => exact ⟨.clear, x, y, ex, ey, rfl⟩
  case frameToBlack x y ex ey => exact ⟨.toBlack, x, y, ex, ey, rfl⟩
  case frameScreenOff x y ex ey => exact ⟨.screenOff, x, y, ex, ey, rfl⟩
  case frameScreenOn x y ex ey => exact ⟨.screenOn, x, y, ex, ey, rfl⟩
  case frameSetBrightness x y ex ey => exact ⟨.setBrightness, x, y, ex, ey, rfl⟩
  case frameSetOrientation x y ex ey => exact ⟨.setOrientation, x, y, ex, ey, rfl⟩
  case frameDisplayBitmap x y ex ey => exact ⟨.displayBitmap, x, y, ex, ey, rfl⟩
  all_goals cases hi

@[simp] theorem encode_frameInstr (op : Opcode) (x y ex ey : Coord) :
    encode (frameInstr op x y ex ey) = r6Bytes (encodeR6 op x y ex ey) := by
  cases op <;> rfl

@[simp] theorem frameInstr_format (op : Opcode) (x y ex ey : Coord) : (frameInstr op x y ex ey).format = .r6 := by
  cases op <;> rfl

@[simp] theorem frameInstr_wellFormed (op : Opcode) (x y ex ey : Coord) :
    (frameInstr op x y ex ey).wellFormed = rectInRange x y ex ey := by
  cases op <;> rfl

theorem rectInRange_iff {x y ex ey : Coord} : rectInRange x y ex ey = true ↔
    coordInRange x = true ∧ coordInRange y = true ∧ coordInRange ex = true ∧ coordInRange ey = true := by
  simp [rectInRange, and_assoc]

theorem decode_r6Bytes (f : BitVec 48) : decode .r6 (r6Bytes f) = decodeR6 f := by
  simp only [r6Bytes, decode, append_r6]

/-- The fields of R61 are read back, if ten bits hold each coordinate. -/
theorem decodeR6_encodeR6 {op : Opcode} {x y ex ey : Coord} (h : rectInRange x y ex ey = true) :
    decodeR6 (encodeR6 op x y ex ey) = .instr (frameInstr op x y ex ey) := by
  obtain ⟨hx, hy, hex, hey⟩ := rectInRange_iff.mp h
  obtain ⟨fx, fy, fex, fey, fo⟩ := fields_r6 (x.setWidth 10) (y.setWidth 10) (ex.setWidth 10) (ey.setWidth 10) op.wire
  rw [decodeR6, encodeR6, fx, fy, fex, fey, fo, Opcode.ofWire_wire, coordInRange_low hx, coordInRange_low hy,
    coordInRange_low hex, coordInRange_low hey]

/-! ## The orientation frame and the pixel -/

theorem decodeO11_o11Bytes (c : BitVec 2) :
    decodeO11 (o11Bytes c) = .instr (.frameOrient11 (Orientation.ofCode c)) := by
  revert c
  decide

/-- The two wire bytes of a pixel hold its three fields. -/
theorem decodeP2_pixelWire (r : BitVec 5) (g : BitVec 6) (b : BitVec 5) :
    decodeP2 (g.extractLsb' 0 3 ++ b) (r ++ g.extractLsb' 3 3) = .pixel r g b := by
  rw [decodeP2]
  congr 1 <;>
  · apply BitVec.eq_of_getLsbD_eq
    intro i hi
    simp only [BitVec.getLsbD_append, BitVec.getLsbD_extractLsb']
    interval_cases i <;> simp

/-- Two wire bytes are those of the pixel they are read as. -/
theorem pixelWire_fields (b0 b1 : Byte) :
    pixelWire (b1.extractLsb' 3 5) (b1.extractLsb' 0 3 ++ b0.extractLsb' 5 3 : BitVec 6) (b0.extractLsb' 0 5) = [b0, b1] := by
  simp only [pixelWire, List.cons.injEq, and_true]
  constructor <;>
  · apply BitVec.eq_of_getLsbD_eq
    intro i hi
    simp only [BitVec.getLsbD_append, BitVec.getLsbD_extractLsb']
    interval_cases i <;> simp

/-! ## Both directions -/

/-- Settles O5: by the format of the row. -/
theorem decodeEncode : Obligations.DecodeEncode := by
  intro i hwf
  cases hf : i.format with
  | cmd80 => exact decode_encode_command hf
  | r6 =>
    obtain ⟨op, x, y, ex, ey, rfl⟩ := eq_frameInstr hf
    rw [frameInstr_wellFormed] at hwf
    rw [encode_frameInstr, decode_r6Bytes, decodeR6_encodeR6 hwf]
  | o11 =>
    cases i
    case frameOrient11 o => exact (decodeO11_o11Bytes o.code).trans (by rw [Orientation.ofCode_code])
    all_goals cases hf
  | p2 =>
    cases i
    case pixel r g b => exact congrArg Decoded.instr (decodeP2_pixelWire r g b)
    all_goals cases hf

/-- Settles O3: byte by byte. Each coordinate is its ten low bits, so what the formulas of R90 shift in
from above bit 9 is zero. -/
theorem inRangeFrameLayout : Obligations.InRangeFrameLayout := by
  intro x y ex ey op h
  obtain ⟨hx, hy, hex, hey⟩ := rectInRange_iff.mp h
  rw [← coordInRange_low hx, ← coordInRange_low hy, ← coordInRange_low hex, ← coordInRange_low hey]
  simp only [regionFrame, r6Bytes, List.cons.injEq, and_true]
  refine ⟨?_, ?_, ?_, ?_, ?_, ?_⟩ <;>
  · apply BitVec.eq_of_getLsbD_eq
    intro i hi
    simp only [BitVec.getLsbD_append, BitVec.getLsbD_or, BitVec.getLsbD_shiftLeft, BitVec.getLsbD_setWidth,
      BitVec.getLsbD_ushiftRight, BitVec.getLsbD_extractLsb', BitVec.getLsbD_and]
    interval_cases i <;> simp

/-- An in-range frame row encodes to the frame of R90. -/
theorem encode_frameInstr_eq_regionFrame {op : Opcode} {x y ex ey : Coord} (h : rectInRange x y ex ey = true) :
    encode (frameInstr op x y ex ey) = regionFrame x y ex ey op.wire := by
  rw [encode_frameInstr, inRangeFrameLayout x y ex ey op.wire h]
  simp only [encodeR6, BitVec.setWidth_eq_extractLsb' (show 10 ≤ 16 by decide)]

/-- Six bytes that are read as an instruction are the frame of an in-range rectangle and one of the opcodes (R61, R69). -/
theorem decode_r6_instr {bs : List Byte} {i : Instr} (h : decode .r6 bs = .instr i) :
    ∃ op x y ex ey, i = frameInstr op x y ex ey ∧ rectInRange x y ex ey = true ∧ regionFrame x y ex ey op.wire = bs := by
  simp only [decode] at h
  split at h
  · next b0 b1 b2 b3 b4 b5 =>
    unfold decodeR6 at h
    split at h
    · next op ho =>
      rw [joined_last] at ho
      refine ⟨op, _, _, _, _, (Decoded.instr.inj h).symm, ?_, ?_⟩
      · simp only [rectInRange_iff, coordInRange_ten, and_self]
      · rw [wire_of_ofWire ho]
        exact regionFrame_of_fields b0 b1 b2 b3 b4 b5 _ rfl
    · cases h
  · cases h

theorem decode_o11_instr {bs : List Byte} {i : Instr} (h : decode .o11 bs = .instr i) :
    ∃ c, i = .frameOrient11 (Orientation.ofCode c) ∧ o11Bytes c = bs := by
  simp only [decode, decodeO11] at h
  split at h
  · split at h
    · next hb => exact ⟨_, (Decoded.instr.inj h).symm, hb.symm⟩
    · cases h
  · cases h

theorem decode_p2_instr {bs : List Byte} {i : Instr} (h : decode .p2 bs = .instr i) :
    ∃ b0 b1, i = decodeP2 b0 b1 ∧ [b0, b1] = bs := by
  simp only [decode] at h
  split at h
  · exact ⟨_, _, (Decoded.instr.inj h).symm, rfl⟩
  · cases h

/-- Settles O6: by the format; the coordinates read from six bytes are in range and give those bytes again. -/
theorem encodeDecodeWire : Obligations.EncodeDecodeWire := by
  intro f bs i hf h
  cases f with
  | cmd80 => exact absurd rfl hf
  | r6 =>
    obtain ⟨op, x, y, ex, ey, rfl, hrect, hbs⟩ := decode_r6_instr h
    exact ⟨(encode_frameInstr_eq_regionFrame hrect).trans hbs, frameInstr_format .., (frameInstr_wellFormed ..).trans hrect⟩
  | o11 =>
    obtain ⟨c, rfl, hbs⟩ := decode_o11_instr h
    exact ⟨(congrArg o11Bytes (Orientation.code_ofCode c)).trans hbs, rfl, rfl⟩
  | p2 =>
    obtain ⟨b0, b1, rfl, hbs⟩ := decode_p2_instr h
    exact ⟨(pixelWire_fields b0 b1).trans hbs, rfl, rfl⟩

end Sys2Proof.Machine

/-! # Proofs: descriptors, the assembler, pixels and opcodes -/

namespace Sys2Proof.Machine

/-! ## The fields of a descriptor -/

/-- The eight values of `sel`: none of them is illegal (R72, R73). -/
theorem sel_cases (t : BitVec 3) : t = 0 ∨ t = 1 ∨ t = 2 ∨ t = 3 ∨ t = 4 ∨ t = 5 ∨ t = 6 ∨ t = 7 := by
  revert t
  decide

/-- Settles O7: by the value of `sel`, each arm of the decoder reads the fields of its command only. -/
theorem descriptorFieldsUsed : Obligations.DescriptorFieldsUsed := by
  refine ⟨decode_descBytes, fun d e hsel hregion hlevel horient hdraw => ?_⟩
  unfold decodeCmd
  rw [← hsel]
  rcases sel_cases (descSel d) with h | h | h | h | h | h | h | h
  · obtain ⟨ho, ha, hb, hc, hd⟩ := hregion h
    simp [h, ho, ha, hb, hc, hd]
  · simp [h]
  · simp [h]
  · simp [h]
  · simp [h]
  · simp [h, hlevel h]
  · simp [h, horient h]
  · obtain ⟨ha, hb⟩ := hdraw h
    simp [h, ha, hb]

/-- Every field that the command of this `sel` does not use is zero (R71). -/
def UnusedFieldsZero (d : Descriptor) : Prop :=
  (descSel d ≠ 0 → descOpsel d = 0 ∧ descC d = 0 ∧ descD d = 0) ∧
  (descSel d ≠ 0 → descSel d ≠ 7 → descA d = 0 ∧ descB d = 0) ∧
  (descSel d ≠ 5 → descLevel d = 0) ∧ (descSel d ≠ 6 → descOrient d = 0)

theorem unusedFieldsZero_canonicalDesc {i : Instr} (hi : i.format = .cmd80) : UnusedFieldsZero (canonicalDesc i) := by
  cases i
  case region | clear | toBlack | screenOff | screenOn | setBrightness | setOrientation | draw =>
    simp [UnusedFieldsZero, canonicalDesc, fields_desc]
  all_goals cases hi

/-! ## The assembler -/

/-- A line assembles to a command. -/
theorem assemble_format {l : AsmLine} {i : Instr} (h : assemble l = some i) : i.format = .cmd80 := by
  unfold assemble at h
  split at h
  · cases l <;> cases h <;> rfl
  · cases h

theorem assemble_illFormed {l : AsmLine} (h : l.wellFormed = false) : assemble l = none := by
  simp [assemble, h]

theorem assemble_region {x y ex ey : Nat} (hx : x < 65536) (hy : y < 65536) (hex : ex < 65536) (hey : ey < 65536)
    (op : Opcode) : assemble (.region x y ex ey op) = some (.region op (.ofNat 16 x) (.ofNat 16 y) (.ofNat 16 ex) (.ofNat 16 ey)) :=
  if_pos (by simp [AsmLine.wellFormed, hx, hy, hex, hey])

theorem assemble_setBrightness {level : Nat} (h : level < 256) :
    assemble (.setBrightness level) = some (.setBrightness (.ofNat 8 level)) :=
  if_pos (by simp [AsmLine.wellFormed, h])

theorem assemble_draw {w h : Nat} (hw : w < 65536) (hh : h < 65536) :
    assemble (.draw w h) = some (.draw (.ofNat 16 w) (.ofNat 16 h)) :=
  if_pos (by simp [AsmLine.wellFormed, hw, hh])

/-- Settles O10: each form by its check, and what a line assembles to by its canonical descriptor. -/
theorem assemblerChecksWidths : Obligations.AssemblerChecksWidths := by
  refine ⟨fun x y ex ey op => ⟨fun ⟨hx, hy, hex, hey⟩ => ?_, fun h => assemble_illFormed ?_⟩, rfl, rfl, rfl, rfl,
    fun level => ⟨fun hl => ?_, fun h => assemble_illFormed ?_⟩, fun _ => rfl,
    fun w h => ⟨fun ⟨hw, hh⟩ => ?_, fun h => assemble_illFormed ?_⟩, fun l i hl => ?_⟩
  · exact ⟨.ofNat 16 x, .ofNat 16 y, .ofNat 16 ex, .ofNat 16 ey, Nat.mod_eq_of_lt hx, Nat.mod_eq_of_lt hy,
      Nat.mod_eq_of_lt hex, Nat.mod_eq_of_lt hey, assemble_region hx hy hex hey op⟩
  · simp only [AsmLine.wellFormed, Bool.and_eq_false_iff, decide_eq_false_iff_not]
    omega
  · exact ⟨.ofNat 8 level, Nat.mod_eq_of_lt hl, assemble_setBrightness hl⟩
  · simp only [AsmLine.wellFormed, decide_eq_false_iff_not]
    omega
  · exact ⟨.ofNat 16 w, .ofNat 16 h, Nat.mod_eq_of_lt hw, Nat.mod_eq_of_lt hh, assemble_draw hw hh⟩
  · simp only [AsmLine.wellFormed, Bool.and_eq_false_iff, decide_eq_false_iff_not]
    omega
  · have hi := assemble_format hl
    exact ⟨decode_encode_command hi, canonicalDesc i, encode_command hi, decodeCmd_canonicalDesc hi,
      unusedFieldsZero_canonicalDesc hi⟩

/-! ## Pixels -/

/-- The wire bytes of R64 are the little-endian bytes of the value `r5 || g6 || b5` (R112). -/
theorem serLE16_packFields (r : BitVec 5) (g : BitVec 6) (b : BitVec 5) : serLE16 (packFields r g b) = pixelWire r g b := by
  simp only [serLE16, packFields, pixelWire, List.cons.injEq, and_true]
  constructor <;>
  · apply BitVec.eq_of_getLsbD_eq
    intro i hi
    simp only [BitVec.getLsbD_append, BitVec.getLsbD_setWidth, BitVec.getLsbD_and, BitVec.getLsbD_ushiftRight,
      BitVec.getLsbD_extractLsb']
    interval_cases i <;> simp

theorem encode_pixelInstr (p : Pixel) : encode (pixelInstr p) = serLE16 (rgb565 p) := by
  rw [← packFields_pixel, serLE16_packFields]
  rfl

/-- Bits taken from bits that were taken before. -/
theorem extract_extract {w : Nat} {v : BitVec w} {k n j m : Nat} (h : j + m ≤ n) :
    (v.extractLsb' k n).extractLsb' j m = v.extractLsb' (k + j) m := by
  apply BitVec.eq_of_getLsbD_eq
  intro i hi
  simp [hi, show j + i < n by omega, Nat.add_assoc]

/-- Settles O12: the pixel's fields are the high bits of its components. -/
theorem pixelWireBytes : Obligations.PixelWireBytes := by
  refine fun p => ⟨?_, encode_pixelInstr p⟩
  rw [← packFields_pixel, serLE16_packFields, pixelWire]
  simp only [BitVec.setWidth_ushiftRight_eq_extractLsb, extract_extract (show 0 + 3 ≤ 6 by decide),
    extract_extract (show 3 + 3 ≤ 6 by decide)]

/-! ## Opcodes and sample words -/

/-- Settles O9: the ROM by evaluation of its eight tags, the closed set by the law of each direction. -/
theorem opcodeRomValues : Obligations.OpcodeRomValues := by
  refine ⟨by decide, fun op => ⟨Opcode.ofTag_tag op, opcodeRom_tag op⟩, fun b op => ⟨wire_of_ofWire, ?_⟩⟩
  rintro rfl
  exact Opcode.ofWire_wire op

/-- Settles O8: by evaluation. -/
theorem sampleWordsDecode : Obligations.SampleWordsDecode := by
  refine ⟨?_, ?_, ?_, ?_, ?_, ?_, ?_, ?_⟩ <;> decide

end Sys2Proof.Machine

/-! # Proofs: commands, wire rows and the frames they send -/

namespace Sys2Proof.Machine

/-! ## The wire rows at their stages -/

/-- After the frame of a command of one frame nothing remains (R140). -/
theorem afterFrame_oneFrame {s : State} (hk : s.kind ≠ .draw) : afterFrame s = complete .ok s := by
  unfold afterFrame
  cases h : s.kind with
  | region => rfl
  | orientation => rfl
  | draw => exact absurd h hk

theorem afterFrame_draw {s : State} (hk : s.kind = .draw) : afterFrame s = beginPayload s := by
  rw [afterFrame, hk]

/-- A row that is the stage SEND_FRAME with a frame, sends that frame, if FB takes it whole. -/
theorem wireFrameSends {i : Instr} {frame : List Byte} (he : ∀ s, exec i s = sendWireFrame frame s)
    (hb : ∀ s, frameBytes (loadFrame frame s) = frame) : WireFrameSends i frame := by
  intro s hp hq t
  have hsend : exec i s = .next (txWrite frame afterFrame (loadFrame frame s)) := by
    rw [he, sendWireFrame, hp, hq]
    simp only [sendFrame, hb]
  have ht : loadFrame frame s = t := by rw [loadFrame, ← hq]
  rw [hsend, ht]
  refine ⟨fun n rest hr hk => ?_, fun n rest hr hk => ?_, fun rest hr => ?_, fun rest hr => ?_, fun hr => ?_⟩
  · rw [txWrite_ok frame afterFrame t n rest hr, afterFrame_oneFrame]
    · rw [complete, List.append_assoc]
      rfl
    · exact hk
  · rw [txWrite_ok frame afterFrame t n rest hr, afterFrame_draw]
    · rfl
    · exact hk
  · rw [txWrite_err frame afterFrame t rest hr, complete, List.append_assoc]
    rfl
  · rw [txWrite_pending frame afterFrame t rest hr]
  · rw [txWrite_nil frame afterFrame t hr]

/-- The row of a region frame sends the frame of its opcode. -/
theorem wireFrameSends_frameInstr (op : Opcode) (x y ex ey : Coord) :
    WireFrameSends (frameInstr op x y ex ey) (regionFrame x y ex ey op.wire) :=
  wireFrameSends (exec_frameInstr op x y ex ey) (frameBytes_loadFrame_region x y ex ey op.wire)

/-- Settles O32: each row is the stage SEND_FRAME with the frame of its opcode. -/
theorem regionFramesSend : Obligations.RegionFramesSend := fun x y ex ey =>
  ⟨wireFrameSends_frameInstr .reset x y ex ey, wireFrameSends_frameInstr .clear x y ex ey,
    wireFrameSends_frameInstr .toBlack x y ex ey, wireFrameSends_frameInstr .screenOff x y ex ey,
    wireFrameSends_frameInstr .screenOn x y ex ey, wireFrameSends_frameInstr .setBrightness x y ex ey,
    wireFrameSends_frameInstr .setOrientation x y ex ey, wireFrameSends_frameInstr .displayBitmap x y ex ey⟩

/-- The eleven bytes of R63 are those of R93. -/
theorem orientFrame_code (o : Orientation) :
    orientFrame o.code = [0, 0, 0, 0, 0, 121, BitVec.ofNat 8 (100 + o.code.toNat), 3, 200, 4, 0] := by
  cases o <;> rfl

/-- Settles O33: the row is the stage SEND_FRAME with the orientation frame. -/
theorem orientationFrameSends : Obligations.OrientationFrameSends := fun o =>
  orientFrame_code o ▸ wireFrameSends (i := .frameOrient11 o) (fun _ => rfl) (frameBytes_loadFrame_orient o.code)

/-- Settles O34: the row is the stage FILL for its pixel, whose bytes are those of R64. -/
theorem pixelJoinsChunk : Obligations.PixelJoinsChunk := by
  intro s r5 g6 b5 hp hq
  have hfill : exec (.pixel r5 g6 b5) s = .next (fillPixel (packFields r5 g6 b5) s) := by
    simp only [exec, execPixel, hp, hq]
  rw [hfill, fillPixel, serLE16_packFields]
  rfl

/-! ## Commands that equal a REGION -/

/-- The state with another record and another LVL. -/
def State.relabel (es : List Event) (l : Byte) (s : State) : State := { s with events := es, lvl := l }

/-- Two states that are equal but for the recorded events and LVL, with the same writes and results recorded (R77). -/
def EqualButRecord (t u : State) : Prop :=
  ∃ es l, t = u.relabel es l ∧ writesOf es = writesOf u.events ∧ resultsOf es = resultsOf u.events

theorem EqualButRecord.complete {t u : State} (h : EqualButRecord t u) (st : Status) :
    EqualButRecord (Machine.complete st t) (Machine.complete st u) := by
  obtain ⟨es, l, rfl, hw, hr⟩ := h
  exact ⟨es ++ [.complete st], l, rfl, by simp [hw], by simp [hr]⟩

/-- The stages read neither the record nor LVL. -/
theorem EqualButRecord.buildFrame {t u : State} (h : EqualButRecord t u) :
    EqualButRecord (Machine.buildFrame t) (Machine.buildFrame u) := by
  obtain ⟨es, l, rfl, hw, hr⟩ := h
  obtain ⟨-, -, -, -, -, hev, -⟩ := buildFrame_keeps u
  refine ⟨es, l, ?_, by rw [hev, hw], by rw [hev, hr]⟩
  have hk : (u.relabel es l).kind = u.kind := rfl
  unfold Machine.buildFrame
  rw [hk]
  cases u.kind <;> rfl

theorem EqualButRecord.afterFrame {t u : State} (h : EqualButRecord t u) :
    EqualButRecord (Machine.afterFrame t) (Machine.afterFrame u) := by
  have hkind : t.kind = u.kind := by
    obtain ⟨es, l, rfl, -⟩ := h
    rfl
  by_cases hk : u.kind = .draw
  · obtain ⟨es, l, rfl, hw, hr⟩ := h
    rw [afterFrame_draw hk, afterFrame_draw (hkind.trans hk)]
    exact ⟨es, l, rfl, hw, hr⟩
  · rw [afterFrame_oneFrame hk, afterFrame_oneFrame (hkind ▸ hk)]
    exact h.complete .ok

theorem EqualButRecord.sendFrame {t u : State} (h : EqualButRecord t u) :
    EqualButRecord (Machine.sendFrame Machine.afterFrame t) (Machine.sendFrame Machine.afterFrame u) := by
  obtain ⟨es, l, rfl, hw, hr⟩ := h
  have hb : frameBytes (u.relabel es l) = frameBytes u := rfl
  rw [Machine.sendFrame, Machine.sendFrame, hb]
  generalize frameBytes u = bs
  rcases txWrite_cases bs Machine.afterFrame u with ⟨n, rest, hs, hu⟩ | ⟨rest, hs, hu⟩ | ⟨rest, hs | ⟨hs, rfl⟩, hu⟩ <;>
    rw [hu]
  · rw [txWrite_ok bs _ (u.relabel es l) n rest hs]
    refine EqualButRecord.afterFrame ?_
    exact ⟨es ++ [.write bs (.ok n)], l, rfl, by simp [hw], by simp [hr]⟩
  · rw [txWrite_err bs _ (u.relabel es l) rest hs]
    refine EqualButRecord.complete ?_ .writeError
    exact ⟨es ++ [.write bs .err], l, rfl, by simp [hw], by simp [hr]⟩
  · rw [txWrite_pending bs _ (u.relabel es l) rest hs]
    exact ⟨es, l, rfl, hw, hr⟩
  · rw [txWrite_nil bs _ (u.relabel es l) hs]
    exact ⟨es, l, by simp [State.relabel, hs], hw, hr⟩

theorem equalButRecord_accept (i j : Instr) (k : Kind) (q : Seq) (s : State) :
    EqualButRecord (accept i k q s) (accept j k q s) :=
  ⟨s.events ++ [.accept i], s.lvl, rfl, by simp [writesOf], by simp [resultsOf]⟩

theorem EqualButRecord.latchRegion {t u : State} (h : EqualButRecord t u) (x y ex ey : Coord) (opc : Byte) :
    EqualButRecord (Machine.latchRegion x y ex ey opc t) (Machine.latchRegion x y ex ey opc u) := by
  obtain ⟨es, l, rfl, hw, hr⟩ := h
  exact ⟨es, l, rfl, hw, hr⟩

theorem EqualButRecord.setLevel {t u : State} (h : EqualButRecord t u) (level : Byte) :
    EqualButRecord { t with lvl := level } u := by
  obtain ⟨es, l, rfl, hw, hr⟩ := h
  exact ⟨es, level, rfl, hw, hr⟩

/-- Two commands of one frame that latch alike reach states that are equal but for the record and LVL. -/
theorem frameCommand_equal {i j : Instr} {k : Kind} {f g : State → State} {s : State} (hp : s.phase = .idle)
    (h : ∀ {t u : State}, EqualButRecord t u → EqualButRecord (f t) (g u)) :
    ∃ t u, frameCommand i k f s = .next t ∧ frameCommand j k g s = .next u ∧ EqualButRecord t u := by
  simp only [frameCommand, hp]
  exact ⟨_, _, rfl, rfl, (h (equalButRecord_accept i j k .frame s)).buildFrame.sendFrame⟩

theorem brightnessX_eq (level : Byte) : brightnessX level = BitVec.ofNat 16 (255 - level.toNat) := by
  have := level.isLt
  apply BitVec.eq_of_toNat_eq
  simp only [brightnessX, BitVec.toNat_setWidth, BitVec.toNat_sub, BitVec.toNat_ofNat]
  omega

/-- Settles O23: each command latches what its REGION does, and the stages read nothing else. -/
theorem commandsEqualToRegion : Obligations.CommandsEqualToRegion := by
  intro s hp i j hij
  have equal : ∃ t u, exec i s = .next t ∧ exec j s = .next u ∧ EqualButRecord t u := by
    rcases hij with ⟨rfl, rfl⟩ | ⟨rfl, rfl⟩ | ⟨rfl, rfl⟩ | ⟨rfl, rfl⟩ | ⟨level, rfl, rfl⟩
    · exact frameCommand_equal hp (·.latchRegion 0 0 0 0 102)
    · exact frameCommand_equal hp (·.latchRegion 0 0 0 0 103)
    · exact frameCommand_equal hp (·.latchRegion 0 0 0 0 108)
    · exact frameCommand_equal hp (·.latchRegion 0 0 0 0 109)
    · rw [← brightnessX_eq]
      exact frameCommand_equal hp fun h => (h.setLevel level).latchRegion (brightnessX level) 0 0 0 110
  obtain ⟨t, u, ht, hu, es, l, rfl, hw, hr⟩ := equal
  exact ⟨_, u, ht, hu, rfl, hw, hr⟩

end Sys2Proof.Machine

/-! # Proofs: byte 5 and the length of a frame -/

namespace Sys2Proof.Machine

/-! ## One write of the frame in FB -/

/-- From `s` to `t` the frame in FB was written and the events after that write have the property, or it waits as it stands. -/
def WritesFrameOrWaits (P : List Event → Prop) (s t : State) : Prop :=
  (∃ a rest, t.events = s.events ++ .write (frameBytes s) a :: rest ∧ P rest) ∨
  (t.events = s.events ∧ t.phase = s.phase ∧ t.seq = s.seq ∧ frameBytes t = frameBytes s)

/-- SEND_FRAME, if what follows `Ok` records only what the property allows. -/
theorem writesFrameOrWaits_sendFrame {P : List Event → Prop} {f : State → State} {s : State} (hP : P [.complete .writeError])
    (hf : ∀ t : State, t.phase = s.phase → ∃ rest, (f t).events = t.events ++ rest ∧ P rest) :
    WritesFrameOrWaits P s (sendFrame f s) := by
  rw [sendFrame]
  rcases txWrite_cases (frameBytes s) f s with ⟨n, tape, _, h⟩ | ⟨tape, _, h⟩ | ⟨tape, _, h⟩ <;> rw [h]
  · obtain ⟨rest, he, hr⟩ :=
      hf { s with replies := tape, inFlight := false, events := s.events ++ [.write (frameBytes s) (.ok n)] } rfl
    exact .inl ⟨.ok n, rest, by rw [he, List.append_assoc]; rfl, hr⟩
  · exact .inl ⟨.err, _, by rw [complete_events, List.append_assoc]; rfl, hP⟩
  · exact .inr ⟨rfl, rfl, rfl, rfl⟩

/-- What follows `Ok` at SEND_FRAME writes nothing: the command completes, or DRAW's payload begins. -/
theorem writesFrameOrWaits_afterFrame (s : State) : WritesFrameOrWaits (writesOf · = []) s (sendFrame afterFrame s) := by
  refine writesFrameOrWaits_sendFrame rfl fun t _ => ?_
  by_cases hk : t.kind = .draw
  · exact ⟨[], by rw [afterFrame_draw hk, beginPayload_events, List.append_nil], rfl⟩
  · exact ⟨[.complete .ok], by rw [afterFrame_oneFrame hk, complete_events], rfl⟩

/-- A command accepted at `s` writes its frame first, or waits with that frame in FB, or ends without a write. -/
def FrameFirst (i : Instr) (s t : State) : Prop :=
  (t.phase = .idle ∧ t.events = s.events ++ [.accept i, .complete .wrongImageSize]) ∨
  (∃ a rest, t.events = s.events ++ .accept i :: .write (commandFrame i) a :: rest) ∨
  (t.events = s.events ++ [.accept i] ∧ t.seq = .sendFrame ∧ frameBytes t = commandFrame i)

theorem WritesFrameOrWaits.frameFirst {P : List Event → Prop} {i : Instr} {s u t : State} (h : WritesFrameOrWaits P u t)
    (he : u.events = s.events ++ [.accept i]) (hq : u.seq = .sendFrame) (hb : frameBytes u = commandFrame i) :
    FrameFirst i s t := by
  rcases h with ⟨a, rest, ht, _⟩ | ⟨ht, _, htq, htb⟩
  · exact .inr (.inl ⟨a, rest, by rw [ht, he, hb, List.append_assoc]; rfl⟩)
  · exact .inr (.inr ⟨ht.trans he, htq.trans hq, htb.trans hb⟩)

/-- Everything that an accepted command does first. -/
theorem frameFirst_command {i : Instr} {s t : State} (hi : i.format = .cmd80) (hp : s.phase = .idle) (he : exec i s = .next t) :
    FrameFirst i s t := by
  by_cases hd : commandKind i = .draw
  · obtain ⟨w, h, rfl⟩ := eq_draw_of_kind hd
    rcases exec_draw_next hp he with rfl | ⟨_, rfl⟩
    · exact .inl ⟨rfl, by simp⟩
    · have hsend : WritesFrameOrWaits (fun _ => True) (drawBuilt s w h) (sendFrame streamPixels (drawBuilt s w h)) :=
        writesFrameOrWaits_sendFrame trivial fun t ht => by
          obtain ⟨_, _, _, _, es, hes, _⟩ := Continues.streamPixels t ht
          exact ⟨es, hes, trivial⟩
      exact hsend.frameFirst rfl rfl (frameBytes_buildFrame _)
  · rcases frameCommand_cases i (commandKind i) (commandLatch i) s with ⟨hb, _⟩ | ⟨_, hc⟩
    · simp [hp] at hb
    rw [exec_oneFrame hi hd, hc] at he
    cases he
    exact (writesFrameOrWaits_afterFrame _).frameFirst (by simp [buildFrame_keeps]) (buildFrame_seq _)
      (frameBytes_built hi hd .frame s)

/-! ## Byte 5 -/

/-- Byte 5 tells the frame of eleven bytes, and DRAW's (R65, R69). -/
theorem commandFrame_byte5 {i : Instr} (hi : i.format = .cmd80) (hr : ∀ op x y ex ey, i ≠ .region op x y ex ey) :
    ((commandFrame i)[5]? = some 121 ↔ (commandFrame i).length = 11) ∧
    ((commandFrame i)[5]? = some 197 ↔ ∃ w h, i = .draw w h) := by
  cases i
  case region op x y ex ey => exact absurd rfl (hr op x y ex ey)
  case clear | toBlack | screenOff | screenOn | setBrightness | setOrientation | draw =>
    simp [commandFrame, regionFrame, orientFrame, Opcode.wire]
  all_goals cases hi

/-- Settles O48: the first write, or the frame that waits, is the command's own; a waiting frame is written as it stands. -/
theorem frameLengthByOpcode : Obligations.FrameLengthByOpcode := by
  refine ⟨fun s t i hp hi hr he => ?_, fun s t hp hq hr hs => ?_⟩
  · have h5 := commandFrame_byte5 hi hr
    rcases frameFirst_command hi hp he with ⟨ht, hes⟩ | ⟨a, rest, hes⟩ | ⟨hes, htq, htb⟩
    · exact ⟨_, hes, fun b a hb => by simp [writesOf] at hb, fun hb => by simp [ht] at hb⟩
    · refine ⟨_, hes, fun b a hb => ?_, fun _ hw => by simp [writesOf] at hw⟩
      cases hb
      exact h5
    · exact ⟨_, hes, fun b a hb => by simp [writesOf] at hb, fun _ _ => ⟨htq, htb.symm ▸ h5⟩⟩
  · rw [step_busy hp hr] at hs
    simp only [stageStep, hq] at hs
    split at hs <;> cases hs
    rcases writesFrameOrWaits_afterFrame s with ⟨a, rest, hes, hw⟩ | ⟨hes, htp, htq, htb⟩
    · exact ⟨_, hes, .inl ⟨a, by rw [writesOf, hw]⟩⟩
    · exact ⟨[], by rw [hes, List.append_nil], .inr ⟨rfl, htp.trans hp, htq.trans hq, htb⟩⟩

end Sys2Proof.Machine

/-! # Proofs: the region frame and its inverse -/

namespace Sys2Proof.Machine

/-! ## The formulas -/

/-- Where the mask leaves room for the shift, the shift loses no bit (R90). -/
theorem and_shiftLeft_toNat (v m : Coord) (k : Nat) (h : m.toNat <<< k < 65536) :
    ((v &&& m) <<< k).toNat = (v.toNat &&& m.toNat) <<< k := by
  have hle : (v.toNat &&& m.toNat) <<< k ≤ m.toNat <<< k := by
    rw [Nat.shiftLeft_eq, Nat.shiftLeft_eq]
    exact Nat.mul_le_mul_right _ Nat.and_le_right
  rw [BitVec.toNat_shiftLeft, BitVec.toNat_and, Nat.mod_eq_of_lt (by omega)]

/-- Settles O1: each byte is the low 8 bits of a natural number, in which no shift has lost a bit. -/
theorem regionFrameFormulas : Obligations.RegionFrameFormulas := by
  intro x y ex ey op
  have hx := and_shiftLeft_toNat x 3#16 6 (by decide)
  have hy := and_shiftLeft_toNat y 15#16 4 (by decide)
  have hex := and_shiftLeft_toNat ex 63#16 2 (by decide)
  simp only [regionFrame, ← BitVec.ofNat_toNat, BitVec.toNat_or, BitVec.toNat_ushiftRight, BitVec.toNat_and, hx, hy, hex]
  rfl

/-! ## The bit fields -/

/-- The bytes of R91's table: which bits of which coordinates each byte holds. -/
def tableBytes (x y ex ey : Coord) (op : Byte) : List Byte :=
  [x.extractLsb' 2 8,
   (x.extractLsb' 0 2 ||| y.extractLsb' 10 2) ++ y.extractLsb' 4 6,
   (y.extractLsb' 2 2 ||| ex.extractLsb' 12 2) ++ (y.extractLsb' 0 2 ||| ex.extractLsb' 10 2) ++ ex.extractLsb' 6 4,
   (ex.extractLsb' 4 2 ||| ey.extractLsb' 14 2) ++ (ex.extractLsb' 2 2 ||| ey.extractLsb' 12 2) ++
     (ex.extractLsb' 0 2 ||| ey.extractLsb' 10 2) ++ ey.extractLsb' 8 2,
   ey.extractLsb' 0 8,
   op]

theorem regionFrame_eq_tableBytes (x y ex ey : Coord) (op : Byte) : regionFrame x y ex ey op = tableBytes x y ex ey op := by
  simp only [regionFrame, tableBytes, List.cons.injEq, and_true]
  refine ⟨rfl, ?_, ?_, ?_, ?_⟩ <;>
  · apply BitVec.eq_of_getLsbD_eq
    intro i hi
    simp only [BitVec.getLsbD_append, BitVec.getLsbD_or, BitVec.getLsbD_shiftLeft, BitVec.getLsbD_setWidth,
      BitVec.getLsbD_ushiftRight, BitVec.getLsbD_extractLsb', BitVec.getLsbD_and]
    interval_cases i <;> simp

/-- A field does not see what is added above it. -/
theorem extractLsb'_add_above (v c : Coord) {start len : Nat} (hw : start + len ≤ 16) (hc : 2 ^ (start + len) ∣ c.toNat) :
    (v + c).extractLsb' start len = v.extractLsb' start len := by
  have field (n : Nat) : n >>> start % 2 ^ len = n % 2 ^ (start + len) / 2 ^ start := by
    rw [Nat.shiftRight_eq_div_pow, Nat.pow_add, Nat.mod_mul_right_div_self]
  apply BitVec.eq_of_toNat_eq
  rw [BitVec.extractLsb'_toNat, BitVec.extractLsb'_toNat, field, field, BitVec.toNat_add,
    Nat.mod_mod_of_dvd _ (Nat.pow_dvd_pow 2 hw), Nat.add_mod, Nat.mod_eq_zero_of_dvd hc, Nat.add_zero, Nat.mod_mod]

/-- Settles O2: the table holds no bit of x above bit 9, of y above bit 11 and of ex above bit 13. -/
theorem regionFrameBitFields : Obligations.RegionFrameBitFields := by
  intro x y ex ey op
  refine ⟨regionFrame_eq_tableBytes x y ex ey op, ?_, ?_, ?_, rfl, rfl, rfl⟩ <;>
    simp (disch := decide) only [regionFrame_eq_tableBytes, tableBytes, extractLsb'_add_above]

/-! ## The inverse -/

/-- R92's formula for x. -/
def inverseX (f0 f1 : Byte) : Coord := (f0.setWidth 16 <<< 2) ||| (f1 >>> 6).setWidth 16

/-- R92's formula for y. -/
def inverseY (f1 f2 : Byte) : Coord := ((f1 &&& 63#8).setWidth 16 <<< 4) ||| (f2 >>> 4).setWidth 16

/-- R92's formula for ex. -/
def inverseEx (f2 f3 : Byte) : Coord := ((f2 &&& 15#8).setWidth 16 <<< 6) ||| (f3 >>> 2).setWidth 16

/-- R92's formula for ey. -/
def inverseEy (f3 f4 : Byte) : Coord := ((f3 &&& 3#8).setWidth 16 <<< 8) ||| f4.setWidth 16

section
variable {x y ex ey : Coord} {op f0 f1 f2 f3 f4 f5 : Byte}

theorem regionFrame_opcode (h : regionFrame x y ex ey op = [f0, f1, f2, f3, f4, f5]) : f5 = op := by
  simp only [regionFrame, List.cons.injEq] at h
  obtain ⟨-, -, -, -, -, hop, -⟩ := h
  exact hop.symm

/-- Each coordinate comes back as its ten low bits, with the high bits of the next one ORed in. -/
theorem inverse_regionFrame (h : regionFrame x y ex ey op = [f0, f1, f2, f3, f4, f5]) :
    inverseX f0 f1 = (x &&& 1023#16) ||| ((y >>> 10) &&& 3#16) ∧
    inverseY f1 f2 = (y &&& 1023#16) ||| ((ex >>> 10) &&& 15#16) ∧
    inverseEx f2 f3 = (ex &&& 1023#16) ||| ((ey >>> 10) &&& 63#16) ∧
    inverseEy f3 f4 = ey &&& 1023#16 := by
  simp only [regionFrame, List.cons.injEq, and_true] at h
  obtain ⟨rfl, rfl, rfl, rfl, rfl, -⟩ := h
  refine ⟨?_, ?_, ?_, ?_⟩ <;>
  · apply BitVec.eq_of_getLsbD_eq
    intro i hi
    simp only [inverseX, inverseY, inverseEx, inverseEy, BitVec.getLsbD_or, BitVec.getLsbD_shiftLeft,
      BitVec.getLsbD_setWidth, BitVec.getLsbD_ushiftRight, BitVec.getLsbD_and]
    interval_cases i <;> simp

theorem coordInRange_iff_lt {v : Coord} : coordInRange v = true ↔ v.toNat < 2 ^ 10 := by
  rw [coordInRange, decide_eq_true_iff]
  omega

theorem and_1023_of_coordInRange {v : Coord} (h : coordInRange v = true) : v &&& 1023#16 = v := by
  apply BitVec.eq_of_toNat_eq
  rw [BitVec.toNat_and]
  exact Nat.and_two_pow_sub_one_of_lt_two_pow (coordInRange_iff_lt.mp h)

theorem ushiftRight_ten_of_coordInRange {v : Coord} (h : coordInRange v = true) : v >>> 10 = 0#16 := by
  apply BitVec.eq_of_toNat_eq
  rw [BitVec.toNat_ushiftRight]
  exact Nat.shiftRight_eq_zero _ _ (coordInRange_iff_lt.mp h)

/-- No coordinate of an in-range rectangle has high bits, so the inverse gives each one back. -/
theorem inverse_regionFrame_inRange (hrect : rectInRange x y ex ey = true)
    (h : regionFrame x y ex ey op = [f0, f1, f2, f3, f4, f5]) :
    inverseX f0 f1 = x ∧ inverseY f1 f2 = y ∧ inverseEx f2 f3 = ex ∧ inverseEy f3 f4 = ey := by
  obtain ⟨hx, hy, hex, hey⟩ := rectInRange_iff.mp hrect
  simpa only [and_1023_of_coordInRange, ushiftRight_ten_of_coordInRange, hx, hy, hex, hey, BitVec.zero_and,
    BitVec.or_zero] using inverse_regionFrame h

end

/-- Any six bytes are the frame of the in-range rectangle that their fields spell. -/
theorem exists_inRange_regionFrame (f0 f1 f2 f3 f4 f5 : Byte) :
    ∃ x y ex ey : Coord, rectInRange x y ex ey = true ∧ regionFrame x y ex ey f5 = [f0, f1, f2, f3, f4, f5] :=
  ⟨_, _, _, _, by simp only [rectInRange_iff, coordInRange_ten, and_self], regionFrame_of_fields f0 f1 f2 f3 f4 f5 _ rfl⟩

/-- Settles O4: six bytes are the frame of an in-range rectangle; as the inverse gives each such rectangle back, two with the
same bytes are one. -/
theorem regionFrameInverse : Obligations.RegionFrameInverse := by
  refine ⟨fun x y ex ey op f0 f1 f2 f3 f4 f5 h => ?_, fun f0 f1 f2 f3 f4 f5 op hop => ?_⟩
  · exact ⟨regionFrame_opcode h, fun hrect => inverse_regionFrame_inRange hrect h, inverse_regionFrame h⟩
  · obtain rfl := wire_of_ofWire hop
    obtain ⟨x, y, ex, ey, hrect, hframe⟩ := exists_inRange_regionFrame f0 f1 f2 f3 f4 op.wire
    refine ⟨x, y, ex, ey, hrect, hframe, fun x' y' ex' ey' op' hrect' hframe' => ?_⟩
    obtain ⟨hx, hy, hex, hey⟩ := inverse_regionFrame_inRange hrect hframe
    obtain ⟨hx', hy', hex', hey'⟩ := inverse_regionFrame_inRange hrect' hframe'
    exact ⟨hx'.symm.trans hx, hy'.symm.trans hy, hex'.symm.trans hex, hey'.symm.trans hey,
      (regionFrame_opcode hframe').symm⟩

end Sys2Proof.Machine

/-! # Proofs: the commands of one frame -/

namespace Sys2Proof.Machine

/-- FRAME loads the frame of the command; all else is as acceptance and the latches left it. -/
theorem buildFrame_command {i : Instr} (hi : i.format = .cmd80) (hd : commandKind i ≠ .draw) (s : State) :
    buildFrame (commandLatch i (accept i (commandKind i) .frame s)) =
      { commandLatch i s with
        phase := .busy, kind := commandKind i, seq := .sendFrame, fb := s.fb.load (commandFrame i),
        flen := BitVec.ofNat 4 (commandFrame i).length, events := s.events ++ [.accept i] } := by
  cases i
  case draw => exact absurd rfl hd
  case region op x y ex ey =>
    simp only [commandLatch, commandFrame, opcodeRom_tag]
    rfl
  case clear | toBlack | screenOff | screenOn | setBrightness | setOrientation => rfl
  all_goals cases hi

/-- Every command but DRAW latches its operands, writes its frame and completes, as R140 says. -/
theorem oneFrameCommand {i : Instr} (hi : i.format = .cmd80) (hd : commandKind i ≠ .draw) :
    OneFrameCommand i (commandKind i) (commandLatch i) (commandFrame i) := by
  intro s hp t
  let u : State := { t with phase := .busy, seq := .sendFrame, events := s.events ++ [.accept i] }
  have hexec : exec i s = .next (txWrite (commandFrame i) afterFrame u) := by
    have hbuilt : buildFrame (commandLatch i (accept i (commandKind i) .frame s)) = u := buildFrame_command hi hd s
    have hframe := frameBytes_built hi hd .frame s
    rw [hbuilt] at hframe
    rw [exec_oneFrame hi hd, frameCommand, hp]
    simp only [sendFrame, hbuilt, hframe]
  have hu : u.replies = s.replies := commandLatch_replies i s
  rw [hexec]
  refine ⟨fun n rest hr => ?_, fun rest hr => ?_, fun rest hr => ?_, fun hr => ?_⟩ <;> rw [← hu] at hr
  · rw [txWrite_ok _ _ u n rest hr, afterFrame_oneFrame hd, complete, List.append_assoc, List.append_assoc]
    rfl
  · rw [txWrite_err _ _ u rest hr, complete, List.append_assoc, List.append_assoc]
    rfl
  · rw [txWrite_pending _ _ u rest hr]
  · rw [txWrite_nil _ _ u hr]

/-- Settles O16: REGION is a command of one frame, and `sel` 0 selects its arm of the decoder. -/
theorem regionRuns : Obligations.RegionRuns := by
  refine ⟨fun op x y ex ey => ?_, fun d hd => ?_, by decide⟩
  · have hrun := oneFrameCommand (i := .region op x y ex ey) rfl Kind.noConfusion
    rwa [commandLatch, opcodeRom_tag] at hrun
  · rw [decodeCmd]
    exact if_pos hd

end Sys2Proof.Machine

/-! # Proofs: the colour conversion and the size check -/

namespace Sys2Proof.Machine

/-! ## The colour conversion -/

/-- The three fields of a pixel's value stand side by side (R111). -/
theorem packFields_fields (r : BitVec 5) (g : BitVec 6) (b : BitVec 5) :
    (packFields r g b).extractLsb' 11 5 = r ∧ (packFields r g b).extractLsb' 5 6 = g ∧
    (packFields r g b).extractLsb' 0 5 = b := by
  refine ⟨?_, ?_, ?_⟩ <;>
  · apply BitVec.eq_of_getLsbD_eq
    intro i hi
    simp only [packFields, BitVec.getLsbD_append, BitVec.getLsbD_extractLsb']
    interval_cases i <;> simp

theorem packFields_inj {r r' : BitVec 5} {g g' : BitVec 6} {b b' : BitVec 5} :
    packFields r g b = packFields r' g' b' ↔ r = r' ∧ g = g' ∧ b = b' := by
  constructor
  · intro h
    obtain ⟨hr, hg, hb⟩ := packFields_fields r g b
    obtain ⟨hr', hg', hb'⟩ := packFields_fields r' g' b'
    exact ⟨hr.symm.trans (h ▸ hr'), hg.symm.trans (h ▸ hg'), hb.symm.trans (h ▸ hb')⟩
  · rintro ⟨rfl, rfl, rfl⟩
    rfl

/-- A field that takes all the bits a component has left after its shift loses none of them. -/
theorem setWidth_ushiftRight_inj {u v : Byte} {k n : Nat} (h : 8 ≤ n + k) :
    (u >>> k).setWidth n = (v >>> k).setWidth n ↔ u >>> k = v >>> k := by
  have hback (c : Byte) : ((c >>> k).setWidth n).setWidth 8 = c >>> k := by
    apply BitVec.eq_of_getLsbD_eq
    intro i hi
    simp only [BitVec.getLsbD_setWidth, BitVec.getLsbD_ushiftRight]
    by_cases hin : i < n
    · simp [hin, hi]
    · simp [hin, BitVec.getLsbD_of_ge c (k + i) (by omega)]
  exact ⟨fun he => by rw [← hback u, he, hback], fun he => by rw [he]⟩

/-- A component shifted to the place of its field stays within 16 bits (R111). -/
theorem component_shiftLeft_toNat (c : Byte) {k j : Nat} (h : j ≤ 8 + k) :
    ((c >>> k).setWidth 16 <<< j).toNat = (c.toNat >>> k) <<< j := by
  have hfield : c.toNat >>> k < 2 ^ 16 := by
    have := Nat.shiftRight_le c.toNat k
    omega
  have hplaced : (c.toNat >>> k) <<< j < 2 ^ 16 := by
    rw [Nat.shiftRight_eq_div_pow, Nat.shiftLeft_eq]
    calc c.toNat / 2 ^ k * 2 ^ j
        ≤ c.toNat / 2 ^ k * 2 ^ (k + 8) := Nat.mul_le_mul_left _ (Nat.pow_le_pow_right two_pos (by omega))
      _ = c.toNat / 2 ^ k * 2 ^ k * 2 ^ 8 := by rw [Nat.pow_add, Nat.mul_assoc]
      _ ≤ c.toNat * 2 ^ 8 := Nat.mul_le_mul_right _ (Nat.div_mul_le_self ..)
      _ < 2 ^ 16 := by omega
  rw [BitVec.toNat_shiftLeft, BitVec.toNat_setWidth, BitVec.toNat_ushiftRight, Nat.mod_eq_of_lt hfield,
    Nat.mod_eq_of_lt hplaced]

/-- Settles O11: no shift loses a bit, and the value is its three fields side by side. -/
theorem rgb565Value : Obligations.Rgb565Value := by
  intro p
  constructor
  · have hb := component_shiftLeft_toNat p.b8 (k := 3) (j := 0) (by decide)
    rw [BitVec.shiftLeft_zero, Nat.shiftLeft_zero] at hb
    rw [rgb565, BitVec.toNat_or, BitVec.toNat_or, component_shiftLeft_toNat _ (by decide),
      component_shiftLeft_toNat _ (by decide), hb]
  · simp only [← packFields_pixel, ← BitVec.setWidth_ushiftRight_eq_extractLsb]
    exact packFields_fields _ _ _

/-- Settles O13: the value determines its fields, and each field the bits its component keeps. -/
theorem rgb565Collisions : Obligations.Rgb565Collisions := by
  have hiff (p q : Pixel) :
      rgb565 p = rgb565 q ↔ p.r8 >>> 3 = q.r8 >>> 3 ∧ p.g8 >>> 2 = q.g8 >>> 2 ∧ p.b8 >>> 3 = q.b8 >>> 3 := by
    rw [← packFields_pixel, ← packFields_pixel, packFields_inj, setWidth_ushiftRight_inj (by decide),
      setWidth_ushiftRight_inj (by decide), setWidth_ushiftRight_inj (by decide)]
  have hred : 0#8 >>> 3 = 4#8 >>> 3 := by decide
  exact ⟨hiff, fun g b => (hiff _ _).mpr ⟨hred, rfl, rfl⟩⟩

/-! ## The size check -/

theorem sizeOk_iff {w h : Dim} : sizeOk w h = true ↔ (w = 320 ∨ h = 480) ∨ (w = 480 ∨ h = 320) := by
  simp only [sizeOk, Bool.or_eq_true, beq_iff_eq, BitVec.toNat_eq]
  rfl

/-- A zero dimension passes the check only by the other one (R120). -/
theorem degenerate_iff {w h : Dim} : degenerate w h = true ↔
    (w = 0 ∧ h = 480) ∨ (w = 0 ∧ h = 320) ∨ (w = 320 ∧ h = 0) ∨ (w = 480 ∧ h = 0) := by
  simp only [degenerate, Bool.and_eq_true, Bool.or_eq_true, beq_iff_eq, sizeOk_iff]
  constructor
  · rintro ⟨hsize, rfl | rfl⟩
    · simpa using hsize
    · simpa [or_comm] using hsize
  · rintro (⟨rfl, rfl⟩ | ⟨rfl, rfl⟩ | ⟨rfl, rfl⟩ | ⟨rfl, rfl⟩) <;> decide

/-- Settles O14: the failing sizes by De Morgan from the passing ones. -/
theorem sizeCheck : Obligations.SizeCheck := by
  refine fun w h => ⟨sizeOk_iff, ?_, degenerate_iff⟩
  rw [← Bool.not_eq_true, sizeOk_iff]
  tauto

theorem checkSize_wrongSize {f : State → State} {s : State} (h : sizeOk s.w s.h = false) :
    checkSize f s = .next (complete .wrongImageSize s) := by
  rw [checkSize, h]
  rfl

theorem checkSize_refused_iff {f : State → State} {s : State} :
    checkSize f s = .refused .degenerateDraw ↔ degenerate s.w s.h = true := by
  rcases checkSize_cases f s with ⟨h, hc⟩ | ⟨h, hc⟩ | ⟨_, hw, hh, hc⟩ <;> rw [hc]
  · simp [degenerate, h]
  · simp [h]
  · simp only [degenerate, reduceCtorEq, Bool.and_eq_true, Bool.or_eq_true, beq_iff_eq, hw, hh, or_self, and_false]

/-- Settles O25: the failed check completes the command as it was accepted. -/
theorem drawWrongSize : Obligations.DrawWrongSize := by
  intro s w h hp hs
  rw [exec_draw_idle w h hp, checkSize_wrongSize hs, complete, commandLatch_events, accept_events, List.append_assoc, ← hp]
  rfl

/-- Settles O26: DRAW is refused only by its size check, and that only for a degenerate size. -/
theorem drawDegenerateRefused : Obligations.DrawDegenerateRefused := by
  intro s w h hp
  rw [exec_draw_idle w h hp, checkSize_refused_iff]
  exact degenerate_iff

end Sys2Proof.Machine

/-! # Proofs: DRAW and its chunks -/

namespace Sys2Proof.Machine

/-! ## Arithmetic -/

theorem lastIndex_toNat {d : Dim} (h : d ≠ 0) : (lastIndex d).toNat = d.toNat - 1 := by
  have hle : 1 ≤ d := BitVec.le_def.mpr (toNat_pos h)
  rw [lastIndex, BitVec.toNat_sub_of_le hle]
  rfl

theorem chunkPixels_le_rows (s : State) : chunkPixels s ≤ 8 * s.w.toNat := by
  rw [chunkPixels_eq_min]
  exact Nat.min_le_left _ _

theorem chunkCount_eq (h : Dim) : chunkCount h = (h.toNat + 7) / 8 := rfl

/-- Settles O15: each value stays within the width of its latch. -/
theorem streamerNeverOverflows : Obligations.StreamerNeverOverflows := by
  refine ⟨fun s => ?_, fun d => lastIndex_toNat, fun h => ?_, fun s hle => ?_, fun s hinv hp hq => ?_,
    fun s p hinv hp hq => ?_⟩
  · have hw := s.w.isLt
    have hrows := chunkPixels_le_rows s
    have hpixels : s.w.toNat * s.h.toNat ≤ 65535 * 65535 :=
      Nat.mul_le_mul (Nat.le_of_lt_succ hw) (Nat.le_of_lt_succ s.h.isLt)
    exact ⟨(atChunk_zero s).pixelCount, hpixels, fillChunk_clen_toNat s, hrows, by omega, by omega⟩
  · have hh := h.isLt
    rw [chunkCount_eq]
    omega
  · have hchunk := chunkPixels_le hle
    have hhalf : (fillChunk s).clen.toNat / 2 = chunkPixels s := by
      rw [fillChunk_clen_toNat, Nat.mul_div_cancel_left _ two_pos]
    have hgrows := advancePixi_toNat (s := fillChunk s) (by rw [hhalf]; exact hchunk)
    rw [hhalf] at hgrows
    exact ⟨hgrows, hchunk⟩
  · have hpay := hinv.payloadStands hp (.inr hq)
    have hle : s.pixi.toNat + s.clen.toNat / 2 ≤ s.npix.toNat := by
      rw [hinv.chunkWhole hp hq, Nat.mul_div_cancel_left _ two_pos]
      exact chunkPixels_le (Nat.le_of_lt hpay.pixelsRemain)
    exact ⟨advancePixi_toNat hle, hle⟩
  · obtain ⟨-, hmissing⟩ := hinv.filling hp hq
    have heven := (hinv.payloadStands hp (.inl hq)).clenEven
    exact ⟨fillPixel_clen_toNat p hmissing, by omega⟩

/-! ## A DRAW whose writes are answered -/

theorem okReplies_append (ns ms : List Nat) (tail : List Reply) :
    okReplies (ns ++ ms) tail = okReplies ns (okReplies ms tail) := by
  rw [okReplies, List.map_append, List.append_assoc]
  rfl

theorem exists_cons_append_singleton {ns : List Nat} (h : 2 ≤ ns.length) : ∃ n ms m, ns = n :: ms ++ [m] := by
  cases ns with
  | nil => simp at h
  | cons n l =>
    rcases List.eq_nil_or_concat' l with rfl | ⟨ms, m, rfl⟩
    · simp at h
    · exact ⟨n, ms, m, rfl⟩

/-- The last chunk, answered `Ok`, completes the command. -/
theorem payload_last {t : State} {m : Nat} {rest : List Reply} (hr : t.replies = .answer (.ok m) :: rest) :
    payload 1 t = complete .ok (afterSend t m rest) := by
  rw [payload, sendChunk, txWrite_ok _ _ (fillChunk t) m rest hr]
  rfl

/-- Settles O27: the answers are those of the frame, of the chunks before the last, and of the last chunk, after which PIXI
stands at NPIX. -/
theorem drawCompletes : Obligations.DrawCompletes := by
  intro s w h ns rest hp hs hw hh hr hn
  have hlength : (drawWrites s.pix w h).length = ns.length := hn ▸ commandWrites_draw_length s.pix w h
  refine ⟨hlength, ?_⟩
  have hpos := toNat_pos hh
  obtain ⟨n, ms, m, rfl⟩ := exists_cons_append_singleton (show 2 ≤ ns.length by omega)
  have hchunks : ms.length + 1 = (h.toNat + 7) / 8 := by
    simp only [List.length_append, List.length_cons, List.length_nil] at hn
    omega
  rw [okReplies_append] at hr
  obtain ⟨t, k, he, hk, htape, hat, htw, hth, htpix, -, -, ht, hev⟩ := exec_draw_prefix hp hs hw hh hr (by omega)
  obtain rfl : k = 0 := by omega
  rw [payload_last htape] at he
  have hlast : (drawWrites s.pix w h)[(n :: ms).length]? = some (fillChunk t).cb :=
    drawWrites_get hat htw hth htpix (by omega)
  have hevents : (complete .ok (afterSend t m rest)).events =
      s.events ++ [.accept (.draw w h)] ++ okWrites (drawWrites s.pix w h) (n :: ms ++ [m]) ++ [.complete .ok] := by
    rw [okWrites_snoc _ _ hlast, ← take_okWrites, ← List.append_assoc, ← hev]
    rfl
  have hcb : (drawWrites s.pix w h).getLast? = some (fillChunk t).cb := by
    rw [List.getLast?_eq_getElem?, hlength, List.length_append]
    exact hlast
  have hpixi := afterSend_pixi_last (m := m) (rest := rest) hat (by rw [hth]; omega) (by rw [hth]; omega)
  have hlvl : t.lvl = s.lvl := (congrArg State.lvl ht).trans rfl
  have hori : t.ori = s.ori := (congrArg State.ori ht).trans rfl
  have hhost : t.host = s.host := (congrArg State.host ht).trans rfl
  exact ⟨_, he, rfl, rfl, rfl, congrArg State.kind ht, rfl, rfl, hevents, htw, hth, congrArg State.x ht,
    congrArg State.y ht, congrArg State.ex ht, congrArg State.ey ht, congrArg State.opc ht,
    congrArg (·.fb.bytes.take 6) ht, congrArg State.flen ht, htw ▸ hth ▸ hat.pixelCount, BitVec.eq_of_toNat_eq hpixi,
    hcb, (fillChunk_cb_length t).symm, hlvl, hori, htpix, hhost⟩

/-- Settles O28: the write answered `Err` is the frame, or the chunk that DRAW stands before. -/
theorem drawFailsAtNthWrite : Obligations.DrawFailsAtNthWrite := by
  intro s w h ns rest hp hs hw hh hr hn
  cases ns with
  | nil =>
    have he := exec_draw hp hs hw hh
    rw [txWrite_err _ _ (drawBuilt s w h) rest hr] at he
    refine ⟨_, _, he, rfl, rfl, rfl, rfl, rfl, ?_⟩
    simp [drawBuilt_eq, okWrites]
  | cons n ms =>
    obtain ⟨t, k, he, -, htape, hat, htw, hth, htpix, -, -, -, hev⟩ := exec_draw_prefix hp hs hw hh hr hn
    rw [payload, sendChunk, txWrite_err _ _ (fillChunk t) rest htape] at he
    refine ⟨_, (fillChunk t).cb, he, rfl, rfl, rfl, rfl, drawWrites_get hat htw hth htpix hn, ?_⟩
    rw [← hev, complete_events, List.append_assoc]
    rfl

/-! ## What DRAW leaves unchanged -/

/-- A stage that leaves FB as it is. -/
def KeepsFb (f : State → State) : Prop := ∀ s, (f s).fb = s.fb

theorem KeepsFb.txWrite {f : State → State} (hf : KeepsFb f) (bs : List Byte) : KeepsFb (Machine.txWrite bs f) := by
  intro s
  rcases txWrite_cases bs f s with ⟨_, _, _, h⟩ | ⟨_, _, h⟩ | ⟨_, _, h⟩ <;> rw [h]
  · exact hf _
  · rfl

theorem keepsFb_payload : ∀ n, KeepsFb (payload n)
  | 0 => fun _ => rfl
  | n + 1 => fun s => KeepsFb.txWrite (fun t => keepsFb_payload n (advancePixi t)) (fillChunk s).cb (fillChunk s)

theorem keepsFb_streamPixels : KeepsFb streamPixels := fun s => keepsFb_payload _ (beginPayload s)

theorem continues_drawBuilt (s : State) (w h : Dim) :
    Continues (drawBuilt s w h) (sendFrame streamPixels (drawBuilt s w h)) :=
  .txWrite _ _ _ rfl fun t ht _ => .streamPixels t ht

/-- Settles O30: DRAW loads a frame of six bytes into FB, and no stage after that writes FB. -/
theorem drawFrame : Obligations.DrawFrame := by
  intro s t w h he
  cases hp : s.phase with
  | busy =>
    rw [exec_command_busy rfl hp] at he
    cases he
    exact ⟨rfl, rfl, rfl, rfl, rfl, rfl, rfl, rfl, rfl⟩
  | idle =>
    rcases exec_draw_next hp he with rfl | ⟨-, rfl⟩
    · exact ⟨rfl, rfl, rfl, rfl, rfl, rfl, rfl, rfl, rfl⟩
    · obtain ⟨hpix, hhost, hlvl, hori, -⟩ := continues_drawBuilt s w h
      have hfb : (sendFrame streamPixels (drawBuilt s w h)).fb = s.fb.load (regionFrame 0 0 (w - 1) (h - 1) 197) :=
        keepsFb_streamPixels.txWrite _ _
      rw [hfb]
      exact ⟨hlvl, hori, hpix, hhost, rfl, rfl, rfl, rfl, rfl⟩

/-! ## SEND_CHUNK, stage by stage -/

/-- A chunk that the transport leaves unanswered for some steps waits as many. -/
theorem run_sendChunk_pending (k : Nat) : ∀ {s : State} {rest : List Reply}, s.phase = .busy → s.seq = .sendChunk →
    resetNext s = false → s.replies = List.replicate (k + 1) .pending ++ rest →
    run (k + 1) s = .next { s with inFlight := true, replies := rest } := by
  induction k with
  | zero =>
    intro s rest hp hq hr ht
    rw [run_succ 0 (step_sendChunk hp hq hr), sendChunk, txWrite_pending _ _ s rest ht]
    rfl
  | succ k ih =>
    intro s rest hp hq hr ht
    rw [run_succ (k + 1) (step_sendChunk hp hq hr), sendChunk, txWrite_pending _ _ s _ ht]
    exact ih hp hq hr rfl

/-- Settles O38: the step is one write of the chunk in CB, by the transport's answer and by what remains after an `Ok`. -/
theorem resumedChunkSends : Obligations.ResumedChunkSends := by
  intro s hp hq hr sent
  have hstep := step_sendChunk hp hq hr
  rw [sendChunk] at hstep
  refine ⟨fun n rest ht hmore => ?_, fun n rest ht hlast => ?_, fun rest ht => ?_,
    fun k rest => run_sendChunk_pending k hp hq hr, fun ht => ?_⟩
  · rw [hstep, txWrite_ok _ _ s n rest ht]
    exact congrArg Host.Outcome.next (afterChunk_more hmore)
  · rw [hstep, txWrite_ok _ _ s n rest ht]
    refine congrArg Host.Outcome.next ((afterChunk_last ?_).trans ?_)
    · exact Nat.not_lt.mpr hlast
    · rw [complete, advancePixi_events, List.append_assoc]
      rfl
  · rw [hstep, txWrite_err _ _ s rest ht, complete, List.append_assoc]
    rfl
  · rw [hstep, txWrite_nil _ _ s ht]

end Sys2Proof.Machine

/-! # Proofs: the high-level operations -/

namespace Sys2Proof.Machine

/-! ## Their arms of the decoder -/

section
variable {d : Descriptor}

theorem decodeCmd_clear (h : descSel d = 1) : decodeCmd d = .clear := by simp [decodeCmd, h]

theorem decodeCmd_toBlack (h : descSel d = 2) : decodeCmd d = .toBlack := by simp [decodeCmd, h]

theorem decodeCmd_screenOff (h : descSel d = 3) : decodeCmd d = .screenOff := by simp [decodeCmd, h]

theorem decodeCmd_screenOn (h : descSel d = 4) : decodeCmd d = .screenOn := by simp [decodeCmd, h]

theorem decodeCmd_setBrightness (h : descSel d = 5) : decodeCmd d = .setBrightness (descLevel d) := by
  simp [decodeCmd, h]

theorem decodeCmd_setOrientation (h : descSel d = 6) :
    decodeCmd d = .setOrientation (Orientation.ofCode (descOrient d)) := by
  simp [decodeCmd, h]

end

/-! ## The commands without operands -/

/-- Settles O17: CLEAR is a command of one frame, that of the zero rectangle. -/
theorem clearRuns : Obligations.ClearRuns :=
  ⟨oneFrameCommand (i := .clear) rfl Kind.noConfusion, fun _ => decodeCmd_clear⟩

/-- Settles O18: TO_BLACK is a command of one frame, that of the zero rectangle. -/
theorem toBlackRuns : Obligations.ToBlackRuns :=
  ⟨oneFrameCommand (i := .toBlack) rfl Kind.noConfusion, fun _ => decodeCmd_toBlack⟩

/-- Settles O19: SCREEN_OFF is a command of one frame, that of the zero rectangle. -/
theorem screenOffRuns : Obligations.ScreenOffRuns :=
  ⟨oneFrameCommand (i := .screenOff) rfl Kind.noConfusion, fun _ => decodeCmd_screenOff⟩

/-- Settles O20: SCREEN_ON is a command of one frame, that of the zero rectangle. -/
theorem screenOnRuns : Obligations.ScreenOnRuns :=
  ⟨oneFrameCommand (i := .screenOn) rfl Kind.noConfusion, fun _ => decodeCmd_screenOn⟩

/-! ## SET_BRIGHTNESS -/

/-- The subtraction never borrows, and nothing is lost in 16 bits (R145). -/
theorem brightnessX_toNat (level : Byte) : (brightnessX level).toNat = 255 - level.toNat := by
  rw [brightnessX_eq, BitVec.toNat_ofNat]
  omega

theorem brightnessX_injective {l m : Byte} (h : brightnessX l = brightnessX m) : l = m := by
  have hx := congrArg BitVec.toNat h
  rw [brightnessX_toNat, brightnessX_toNat] at hx
  have := l.isLt
  have := m.isLt
  exact BitVec.eq_of_toNat_eq (by omega)

/-- X stands in the first two bytes alone, as every other coordinate is zero (R90). -/
theorem regionFrame_brightness (level : Byte) :
    regionFrame (brightnessX level) 0 0 0 110 =
      [BitVec.ofNat 8 ((255 - level.toNat) >>> 2), BitVec.ofNat 8 (((255 - level.toNat) &&& 3) <<< 6), 0, 0, 0, 110] := by
  rw [regionFrameFormulas, brightnessX_toNat]
  simp

/-- The rectangle of SET_BRIGHTNESS is in range, so R92's formula reads X back. -/
theorem inverseX_brightness {level f0 f1 f2 f3 f4 f5 : Byte}
    (h : regionFrame (brightnessX level) 0 0 0 110 = [f0, f1, f2, f3, f4, f5]) : inverseX f0 f1 = brightnessX level := by
  have hx : coordInRange (brightnessX level) = true := by
    rw [coordInRange_iff_lt, brightnessX_toNat]
    omega
  have hrect : rectInRange (brightnessX level) 0 0 0 = true := rectInRange_iff.mpr ⟨hx, rfl, rfl, rfl⟩
  exact (inverse_regionFrame_inRange hrect h).1

/-- Settles O21: a command of one frame; as R92's formula reads X from the frame, the frame determines the level. -/
theorem setBrightnessRuns : Obligations.SetBrightnessRuns := by
  refine ⟨fun level => ?_, fun _ => decodeCmd_setBrightness, fun l m h => ?_, fun l f0 f1 f2 f3 f4 f5 h => ?_⟩
  · rw [← regionFrame_brightness, ← brightnessX_eq]
    exact oneFrameCommand (i := .setBrightness level) rfl Kind.noConfusion
  · exact brightnessX_injective ((inverseX_brightness h).symm.trans (inverseX_brightness rfl))
  · exact (congrArg BitVec.toNat (inverseX_brightness h)).trans (brightnessX_toNat l)

/-! ## SET_ORIENTATION -/

/-- Settles O22: a command of one frame, the template of R93, and every code is an orientation's (R68). -/
theorem setOrientationRuns : Obligations.SetOrientationRuns := by
  refine ⟨fun o => ?_, fun d hd => ⟨_, decodeCmd_setOrientation hd, Orientation.code_ofCode _⟩⟩
  rw [← orientFrame_code]
  exact oneFrameCommand (i := .setOrientation o) rfl Kind.noConfusion

end Sys2Proof.Machine

/-! # Proofs: every command ends once, and a failed write ends it -/

namespace Sys2Proof.Machine

/-! ## Commands accepted and results delivered -/

theorem running_busy {s : State} (h : s.phase = .busy) : running s = 1 := if_pos h

theorem running_idle {s : State} (h : s.phase = .idle) : running s = 0 := by simp [running, h]

/-- From `s` to `t` events are added, and what is accepted and what runs before balances with the results and what runs after
(R160). -/
def Balances (s t : State) : Prop :=
  ∃ es, t.events = s.events ++ es ∧ (acceptsOf es).length + running s = (resultsOf es).length + running t

theorem balances_of_same {s t : State} (he : t.events = s.events) (hp : t.phase = s.phase) : Balances s t :=
  ⟨[], by simp [he], by rw [running, running, hp]; rfl⟩

theorem Balances.trans {s u t : State} (h : Balances s u) (h' : Balances u t) : Balances s t := by
  obtain ⟨es, he, hb⟩ := h
  obtain ⟨fs, hf, hb'⟩ := h'
  refine ⟨es ++ fs, by rw [hf, he, List.append_assoc], ?_⟩
  rw [acceptsOf_append, resultsOf_append, List.length_append, List.length_append]
  omega

theorem balances_accept {i : Instr} {s u : State} (hs : s.phase = .idle) (hu : u.phase = .busy)
    (he : u.events = s.events ++ [.accept i]) : Balances s u :=
  ⟨[.accept i], he, by rw [running_idle hs, running_busy hu]; rfl⟩

theorem balances_complete {s : State} (st : Status) (hp : s.phase = .busy) : Balances s (complete st s) :=
  ⟨[.complete st], rfl, by rw [running_busy hp]; rfl⟩

theorem Continues.balances {s t : State} (h : Continues s t) (hp : s.phase = .busy) : Balances s t := by
  obtain ⟨_, _, _, _, es, he, hacc, ⟨ht, _, hres, _⟩ | ⟨ht, _, hres, _⟩ | ⟨ht, _, pre, b, hes, _, hres⟩⟩ := h
  · exact ⟨es, he, by rw [hacc, hres, running_busy hp, running_busy ht]; rfl⟩
  · exact ⟨es, he, by rw [hacc, hres, running_busy hp, running_idle ht]; rfl⟩
  · have hone : resultsOf es = [.writeError] := by rw [hes, resultsOf_append, hres]; rfl
    exact ⟨es, he, by rw [hacc, hone, running_busy hp, running_idle ht]; rfl⟩

theorem Executes.balances {i : Instr} {s t : State} (h : Executes i s t) : Balances s t := by
  rcases h with rfl | ⟨hp, u, hu, _, _, _, he, hc | rfl⟩ | ⟨hp, hc⟩
  · exact balances_of_same rfl rfl
  · exact (balances_accept hp hu he).trans (hc.balances hu)
  · exact (balances_accept hp hu he).trans (balances_complete _ hu)
  · exact hc.balances hp

/-- Settles O43: a command accepted starts to run, and one that runs ends with its one result. -/
theorem oneResultPerCommand : Obligations.OneResultPerCommand := by
  intro s t hr hs
  rcases step_advances hs with ⟨_, hh, _⟩ | ⟨_, _, _, _, _, rfl⟩ | rfl | ⟨_, d, rest, _, he⟩ | ⟨hp, hc | rfl⟩
  · simp [resetNext, hh] at hr
  · exact balances_of_same rfl rfl
  · exact balances_of_same rfl rfl
  · exact he.balances
  · exact hc.balances hp
  · exact balances_complete _ hp

/-! ## A write answered `Err` -/

/-- From `s` to `t` events are added, and a write answered `Err` among them comes last but for `Complete` (R164). -/
def ErrEnds (s t : State) : Prop :=
  ∃ es, t.events = s.events ++ es ∧
    ∀ b, (b, .err) ∈ writesOf es →
      t.phase = .idle ∧ t.result = .writeError ∧ ∃ pre, es = pre ++ [.write b .err, .complete .writeError] ∧ NoErr pre

theorem errEnds_of_noErr {s t : State} {es : List Event} (he : t.events = s.events ++ es) (h : NoErr es) : ErrEnds s t :=
  ⟨es, he, fun b hb => absurd hb (h b)⟩

theorem errEnds_of_same {s t : State} (he : t.events = s.events) : ErrEnds s t :=
  errEnds_of_noErr (es := []) (by simp [he]) fun _ => List.not_mem_nil

theorem errEnds_complete (st : Status) (s : State) : ErrEnds s (complete st s) :=
  errEnds_of_noErr (es := [.complete st]) rfl fun _ => List.not_mem_nil

/-- An acceptance before it fails no write. -/
theorem ErrEnds.after_accept {i : Instr} {s u t : State} (h : ErrEnds u t) (he : u.events = s.events ++ [.accept i]) :
    ErrEnds s t := by
  obtain ⟨es, hes, hends⟩ := h
  refine ⟨.accept i :: es, by rw [hes, he, List.append_assoc]; rfl, fun b hb => ?_⟩
  obtain ⟨hp, hr, pre, rfl, hpre⟩ := hends b hb
  exact ⟨hp, hr, .accept i :: pre, rfl, hpre⟩

theorem Continues.errEnds {s t : State} (h : Continues s t) : ErrEnds s t := by
  obtain ⟨_, _, _, _, es, he, _, ⟨_, _, _, hno⟩ | ⟨_, _, _, hno⟩ | ⟨hp, hr, pre, b, rfl, hpre, _⟩⟩ := h
  · exact errEnds_of_noErr he hno
  · exact errEnds_of_noErr he hno
  · refine ⟨_, he, fun c hc => ?_⟩
    rw [writesOf_append] at hc
    rcases List.mem_append.mp hc with hc | hc
    · exact absurd hc (hpre c)
    · cases List.mem_singleton.mp hc
      exact ⟨hp, hr, pre, rfl, hpre⟩

theorem Executes.errEnds {i : Instr} {s t : State} (h : Executes i s t) : ErrEnds s t := by
  rcases h with rfl | ⟨_, u, _, _, _, _, he, hc | rfl⟩ | ⟨_, hc⟩
  · exact errEnds_of_same rfl
  · exact hc.errEnds.after_accept he
  · exact (errEnds_complete _ u).after_accept he
  · exact hc.errEnds

/-- Settles O46: only the stages of a running command write, and they end with the first write that fails. -/
theorem writeErrorEndsCommand : Obligations.WriteErrorEndsCommand := by
  intro s t hs
  rcases step_advances hs with ⟨_, _, rfl⟩ | ⟨_, _, _, _, _, rfl⟩ | rfl | ⟨_, d, rest, _, he⟩ | ⟨_, hc | rfl⟩
  · exact errEnds_of_same rfl
  · exact errEnds_of_same rfl
  · exact errEnds_of_same rfl
  · exact he.errEnds
  · exact hc.errEnds
  · exact errEnds_complete _ s

end Sys2Proof.Machine

/-! # Proofs: where a step of the invariant stops -/

namespace Sys2Proof.Machine

/-- The pixel to convert lies inside the buffer (R41): it is one of the chunk's, and the chunk one of the payload's. -/
theorem nextPixel_lt {s : State} (h : PayloadInv s) (hl : s.clen.toNat < 2 * chunkPixels s) :
    nextPixel s < s.w.toNat * s.h.toNat := by
  have hchunk := chunkPixels_le (Nat.le_of_lt h.pixelsRemain)
  rw [← h.pixelCount, nextPixel, params_bytesPerPixel]
  omega

/-- Under the invariant every stage of a BUSY block has a next state. -/
theorem stageStep_next {s : State} (h : MachineInv s) (hp : s.phase = .busy) : ∃ t, stageStep s = .next t := by
  rcases h.busyStage hp with hq | hq | hq <;> simp only [stageStep, hq]
  · exact ⟨_, if_pos (h.frameStands hp hq)⟩
  · obtain ⟨-, hmissing⟩ := h.filling hp hq
    exact ⟨_, if_pos (nextPixel_lt (h.payloadStands hp (.inl hq)) hmissing)⟩
  · exact ⟨_, rfl⟩

/-- A command of an IDLE block has a next state, unless it is a degenerate DRAW, which is refused (R120). -/
theorem exec_command_next_or_refused {i : Instr} {s : State} (hi : i.format = .cmd80) (hp : s.phase = .idle) :
    (∃ t, exec i s = .next t) ∨
    (exec i s = .refused .degenerateDraw ∧ ∃ w h, i = .draw w h ∧ degenerate w h = true) := by
  by_cases hd : commandKind i = .draw
  · obtain ⟨w, h, rfl⟩ := eq_draw_of_kind hd
    rw [exec_draw_idle w h hp]
    rcases checkSize_cases (fun t => sendFrame streamPixels (buildFrame t))
      (commandLatch (.draw w h) (accept (.draw w h) .draw .check s)) with ⟨_, hc⟩ | ⟨hdeg, hc⟩ | ⟨_, _, _, hc⟩
    · exact .inl ⟨_, hc⟩
    · exact .inr ⟨hc, w, h, rfl, hdeg⟩
    · exact .inl ⟨_, hc⟩
  · rw [exec_oneFrame hi hd]
    rcases frameCommand_cases i (commandKind i) (commandLatch i) s with ⟨_, hc⟩ | ⟨_, hc⟩ <;> exact .inl ⟨_, hc⟩

/-- Under the invariant a step has a next state, unless an IDLE block is issued a degenerate DRAW, which is refused. -/
theorem step_next_or_refused {s : State} (h : MachineInv s) :
    (∃ t, step s = .next t) ∨
    (step s = .refused .degenerateDraw ∧ s.phase = .idle ∧
      ∃ d rest w h, s.host = .issue d :: rest ∧ decodeCmd d = .draw w h ∧ degenerate w h = true) := by
  by_cases hr : ∃ rest, s.host = .reset :: rest
  · obtain ⟨rest, hh⟩ := hr
    exact .inl ⟨_, step_reset hh⟩
  cases hp : s.phase with
  | busy =>
    rw [step_busy hp (resetNext_eq_false hr)]
    exact .inl (stageStep_next h hp)
  | idle =>
    match hh : s.host with
    | [] => exact .inl ⟨_, step_quiet hp hh⟩
    | .reset :: rest => exact absurd ⟨rest, hh⟩ hr
    | .putPixel _ _ :: _ => exact .inl ⟨_, step_putPixel hp hh⟩
    | .issue d :: rest =>
      rw [step_issue hp hh]
      rcases exec_command_next_or_refused (s := { s with host := rest }) (decodeCmd_format d) hp with
        hnext | ⟨hrefused, w, h, hdraw, hdeg⟩
      · exact .inl hnext
      · exact .inr ⟨hrefused, rfl, d, rest, w, h, rfl, hdraw, hdeg⟩

/-- Settles O52: the step has a next state, or it is the refusal of a degenerate DRAW. -/
theorem noFaultUnderInv : Obligations.NoFaultUnderInv := by
  intro s h
  rcases step_next_or_refused h with ⟨t, hs⟩ | ⟨hs, hp, hdraw⟩ <;> rw [hs]
  · exact ⟨nofun, nofun⟩
  · refine ⟨nofun, fun r hr => ?_⟩
    cases hr
    exact ⟨rfl, hp, hdraw⟩

end Sys2Proof.Machine

/-! # Proofs: the host's moves one by one -/

namespace Sys2Proof.Machine

/-- Settles O40: reset comes before anything else. -/
theorem hardwareReset : Obligations.HardwareReset := fun _ _ => step_reset

/-- A read of PIX after the host filled a pixel. -/
theorem PixMem.read_write {m : PixMem} (h : m.wf) (i j : Nat) (p : Pixel) :
    (m.write i p).read j = if j = i then p else m.read j := by
  obtain ⟨hred, hgreen, hblue⟩ := h
  simp only [PixMem.read, PixMem.write, Memory.read_write _ hred, Memory.read_write _ hgreen, Memory.read_write _ hblue]
  split <;> rfl

/-- Settles O41: the step writes the three components of the pixel into the planes of PIX. -/
theorem fillPixelReads : Obligations.FillPixelReads := fun _ i p _ hp hh hx =>
  ⟨_, step_putPixel hp hh, rfl, PixMem.write_wf _ hx i p, fun j => PixMem.read_write hx i j p⟩

/-! ## The wire rows away from their stages -/

theorem sendWireFrame_elsewhere {s : State} (frame : List Byte) (h : ¬ (s.phase = .busy ∧ s.seq = .sendFrame)) :
    sendWireFrame frame s = .next s := by
  rcases sendWireFrame_cases frame s with ⟨hp, hq, _⟩ | ⟨_, hs⟩
  · exact absurd ⟨hp, hq⟩ h
  · exact hs

/-- A frame row is the stage SEND_FRAME with some frame. -/
theorem exec_frameRow {i : Instr} (hi : i.format = .r6 ∨ i.format = .o11) : ∃ frame, ∀ s, exec i s = sendWireFrame frame s := by
  rcases hi with hi | hi
  · obtain ⟨op, x, y, ex, ey, rfl⟩ := eq_frameInstr hi
    exact ⟨_, exec_frameInstr op x y ex ey⟩
  · cases i
    case frameOrient11 o => exact ⟨_, fun _ => rfl⟩
    all_goals cases hi

theorem exec_pixelRow_elsewhere {i : Instr} {s : State} (hi : i.format = .p2) (h : ¬ (s.phase = .busy ∧ s.seq = .fill)) :
    exec i s = .next s := by
  cases i
  case pixel r5 g6 b5 =>
    simp only [exec, execPixel]
    split
    · next hp hq => exact absurd ⟨hp, hq⟩ h
    · rfl
  all_goals cases hi

/-- Settles O35: a frame row is the stage SEND_FRAME and the pixel row the stage FILL, and each is guarded by its stage. -/
theorem wireRowsOnlyAtTheirStage : Obligations.WireRowsOnlyAtTheirStage := by
  rintro i s (⟨hi, hs⟩ | ⟨hi, hs⟩)
  · obtain ⟨frame, hframe⟩ := exec_frameRow hi
    rw [hframe, sendWireFrame_elsewhere frame hs]
  · exact exec_pixelRow_elsewhere hi hs

end Sys2Proof.Machine

/-! # Proofs: runs of every length -/

namespace Sys2Proof.Machine

/-- A property that holds of a state and gives every step a next state with it, gives every run one. -/
theorem run_of_step {P : State → Prop} (hstep : ∀ s, P s → ∃ t, step s = .next t ∧ P t) {s : State} (h : P s) (k : Nat) :
    ∃ t, run k s = .next t ∧ P t := by
  induction k generalizing s with
  | zero => exact ⟨s, rfl, h⟩
  | succ k ih =>
    obtain ⟨u, hu, hPu⟩ := hstep s h
    rw [run_succ k hu]
    exact ih hPu

/-! ## A host that avoids the degenerate sizes -/

theorem Continues.host {s t : State} (h : Continues s t) : t.host = s.host := h.2.1

theorem Executes.host {i : Instr} {s t : State} (h : Executes i s t) : t.host = s.host := by
  rcases h with rfl | ⟨_, u, _, _, hhost, _, _, hc | rfl⟩ | ⟨_, hc⟩
  · rfl
  · exact hc.host.trans hhost
  · exact hhost
  · exact hc.host

/-- A step gives the host no new move. -/
theorem step_host_subset {s t : State} (hs : step s = .next t) : t.host ⊆ s.host := by
  rcases step_advances hs with ⟨rest, hh, rfl⟩ | ⟨_, _, rest, _, hh, rfl⟩ | rfl | ⟨_, _, rest, hh, he⟩ | ⟨_, hc | rfl⟩
  · exact hh ▸ List.subset_cons_self _ rest
  · exact hh ▸ List.subset_cons_self _ rest
  · exact List.Subset.refl _
  · exact he.host ▸ hh ▸ List.subset_cons_self _ rest
  · exact hc.host ▸ List.Subset.refl _
  · exact List.Subset.refl _

theorem hostAvoidsDegenerate_of_subset {s t : State} (h : hostAvoidsDegenerate s) (hsub : t.host ⊆ s.host) :
    hostAvoidsDegenerate t :=
  fun d hd => h d (hsub hd)

theorem not_degenerate_next {s : State} {d : Descriptor} {rest : List HostMove} {w h : Dim} (havoids : hostAvoidsDegenerate s)
    (hh : s.host = .issue d :: rest) (hd : decodeCmd d = .draw w h) : degenerate w h ≠ true :=
  Bool.eq_false_iff.mp (havoids d (hh ▸ List.mem_cons_self) w h hd)

/-- A host that avoids the degenerate sizes has no step refused, and the step keeps the invariant. -/
theorem step_safe {s : State} (h : MachineInv s ∧ hostAvoidsDegenerate s) :
    ∃ t, step s = .next t ∧ MachineInv t ∧ hostAvoidsDegenerate t := by
  obtain ⟨hinv, havoids⟩ := h
  rcases step_next_or_refused hinv with ⟨t, hs⟩ | ⟨_, _, d, rest, w, h, hh, hdraw, hdeg⟩
  · exact ⟨t, hs, stepKeepsInv s t hinv hs, hostAvoidsDegenerate_of_subset havoids (step_host_subset hs)⟩
  · exact absurd hdeg (not_degenerate_next havoids hh hdraw)

/-- Settles O53: by O50 and O52 every step is safe, and a step gives the host no new move. -/
theorem runsAreSafe : Obligations.RunsAreSafe := by
  intro s hinv havoids k
  obtain ⟨t, ht, _⟩ := run_of_step (fun _ => step_safe) ⟨hinv, havoids⟩ k
  exact ⟨t, ht⟩

/-! ## A write that is never answered -/

/-- A write in flight, with no answer to come, stays as it is. -/
theorem txWrite_never (bs : List Byte) (f : State → State) {s : State} (hf : s.inFlight = true) (hr : s.replies = []) :
    txWrite bs f s = s := by
  rw [txWrite_nil bs f s hr, ← hf]

/-- Under the invariant only SEND_FRAME and SEND_CHUNK have a write in flight, and each waits for its answer. -/
theorem step_never_answered {s : State} (h : MachineInv s) (hp : s.phase = .busy) (hf : s.inFlight = true)
    (ht : s.replies = []) (hr : resetNext s = false) : step s = .next s := by
  rw [step_busy hp hr]
  rcases h.busyStage hp with hq | hq | hq <;> simp only [stageStep, hq]
  · rw [if_pos (h.frameStands hp hq), sendFrame, txWrite_never _ _ hf ht]
  · simp [h.filling hp hq] at hf
  · rw [sendChunk, txWrite_never _ _ hf ht]

/-- Settles O58: the step changes nothing, so no run does, and a BUSY block has not ended. -/
theorem neverAnsweredNeverEnds : Obligations.NeverAnsweredNeverEnds := by
  intro s h hp hf ht hr
  refine ⟨run_fixed (step_never_answered h hp hf ht hr), fun hend => ?_⟩
  have hidle := hend.idle
  simp [hp] at hidle

end Sys2Proof.Machine

/-! # Proofs: a run whose writes are all answered ends -/

namespace Sys2Proof.Machine

/-! ## The host's moves, served one a step -/

/-- The IDLE block has taken the moves: the commands they issue are accepted in order, one result each, within the bound of R206,
and none is left open. -/
def Serves (moves : List HostMove) (s t : State) : Prop :=
  t.phase = .idle ∧ ∃ es, t.events = s.events ++ es ∧ t.replies = s.replies.drop (writesOf es).length ∧
    acceptsOf es = commandsOf moves ∧ (resultsOf es).length = (commandsOf moves).length ∧
    (writesOf es).length ≤ writeBounds (commandsOf moves) ∧
    (commandOpen false s.events = false → commandOpen false t.events = false)

theorem serves_of_same {moves : List HostMove} {s t : State} (hp : t.phase = .idle) (he : t.events = s.events)
    (hr : t.replies = s.replies) (hm : commandsOf moves = []) : Serves moves s t :=
  ⟨hp, [], by simp [he], hr, hm.symm, by rw [hm]; rfl, Nat.zero_le _, fun h => he ▸ h⟩

theorem writeBounds_append (is js : List Instr) : writeBounds (is ++ js) = writeBounds is + writeBounds js := by
  simp [writeBounds]

theorem commandsOf_append (ms ns : List HostMove) : commandsOf (ms ++ ns) = commandsOf ms ++ commandsOf ns := by
  induction ms with
  | nil => rfl
  | cons m ms ih => cases m <;> simp [commandsOf, ih]

theorem Serves.trans {ms ns : List HostMove} {s u t : State} (h : Serves ms s u) (h' : Serves ns u t) :
    Serves (ms ++ ns) s t := by
  obtain ⟨_, es, he, hr, hacc, hres, hw, hopen⟩ := h
  obtain ⟨hp, fs, he', hr', hacc', hres', hw', hopen'⟩ := h'
  refine ⟨hp, es ++ fs, by rw [he', he, List.append_assoc], ?_, ?_, ?_, ?_, fun h => hopen' (hopen h)⟩
  · rw [hr', hr, List.drop_drop, writesOf_append, List.length_append]
  · rw [acceptsOf_append, hacc, hacc', commandsOf_append]
  · rw [resultsOf_append, List.length_append, hres, hres', commandsOf_append, List.length_append]
  · rw [writesOf_append, List.length_append, commandsOf_append, writeBounds_append]
    exact Nat.add_le_add hw hw'

/-- What the transport answers at once it still does after the moves are served. -/
theorem Serves.answered {moves : List HostMove} {n : Nat} {s t : State} (h : Serves moves s t)
    (ha : Answered (writeBounds (commandsOf moves) + n) s) : Answered n t := by
  obtain ⟨_, es, _, hr, _, _, hw, _⟩ := h
  obtain ⟨hlength, hanswers⟩ := ha
  rw [Answered, hr, List.length_drop]
  exact ⟨by omega, fun r hm => hanswers r (List.mem_of_mem_drop hm)⟩

/-- A command that is accepted and finishes is served. -/
theorem Finishes.serves {d : Descriptor} {s t : State}
    (h : Finishes (writeBound (decodeCmd d)) { s with events := s.events ++ [.accept (decodeCmd d)] } t) :
    Serves [.issue d] s t := by
  obtain ⟨hp, -, es, he, hw, hr, hacc, hres⟩ := h
  refine ⟨hp, .accept (decodeCmd d) :: es, by rw [he, List.append_assoc]; rfl, hr, congrArg _ hacc, hres, hw, fun _ => ?_⟩
  rw [he, commandOpen_append]
  exact commandOpen_closed hacc fun hnil => by simp [hnil] at hres

/-- An IDLE block serves the host's next move in one step. -/
theorem step_serves {s : State} {move : HostMove} {rest : List HostMove} (hp : s.phase = .idle) (hh : s.host = move :: rest)
    (havoids : hostAvoidsDegenerate s) (ha : Answered (writeBounds (commandsOf [move])) s) :
    ∃ t, step s = .next t ∧ t.host = rest ∧ Serves [move] s t := by
  cases move with
  | reset => exact ⟨_, step_reset hh, rfl, serves_of_same rfl rfl rfl rfl⟩
  | putPixel j p => exact ⟨_, step_putPixel hp hh, rfl, serves_of_same hp rfl rfl rfl⟩
  | issue d =>
    rw [step_issue hp hh]
    have hi := decodeCmd_format d
    rcases exec_command_next_or_refused (s := { s with host := rest }) hi hp with ⟨t, ht⟩ | ⟨_, w, h, hdraw, hdeg⟩
    · have hfin := exec_finishes (s := { s with host := rest }) hp hi ha ht
      exact ⟨t, ht, hfin.2.1, hfin.serves (s := { s with host := rest })⟩
    · exact absurd hdeg (not_degenerate_next havoids hh hdraw)

/-- As many steps as the host has moves serve them all. -/
theorem run_serves (moves : List HostMove) : ∀ {s : State}, s.host = moves → s.phase = .idle → hostAvoidsDegenerate s →
    Answered (writeBounds (commandsOf moves)) s →
    ∃ t, run moves.length s = .next t ∧ t.host = [] ∧ Serves moves s t := by
  induction moves with
  | nil => exact fun {s} hh hp _ _ => ⟨s, rfl, hh, serves_of_same hp rfl rfl rfl⟩
  | cons move rest ih =>
    intro s hh hp havoids ha
    rw [← List.singleton_append, commandsOf_append, writeBounds_append] at ha
    obtain ⟨u, hu, hhost, hserves⟩ := step_serves hp hh havoids ⟨Nat.le_of_add_right_le ha.1, ha.2⟩
    obtain ⟨t, ht, hdone, hserves'⟩ := ih hhost hserves.1
      (hostAvoidsDegenerate_of_subset havoids (step_host_subset hu)) (hserves.answered ha)
    exact ⟨t, (run_succ _ hu).trans ht, hdone, hserves.trans hserves'⟩

/-! ## A run that has ended -/

/-- A step after the end of a run records nothing, and the run has ended still. -/
theorem RunEnded.step {s : State} (h : RunEnded s) : ∃ t, step s = .next t ∧ RunEnded t ∧ t.events = s.events := by
  obtain ⟨hp, hdone, hnone⟩ := h
  match hh : s.host with
  | [] => exact ⟨s, step_quiet hp hh, ⟨hp, hdone, hnone⟩, rfl⟩
  | .reset :: rest =>
    rw [hh] at hnone
    exact ⟨_, step_reset hh, ⟨rfl, hdone, hnone⟩, rfl⟩
  | .putPixel _ _ :: rest =>
    rw [hh] at hnone
    exact ⟨_, step_putPixel hp hh, ⟨hp, hdone, hnone⟩, rfl⟩
  | .issue _ :: _ =>
    rw [hh] at hnone
    cases hnone

/-- Settles O54: by induction on the host's moves, each served in one step; after the end a step records nothing more. -/
theorem answeredRunsEnd : Obligations.AnsweredRunsEnd := by
  refine ⟨fun s hp hopen havoids hlength hanswers => ?_, fun s hend k => ?_⟩
  · obtain ⟨t, ht, hhost, hidle, es, he, -, hacc, hres, hw, hclosed⟩ := run_serves s.host rfl hp havoids ⟨hlength, hanswers⟩
    exact ⟨t, es, ht, ⟨hidle, hclosed hopen, congrArg commandsOf hhost⟩, hhost, he, hacc, hres, hw⟩
  · have hstep : ∀ u, RunEnded u ∧ u.events = s.events → ∃ t, step u = .next t ∧ RunEnded t ∧ t.events = s.events := by
      rintro u ⟨hu, heu⟩
      obtain ⟨t, ht, htend, het⟩ := hu.step
      exact ⟨t, ht, htend, het.trans heu⟩
    obtain ⟨t, ht, htend, het⟩ := run_of_step hstep ⟨hend, rfl⟩ k
    exact ⟨t, ht, htend, by rw [observation, het, observation]⟩

end Sys2Proof.Machine

/-! # Proofs: a DRAW whose next write is not answered -/

namespace Sys2Proof.Machine

/-- A write that the transport leaves unanswered, now or for good, stays in flight (R174, R204). -/
theorem txWrite_waits (bs : List Byte) (f : State → State) {s : State} {tail rest : List Reply} (hr : s.replies = tail)
    (ht : tail = .pending :: rest ∨ (tail = [] ∧ rest = [])) :
    txWrite bs f s = { s with replies := rest, inFlight := true } := by
  subst hr
  rcases ht with ht | ⟨ht, rfl⟩
  · exact txWrite_pending bs f s rest ht
  · rw [txWrite_nil bs f s ht, ← ht]

/-- Settles O29: the write that waits is the frame, or the chunk that DRAW stands before. -/
theorem drawWaitsForAnswer : Obligations.DrawWaitsForAnswer := by
  intro s w h ns tail rest hp hs hw hh hr ht hn
  cases ns with
  | nil =>
    have he := exec_draw hp hs hw hh
    rw [txWrite_waits _ _ (s := drawBuilt s w h) hr ht] at he
    refine ⟨_, he, rfl, rfl, rfl, rfl, rfl, rfl, ?_, rfl, rfl, rfl, rfl, rfl, rfl, rfl, rfl, rfl, rfl,
      fun hne => absurd rfl hne, fun _ => ⟨rfl, rfl, rfl, rfl⟩, rfl, rfl, rfl, rfl⟩
    simp [drawBuilt_eq, okWrites]
  | cons n ms =>
    obtain ⟨t, k, he, -, htape, hat, htw, hth, htpix, htp, htres, htb, hev⟩ := exec_draw_prefix hp hs hw hh hr hn
    rw [payload, sendChunk, txWrite_waits _ _ (s := fillChunk t) htape ht] at he
    have hlvl : t.lvl = s.lvl := (congrArg State.lvl htb).trans rfl
    have hori : t.ori = s.ori := (congrArg State.ori htb).trans rfl
    have hhost : t.host = s.host := (congrArg State.host htb).trans rfl
    exact ⟨_, he, htp, htres, rfl, rfl, rfl, congrArg State.kind htb, hev, drawWrites_get hat htw hth htpix hn, htw, hth,
      congrArg State.x htb, congrArg State.y htb, congrArg State.ex htb, congrArg State.ey htb, congrArg State.opc htb,
      congrArg (·.fb.bytes.take 6) htb, congrArg State.flen htb,
      fun _ => ⟨htw ▸ hth ▸ hat.pixelCount, htw ▸ hat.start, (fillChunk_cb_length t).symm⟩, nofun,
      hlvl, hori, htpix, hhost⟩

end Sys2Proof.Machine
